-- ==== Sys2Proof/Word.lean ====
section
/-! DEFINITION. The word types of the IPA (00_scope.md R9: 32-bit registers and bus, 8-bit samples). -/

namespace Sys2Proof

/-- An 8-bit unsigned sample or one byte of memory (00_scope.md R9). -/
abbrev Byte := BitVec 8

/-- A 32-bit register, address, command word or binary32 encoding (00_scope.md R9, R12). -/
abbrev Word := BitVec 32

end Sys2Proof
end

