-- ==== Sys2Proof/Config.lean ====
section
/-! DEFINITION. What the spec leaves to the implementation or leaves unspecified, as constants with
no value (00_scope.md R9, 10_state.md R61, 93_implementation_defined.md U1, U6, U7, U8). -/

namespace Sys2Proof

/-- The five floating-point operations of 00_scope.md R12, as names. -/
inductive FloatOp where
  | add | sub | mul | div | sqrt
deriving DecidableEq, Repr

/-- Which NaN an operation with these operands returns (93_implementation_defined.md U6, the
"parameter function of the operands"; `fsqrt` gives its operand twice). -/
abbrev NanChoice := FloatOp → Word → Word → Word

/-- Free parameter behind `PIXMAX` (log entry 7). -/
opaque Config.pixMaxParam : Fin 22369621

/-- Free parameter behind `NMAX` (log entry 7). -/
opaque Config.nMaxParam : Fin 22369621

/-- `PIXMAX`: the greatest `IMG_H * IMG_W` the buffers hold, some number in `1 .. 22369621`
(00_scope.md R9). -/
def Config.pixMax : Nat := Config.pixMaxParam.val + 1

/-- `NMAX`: the greatest control-point count, some number in `1 .. 22369621` (00_scope.md R9). -/
def Config.nMax : Nat := Config.nMaxParam.val + 1

/-- Free parameter behind `GAUSS` (45_noise_adder_prng.md R171, log entry 8): a total function of
the 32-bit generator state alone. The one operation that draws makes its deviate finite. -/
opaque Config.gaussParam : Word → Word × Word

/-- Free choice of NaN (93_implementation_defined.md U6, log entry 6). The one operation that uses
it makes the result a NaN. -/
opaque Config.nanParam : NanChoice

/-- The unspecified contents of a byte of memory that nothing has written since the last `Reset()`
(10_state.md R59, 93_implementation_defined.md U1, log entry 4): the first argument counts the
resets, the second is the byte address. -/
opaque Config.powerOnByte : Nat → Nat → Byte

end Sys2Proof
end

