-- ==== Sys2Proof/Syntax.lean ====
section
/-! DEFINITION. The commands of the IPA (30_encoding.md R105) and the fields of a command word (R100). -/

namespace Sys2Proof

/-- The IPA's instructions: the thirteen commands of 30_encoding.md R105, one constructor per row of
the opcode table. No command has an operand (R100, 10_state.md R20). -/
inductive Instr where
  | nop
  | scale
  | tone
  | gamut
  | cmat
  | noiseU
  | noiseS
  | remosaic
  | descale
  | pipe
  | pipeU
  | pipeS
  | srst
deriving DecidableEq, Repr

/-- The three fields of the one format `CMDW` (30_encoding.md R100). -/
structure CmdFields where
  rsv : BitVec 26
  nv  : BitVec 2
  op  : BitVec 4
deriving DecidableEq, Repr

/-- Why a word is no command. 30_encoding.md R101 has the one answer `Illegal`; the three names tell
its three causes apart (R104 reserved bits, R102 unassigned `OP`, R103 `NV` not allowed) and the
last says that the bytes given are not one 32-bit datum (R107). Log entry 15. -/
inductive IllegalReason where
  | reservedBits
  | unassignedOp
  | variantNotAllowed
  | notOneWord
deriving DecidableEq, Repr

/-- The answer of the decoder (30_encoding.md R101): a command, or `Illegal` with its cause. -/
inductive Decoded where
  | command (i : Instr)
  | illegal (why : IllegalReason)
deriving DecidableEq, Repr

end Sys2Proof
end

