-- ==== Sys2Proof/WellFormed.lean ====
section
/-! DEFINITION. Which fields make a legal command word (30_encoding.md R102 to R104), and which
instructions are well formed. -/

namespace Sys2Proof

/-- Reserved bits must be zero (30_encoding.md R104). -/
def CmdFields.reservedZero (f : CmdFields) : Bool := f.rsv == 0

/-- `OP` values 0x9 to 0xE are reserved (30_encoding.md R102). -/
def CmdFields.opAssigned (f : CmdFields) : Bool := decide (f.op.toNat ≤ 8) || f.op == 0xF

/-- The `NV` values legal with an `OP` (30_encoding.md R103): 1 and 2 with `NOISE`, 0 to 2 with
`PIPE`, 0 with every other operation. -/
def CmdFields.variantAllowed (f : CmdFields) : Bool :=
  match f.op.toNat with
  | 5 => f.nv == 1 || f.nv == 2
  | 8 => f.nv != 3
  | _ => f.nv == 0

/-- The fields of a legal command word: all three checks hold. -/
def CmdFields.wellFormed (f : CmdFields) : Bool :=
  f.reservedZero && f.opAssigned && f.variantAllowed

/-- The fields of each command, the columns `OP` and `NV` of 30_encoding.md R105. -/
def Instr.fields : Instr → CmdFields
  | .nop      => ⟨0, 0, 0x0⟩
  | .scale    => ⟨0, 0, 0x1⟩
  | .tone     => ⟨0, 0, 0x2⟩
  | .gamut    => ⟨0, 0, 0x3⟩
  | .cmat     => ⟨0, 0, 0x4⟩
  | .noiseU   => ⟨0, 1, 0x5⟩
  | .noiseS   => ⟨0, 2, 0x5⟩
  | .remosaic => ⟨0, 0, 0x6⟩
  | .descale  => ⟨0, 0, 0x7⟩
  | .pipe     => ⟨0, 0, 0x8⟩
  | .pipeU    => ⟨0, 1, 0x8⟩
  | .pipeS    => ⟨0, 2, 0x8⟩
  | .srst     => ⟨0, 0, 0xF⟩

/-- An instruction is well formed when its fields are legal. No instruction has an operand, so each
of the thirteen is. -/
def Instr.wellFormed (i : Instr) : Bool := i.fields.wellFormed

end Sys2Proof
end

