-- ==== Sys2Proof/Decode.lean ====
section
/-! DEFINITION. The decoder of 30_encoding.md R101, total on every word and every list of bytes, and
after it the encoder (the `Word` column of R105). -/

namespace Sys2Proof

/-- The fields of a word, by the bit positions of 30_encoding.md R100: `OP` 3:0, `NV` 5:4, `RSV`
31:6. -/
def fieldsOf (w : Word) : CmdFields :=
  { rsv := w.extractLsb' 6 26, nv := w.extractLsb' 4 2, op := w.extractLsb' 0 4 }

/-- The word with the given fields (30_encoding.md R100). -/
def packFields (f : CmdFields) : Word := (f.rsv ++ f.nv ++ f.op : BitVec (26 + 2 + 4))

/-- The table of 30_encoding.md R101 by `OP` and `NV`, once the reserved bits are known to be zero. -/
def decodeOp (op nv : Nat) : Option Instr :=
  match op, nv with
  | 0x0, 0 => some .nop
  | 0x1, 0 => some .scale
  | 0x2, 0 => some .tone
  | 0x3, 0 => some .gamut
  | 0x4, 0 => some .cmat
  | 0x5, 1 => some .noiseU
  | 0x5, 2 => some .noiseS
  | 0x6, 0 => some .remosaic
  | 0x7, 0 => some .descale
  | 0x8, 0 => some .pipe
  | 0x8, 1 => some .pipeU
  | 0x8, 2 => some .pipeS
  | 0xF, 0 => some .srst
  | _, _ => none

/-- `Decode(w)` of 30_encoding.md R101: reads no state; every word is a command or `Illegal`. -/
def decode (w : Word) : Decoded :=
  let f := fieldsOf w
  if f.rsv ≠ 0 then .illegal .reservedBits
  else
    match decodeOp f.op.toNat f.nv.toNat with
    | some i => .command i
    | none => if f.opAssigned then .illegal .variantNotAllowed else .illegal .unassignedOp

/-- A command word given as bytes, lowest address first, little-endian (20_memory.md R77). A command
is always one 32-bit datum (30_encoding.md R107): any other number of bytes is no command. -/
def decodeBytes : List Byte → Decoded
  | [b0, b1, b2, b3] => decode (b3 ++ b2 ++ b1 ++ b0 : BitVec (8 + 8 + 8 + 8))
  | _ => .illegal .notOneWord

/-- The command word of each instruction: the `Word` column of 30_encoding.md R105. -/
def encode : Instr → Word
  | .nop      => 0x00000000
  | .scale    => 0x00000001
  | .tone     => 0x00000002
  | .gamut    => 0x00000003
  | .cmat     => 0x00000004
  | .noiseU   => 0x00000015
  | .noiseS   => 0x00000025
  | .remosaic => 0x00000006
  | .descale  => 0x00000007
  | .pipe     => 0x00000008
  | .pipeU    => 0x00000018
  | .pipeS    => 0x00000028
  | .srst     => 0x0000000F

/-- The instruction the decoder reads from the bits `w` of an opcode-table row of `nbits` bits (every
row has 32, 30_encoding.md R100); bits of `w` at and above `nbits` are dropped. -/
def decodeTableWord (nbits w : Nat) : Option Instr :=
  match decode (BitVec.ofNat 32 (w % 2 ^ nbits)) with
  | .command i => some i
  | .illegal _ => none

end Sys2Proof
end

