-- ==== Sys2Proof/Machine/Float.lean ====
section
/-! DEFINITION. Binary32 arithmetic (00_scope.md R12), the quantiser `Q255` (R13) and the range test
`OutOfRange` (R14). A finite value is an integer count of units of 2^-149, the least subnormal; every
operation computes on those integers exactly and rounds once, in `roundUnits`. The content of IEEE 754
is general knowledge, as R12 itself marks it (log entry 10). -/

namespace Sys2Proof.Machine

/-- Bit 31 of an encoding (R12). -/
def signOf (w : Word) : Bool := decide (2 ^ 31 ≤ w.toNat)

/-- Bits 30:23, the biased exponent (R12). -/
def exponentOf (w : Word) : Nat := w.toNat / 2 ^ 23 % 2 ^ 8

/-- Bits 22:0, the fraction (R12). -/
def fractionOf (w : Word) : Nat := w.toNat % 2 ^ 23

/-- A NaN: exponent all ones, fraction not zero. -/
def isNaN (w : Word) : Bool := exponentOf w == 255 && fractionOf w != 0

/-- An infinity: exponent all ones, fraction zero. -/
def isInf (w : Word) : Bool := exponentOf w == 255 && fractionOf w == 0

/-- `isfinite(a)` (R12): neither a NaN nor an infinity. -/
def isFinite (w : Word) : Bool := exponentOf w != 255

/-- The magnitude of a finite encoding in units of 2^-149. (An infinity's comes out above every
finite one, which is all the comparisons need.) -/
def magnitude (w : Word) : Nat :=
  if exponentOf w = 0 then fractionOf w else (2 ^ 23 + fractionOf w) * 2 ^ (exponentOf w - 1)

/-- The value in units of 2^-149, with its sign. -/
def signedValue (w : Word) : Int :=
  if signOf w then -(magnitude w : Int) else (magnitude w : Int)

/-- The encoding with the given sign and the given bits 30:0. -/
def withSign (neg : Bool) (m : Nat) : Word := BitVec.ofNat 32 ((if neg then 2 ^ 31 else 0) + m)

/-- Bits 30:0 of an infinity. -/
def infMagnitude : Nat := 0x7F800000

/-- Bits 30:0 of the binary32 value nearest to `num / den` units of 2^-149, ties to even (R12).
`k` is the exponent of the last place kept, `t` the significand before rounding; a carry out of
`t` moves into the exponent field by itself, and what is too great becomes an infinity. -/
def roundUnits (num den : Nat) : Nat :=
  let k := (num / den).log2 - 23
  let d := den * 2 ^ k
  let t := num / d
  let r := num % d
  let up := decide (d < 2 * r) || (decide (2 * r = d) && t % 2 == 1)
  min (k * 2 ^ 23 + (if up then t + 1 else t)) infMagnitude

/-- One bit of the integer square root after another, from bit `b - 1` down: `r` is the root's part
found so far. -/
def isqrtFrom (n : Nat) : Nat → Nat → Nat
  | 0, r => r
  | b + 1, r => if (r + 2 ^ b) * (r + 2 ^ b) ≤ n then isqrtFrom n b (r + 2 ^ b) else isqrtFrom n b r

/-- The integer square root, rounded down. -/
def isqrt (n : Nat) : Nat := isqrtFrom n (n.log2 / 2 + 1) 0

/-- Make any pattern a NaN: the identity on NaNs, so that every choice of NaN can be had
(93_implementation_defined.md U6). -/
def toNaN (w : Word) : Word :=
  withSign (signOf w) (infMagnitude + if fractionOf w = 0 then 2 ^ 22 else fractionOf w)

/-- Make any pattern finite: the identity on finite encodings (45_noise_adder_prng.md R171 item 2). -/
def toFinite (w : Word) : Word :=
  if isFinite w then w else withSign (signOf w) (fractionOf w)

/-- The NaN that an operation returns (R12, 93_implementation_defined.md U6, log entry 6). -/
def nanResult (nan : NanChoice) (op : FloatOp) (a b : Word) : Word := toNaN (nan op a b)

/-- The sum of two operands neither of which is a NaN, `invalid` being the answer for two infinities
of opposite sign. An exact zero sum is `-0` only when both operands are negative. -/
def addNumbers (invalid a b : Word) : Word :=
  if isInf a then (if isInf b && signOf a != signOf b then invalid else a)
  else if isInf b then b
  else
    let v := signedValue a + signedValue b
    if v = 0 then withSign (signOf a && signOf b) 0
    else withSign (decide (v < 0)) (roundUnits v.natAbs 1)

/-- `fadd(a, b)` (R12). -/
def fadd (nan : NanChoice) (a b : Word) : Word :=
  if isNaN a || isNaN b then nanResult nan .add a b
  else addNumbers (nanResult nan .add a b) a b

/-- The encoding with the other sign. -/
def negate (w : Word) : Word := withSign (!signOf w) (w.toNat % 2 ^ 31)

/-- `fsub(a, b)` (R12). -/
def fsub (nan : NanChoice) (a b : Word) : Word :=
  if isNaN a || isNaN b then nanResult nan .sub a b
  else addNumbers (nanResult nan .sub a b) a (negate b)

/-- `fmul(a, b)` (R12): a zero times an infinity is invalid. -/
def fmul (nan : NanChoice) (a b : Word) : Word :=
  let neg := signOf a != signOf b
  if isNaN a || isNaN b then nanResult nan .mul a b
  else if isInf a || isInf b then
    (if magnitude a = 0 || magnitude b = 0 then nanResult nan .mul a b else withSign neg infMagnitude)
  else withSign neg (roundUnits (magnitude a * magnitude b) (2 ^ 149))

/-- `fdiv(a, b)` (R12): infinity by infinity and zero by zero are invalid, a number by zero is an
infinity, a number by infinity a zero. -/
def fdiv (nan : NanChoice) (a b : Word) : Word :=
  let neg := signOf a != signOf b
  if isNaN a || isNaN b then nanResult nan .div a b
  else if isInf a then (if isInf b then nanResult nan .div a b else withSign neg infMagnitude)
  else if isInf b then withSign neg 0
  else if magnitude b = 0 then
    (if magnitude a = 0 then nanResult nan .div a b else withSign neg infMagnitude)
  else withSign neg (roundUnits (magnitude a * 2 ^ 149) (magnitude b))

/-- `fsqrt(a)` (R12): the root of `-0` is `-0`, of any other negative number invalid. The root of `n`
units is `isqrt (n * 2^149)` units and a part of a unit, which is far below the last place kept: half
a unit stands for it. -/
def fsqrt (nan : NanChoice) (a : Word) : Word :=
  if isNaN a then nanResult nan .sqrt a a
  else if magnitude a = 0 then a
  else if signOf a then nanResult nan .sqrt a a
  else if isInf a then a
  else
    let n := magnitude a * 2 ^ 149
    let r := isqrt n
    withSign false (roundUnits (2 * r + if r * r = n then 0 else 1) 2)

/-- `u2f(n)` (R12), for `n` in `0 .. 255`; exact. -/
def u2f (n : Nat) : Word := withSign false (roundUnits (n * 2 ^ 149) 1)

/-- `a >= b` (R12): false when either is a NaN; the zeros are equal. -/
def fge (a b : Word) : Bool := !isNaN a && !isNaN b && decide (signedValue b ≤ signedValue a)

/-- `a <= b` (R12). -/
def fle (a b : Word) : Bool := fge b a

/-- `a > b` (R12). -/
def fgt (a b : Word) : Bool := !isNaN a && !isNaN b && decide (signedValue b < signedValue a)

/-- `floor_int(a)` of a finite `a` (R12): the greatest integer not above it. -/
def floorInt (a : Word) : Int := signedValue a / 2 ^ 149

/-- `+0.0` (R12). -/
def fZero : Word := 0x00000000
/-- `0.5` (R12). -/
def fHalf : Word := 0x3F000000
/-- `1.0` (R14). -/
def fOne : Word := 0x3F800000
/-- `255.0` (R12). -/
def f255 : Word := 0x437F0000

/-- `Q255(v)` (R13): the level `0 .. 255` of a normalised sample; a NaN gives 0. -/
def q255 (nan : NanChoice) (v : Word) : Nat :=
  let t := fmul nan v f255
  if !fge t fZero then 0
  else if fge t f255 then 255
  else (floorInt t).toNat

/-- `OutOfRange(v)` (R14): below 0, above 1 or a NaN; false of `-0`. -/
def outOfRange (v : Word) : Bool := !(fge v fZero && fle v fOne)

end Sys2Proof.Machine
end

