-- ==== Sys2Proof/Machine/Params.lean ====
section
/-! DEFINITION. The parameter record every meaning takes (00_scope.md R9, 10_state.md R61), the
reference evaluator of the gamut sum (42_gamut_rbf_eval.md R141, R142), and the machine's own record. -/

namespace Sys2Proof.Machine

/-- Three binary32 values: a pixel, or one row of a table (channels 0, 1, 2). -/
structure Rgb where
  c0 : Word
  c1 : Word
  c2 : Word
deriving DecidableEq, Repr

/-- The four rows of `GCOEF` (10_state.md R53): the constant and the three linear rows. -/
structure GamutCoef where
  const : Rgb
  lin0  : Rgb
  lin1  : Rgb
  lin2  : Rgb
deriving DecidableEq, Repr

/-- The type of the per-pixel gamut function `RbfEval(c, N, GCP, GWT, GCOEF)` (R142): pixel, control
points, weights, coefficients; `N` is the length of the two lists. -/
abbrev RbfEval := Rgb → List Rgb → List Rgb → GamutCoef → Rgb

/-- The parameters of one IPA: the capacities and `GAUSS` (00_scope.md R9), the choice of NaN and the
contents of never-written memory (93_implementation_defined.md U6, U1), and the evaluator of the gamut
sum (42_gamut_rbf_eval.md R142). -/
structure Params where
  pixMax  : Nat
  nMax    : Nat
  gauss   : Word → Word × Word
  nan     : NanChoice
  powerOn : Nat → Nat → Byte
  rbfEval : RbfEval

/-- The component of channel `j` (0, 1, anything else is 2). -/
def Rgb.chan (p : Rgb) : Nat → Word
  | 0 => p.c0
  | 1 => p.c1
  | _ => p.c2

/-- `dist[k]` of R141: squares summed left to right, each operation rounded on its own. -/
def rbfDistance (nan : NanChoice) (c p : Rgb) : Word :=
  let e0 := fsub nan c.c0 p.c0
  let e1 := fsub nan c.c1 p.c1
  let e2 := fsub nan c.c2 p.c2
  fsqrt nan (fadd nan (fadd nan (fmul nan e0 e0) (fmul nan e1 e1)) (fmul nan e2 e2))

/-- The accumulator of R141 for output channel `j`: from `acc`, the terms in ascending order of `k`. -/
def rbfSum (nan : NanChoice) (c : Rgb) (j : Nat) : Word → List Rgb → List Rgb → Word
  | acc, p :: ps, w :: ws =>
    rbfSum nan c j (fadd nan acc (fmul nan (rbfDistance nan c p) (w.chan j))) ps ws
  | acc, _, _ => acc

/-- The affine part of R141 for output channel `j`, added to `acc`: the constant, then the three
linear terms in order. -/
def affineTerms (nan : NanChoice) (c : Rgb) (k : GamutCoef) (j : Nat) (acc : Word) : Word :=
  let y0 := fadd nan acc (k.const.chan j)
  let y1 := fadd nan y0 (fmul nan (k.lin0.chan j) c.c0)
  let y2 := fadd nan y1 (fmul nan (k.lin1.chan j) c.c1)
  fadd nan y2 (fmul nan (k.lin2.chan j) c.c2)

/-- One output channel of R141. -/
def rbfChannel (nan : NanChoice) (c : Rgb) (cps wts : List Rgb) (k : GamutCoef) (j : Nat) : Word :=
  affineTerms nan c k j (rbfSum nan c j fZero cps wts)

/-- The reference evaluator: R141's formula in R142's order. -/
def rbfReference (nan : NanChoice) : RbfEval := fun c cps wts k =>
  { c0 := rbfChannel nan c cps wts k 0
    c1 := rbfChannel nan c cps wts k 1
    c2 := rbfChannel nan c cps wts k 2 }

/-- The machine this model is about: the open parameters of Config and the reference evaluator (log
entry 9). -/
def ipa : Params where
  pixMax  := Config.pixMax
  nMax    := Config.nMax
  gauss   := Config.gaussParam
  nan     := Config.nanParam
  powerOn := Config.powerOnByte
  rbfEval := rbfReference Config.nanParam

end Sys2Proof.Machine
end

