-- ==== Sys2Proof/Machine/State.lean ====
section
/-! DEFINITION. The state of the IPA (10_state.md, all of it), the host operations and their
responses, the state after `Reset()`, and the model's own stop reasons. -/

namespace Sys2Proof.Machine

/-- Which float buffer `CUR` names (10_state.md R39): `F0` for 0, `F1` for 1. -/
inductive Buf where
  | f0
  | f1
deriving DecidableEq, Repr

/-- The fault codes of the IPA (60_exceptions.md R201). They are recorded in `ERRINFO`; they are not
stops of the model. -/
inductive ErrCode where
  | illCmd
  | shape
  | seq
  | calib
  | singular
  | noise
deriving DecidableEq, Repr

/-- The seven bits of `VALID` (10_state.md R36). -/
structure Valid where
  toneV : Bool
  cpV   : Bool
  wtV   : Bool
  cmatV : Bool
  inV   : Bool
  fV    : Bool
  outV  : Bool
deriving DecidableEq, Repr

/-- Memory: address and byte pairs, addresses strictly rising, over the 32-bit space of 20_memory.md
R70. A listed address is one that something has written since the last `Reset()`; an unlisted one
has no value here (log entry 4). -/
abbrev Memory := List Host.Cell

/-- The host's operations (00_scope.md R8, 20_memory.md R72, R74, 70_reset_and_hazards.md R230), with
the two access widths there are. -/
inductive HostOp where
  | read8   (addr : Word)
  | read32  (addr : Word)
  | write8  (addr : Word) (v : Byte)
  | write32 (addr : Word) (v : Word)
  | reset
deriving DecidableEq, Repr

/-- What the IPA answers to a host operation (20_memory.md R72, R74, R76). -/
inductive Resp where
  | ok
  | busError
  | data8  (b : Byte)
  | data32 (w : Word)
deriving DecidableEq, Repr

/-- The state. The registers are those of 10_state.md R22 (`ID` is hard-wired and `CMD` holds no
state, R23, R24), `mem` holds the nine memory regions (R50 to R57). The last three fields are the
model's own (log entries 1, 2, 5). -/
structure State where
  /-- `STATUS.DONE`, 10_state.md R26. -/
  done     : Bool
  /-- `STATUS.ERR`, 10_state.md R27. -/
  err      : Bool
  /-- `STATUS.DOMW`, 10_state.md R29. -/
  domw     : Bool
  /-- `ERRINFO.CODE`, 10_state.md R30. -/
  errInfo  : BitVec 4
  /-- `ERRCMD`, 10_state.md R30. -/
  errCmd   : Word
  /-- `IMG_H`, 10_state.md R31. -/
  imgH     : Word
  /-- `IMG_W`, 10_state.md R32. -/
  imgW     : Word
  /-- `IMG_C`, 10_state.md R33. -/
  imgC     : Word
  /-- `N_CP`, 10_state.md R34. -/
  nCp      : Word
  /-- `N_W`, 10_state.md R35. -/
  nW       : Word
  /-- `VALID`, 10_state.md R36. -/
  valid    : Valid
  /-- `CUR`, 10_state.md R39. -/
  cur      : Buf
  /-- `NOISE_VAR`, 10_state.md R40. -/
  noiseVar : Word
  /-- `NOISE_A0`, 10_state.md R41. -/
  noiseA0  : Word
  /-- `NOISE_B0`, 10_state.md R41. -/
  noiseB0  : Word
  /-- `NOISE_A1`, 10_state.md R41. -/
  noiseA1  : Word
  /-- `NOISE_B1`, 10_state.md R41. -/
  noiseB1  : Word
  /-- `NOISE_A2`, 10_state.md R41. -/
  noiseA2  : Word
  /-- `NOISE_B2`, 10_state.md R41. -/
  noiseB2  : Word
  /-- `RNG_STATE`, 10_state.md R42. -/
  rngState : Word
  /-- The nine memory regions, 10_state.md R50 to R57. -/
  mem      : Memory
  /-- The model's own: how many `Reset()` operations have happened (log entry 5). -/
  epoch    : Nat
  /-- The model's own: the host operations still to come, the next one first (log entry 1). -/
  host     : List HostOp
  /-- The model's own: the answer to the last host operation (log entry 2). -/
  resp     : Option Resp
deriving DecidableEq, Repr

/-- No bit of `VALID` set, its reset value (10_state.md R36). -/
def Valid.none : Valid := ⟨false, false, false, false, false, false, false⟩

/-- The state right after `Reset()` (10_state.md R22, R59, 70_reset_and_hazards.md R231): every
register at its reset value, no byte of memory written. The last three fields: log entries 1, 2, 5. -/
def State.reset : State where
  done     := false
  err      := false
  domw     := false
  errInfo  := 0
  errCmd   := 0
  imgH     := 0
  imgW     := 0
  imgC     := 0
  nCp      := 0
  nW       := 0
  valid    := Valid.none
  cur      := .f0
  noiseVar := 0
  noiseA0  := 0
  noiseB0  := 0
  noiseA1  := 0
  noiseB1  := 0
  noiseA2  := 0
  noiseB2  := 0
  rngState := 0
  mem      := []
  epoch    := 0
  host     := []
  resp     := .none

/-- The model's stops with a fault: NONE. Everything the spec calls a fault or an error is recorded
in `STATUS`, `ERRINFO`, `ERRCMD` (60_exceptions.md R206) or answered with `BusError` (20_memory.md
R76), and the machine goes on; an access outside the map is one of those. No rule of the spec stops
the machine, so no constructor stands here (log entry 11). -/
inductive Fault where
deriving DecidableEq, Repr

/-- The model's refusals. -/
inductive Refusal where
  /-- An instruction that has no meaning yet. Raised by an arm of `exec` alone; no arm raises it, since
  every instruction has its meaning. Safe: the model stops where the hardware goes on. -/
  | notModelled (mnemonic : String)
deriving DecidableEq, Repr

end Sys2Proof.Machine
end

