-- ==== Sys2Proof/Machine/Ops.lean ====
section
/-! DEFINITION. The shared operations: memory in its canonical form, one read and one write per width,
storing an image, taking a fault (60_exceptions.md R206) and leaving the error state (46_control.md
R189, 70_reset_and_hazards.md R230). -/

namespace Sys2Proof.Machine

/-- The byte listed at an address, if one is. -/
def memGet : Memory → Nat → Option Byte
  | [], _ => none
  | (k, c) :: m, a => if k = a then some c else memGet m a

/-- Write one byte, keeping the addresses strictly rising. -/
def memSet : Memory → Nat → Byte → Memory
  | [], a, b => [(a, b)]
  | (k, c) :: m, a, b =>
    if a < k then (a, b) :: (k, c) :: m
    else if a = k then (a, b) :: m
    else (k, c) :: memSet m a b

/-- Every address of the list is above `lo`, and they rise strictly. -/
def risesFrom (lo : Nat) : Memory → Bool
  | [] => true
  | (k, _) :: m => decide (lo ≤ k) && risesFrom (k + 1) m

/-- The canonical form: addresses strictly rising. (An unlisted address has no value in the list, so
no entry can equal it: log entry 4.) -/
def Memory.wf (m : Memory) : Bool := risesFrom 0 m

/-- Byte `i` of a 32-bit element, byte 0 holding bits 7:0 (20_memory.md R77). -/
def byteOf (w : Word) (i : Nat) : Byte := BitVec.ofNat 8 (w.toNat / 2 ^ (8 * i))

/-- Write one 32-bit element, its lowest byte at the lowest address (20_memory.md R77). -/
def memSetWord (m : Memory) (a : Nat) (w : Word) : Memory :=
  memSet (memSet (memSet (memSet m a (byteOf w 0)) (a + 1) (byteOf w 1)) (a + 2) (byteOf w 2))
    (a + 3) (byteOf w 3)

/-- Write elements one after another from address `a` up, 4 bytes each. -/
def memSetWords : Memory → Nat → List Word → Memory
  | m, _, [] => m
  | m, a, w :: ws => memSetWords (memSetWord m a w) (a + 4) ws

/-- Write bytes one after another from address `a` up. -/
def memSetBytes : Memory → Nat → List Byte → Memory
  | m, _, [] => m
  | m, a, b :: bs => memSetBytes (memSet m a b) (a + 1) bs

/-- THE read of one byte: the byte written last, or for a byte nothing has written since `Reset()` its
unspecified contents (10_state.md R59, log entry 4). -/
def State.byteAt (P : Params) (s : State) (a : Nat) : Byte :=
  match memGet s.mem a with
  | some b => b
  | none => P.powerOn s.epoch a

/-- The read of one 32-bit element: bits 7:0 at the lowest address (20_memory.md R77). -/
def State.wordAt (P : Params) (s : State) (a : Nat) : Word :=
  BitVec.ofNat 32 ((s.byteAt P a).toNat + 2 ^ 8 * (s.byteAt P (a + 1)).toNat
    + 2 ^ 16 * (s.byteAt P (a + 2)).toNat + 2 ^ 24 * (s.byteAt P (a + 3)).toNat)

/-- Store one byte element. -/
def State.setByte (s : State) (a : Nat) (b : Byte) : State := { s with mem := memSet s.mem a b }

/-- Store one 32-bit element. -/
def State.setWord (s : State) (a : Nat) (w : Word) : State := { s with mem := memSetWord s.mem a w }

/-- The other float buffer, `1 - CUR` (10_state.md R39). -/
def Buf.other : Buf → Buf
  | .f0 => .f1
  | .f1 => .f0

/-- The code of a fault (60_exceptions.md R201). -/
def ErrCode.code : ErrCode → BitVec 4
  | .illCmd   => 1
  | .shape    => 2
  | .seq      => 3
  | .calib    => 4
  | .singular => 5
  | .noise    => 6

/-- TAKING A FAULT, `Fault(f, w)` of 60_exceptions.md R206: exactly these four writes. There is no
handler, vector or saved program counter. -/
def takeFault (f : ErrCode) (w : Word) (s : State) : State :=
  { s with err := true, done := false, errInfo := f.code, errCmd := w }

/-- LEAVING THE ERROR STATE, `SoftReset()` of 46_control.md R189: every register of R22 takes its reset
value and no memory region changes. The model's own fields stay. -/
def softReset (s : State) : State :=
  { State.reset with mem := s.mem, epoch := s.epoch, host := s.host, resp := s.resp }

/-- `Reset()` (70_reset_and_hazards.md R230): every register at its reset value, the contents of every
region unspecified and not those of before: nothing is listed and the next epoch's free contents
stand behind it (log entry 5). The host's list and the response are not the IPA's and stay. -/
def hardReset (s : State) : State :=
  { State.reset with epoch := s.epoch + 1, host := s.host, resp := s.resp }

end Sys2Proof.Machine
end

