-- ==== Sys2Proof/Machine/Operands.lean ====
section
/-! DEFINITION. Where operands are: the address map (20_memory.md R70, R71), the elements of tables and
buffers by their logical indices (10_state.md R50 to R58), the control registers by offset (R22), and
which host accesses are refused (20_memory.md R73, R76). -/

namespace Sys2Proof.Machine

/-- The ten regions (20_memory.md R70). -/
inductive Region where
  | csr | tone | gcp | gwt | gcoef | cmat | u8in | u8out | f0 | f1
deriving DecidableEq, Repr

/-- `addr[31:28]` of a region (R70). -/
def Region.number : Region → Nat
  | .csr => 0 | .tone => 1 | .gcp => 2 | .gwt => 3 | .gcoef => 4
  | .cmat => 5 | .u8in => 6 | .u8out => 7 | .f0 => 8 | .f1 => 9

/-- The region that `addr[31:28]` selects; none for 0xA to 0xF (R70). -/
def Region.ofNumber : Nat → Option Region
  | 0 => some .csr | 1 => some .tone | 2 => some .gcp | 3 => some .gwt | 4 => some .gcoef
  | 5 => some .cmat | 6 => some .u8in | 7 => some .u8out | 8 => some .f0 | 9 => some .f1
  | _ => none

/-- How many bytes of a region are mapped (R70). -/
def Region.extent (P : Params) : Region → Nat
  | .csr   => 0x50
  | .tone  => 3072
  | .gcp   => 12 * P.nMax
  | .gwt   => 12 * P.nMax
  | .gcoef => 48
  | .cmat  => 36
  | .u8in  => 3 * P.pixMax
  | .u8out => 3 * P.pixMax
  | .f0    => 12 * P.pixMax
  | .f1    => 12 * P.pixMax

/-- The bytes one access of a region moves (R73): 1 in `U8IN` and `U8OUT`, 4 elsewhere. -/
def Region.width : Region → Nat
  | .u8in | .u8out => 1
  | .csr | .tone | .gcp | .gwt | .gcoef | .cmat | .f0 | .f1 => 4

/-- The address of a region's first byte, `region << 28` (R71). -/
def Region.base (r : Region) : Nat := r.number * 2 ^ 28

/-- The region of a float buffer (10_state.md R57). -/
def Buf.region : Buf → Region
  | .f0 => .f0
  | .f1 => .f1

/-- The address of a float buffer's first element. -/
def Buf.base (b : Buf) : Nat := b.region.base

/-- The region a host access of `n` bytes reaches, or none where the IPA refuses it: the four cases of
20_memory.md R76. -/
def accessRegion (P : Params) (addr : Word) (n : Nat) : Option Region :=
  match Region.ofNumber (addr.toNat / 2 ^ 28) with
  | none => none
  | some r =>
    if r.extent P ≤ addr.toNat % 2 ^ 28 then none
    else if n ≠ r.width then none
    else if addr.toNat % n ≠ 0 then none
    else some r

/-- `H * W`, an unbounded product (00_scope.md R15). -/
def State.pixels (s : State) : Nat := s.imgH.toNat * s.imgW.toNat

/-- `3*H*W`, the element count of an image (20_memory.md R79). -/
def State.elements (s : State) : Nat := 3 * s.pixels

/-- The linear element index of `(r, c, ch)` (10_state.md R58), `w` being `IMG_W`. -/
def elemIndex (w r c ch : Nat) : Nat := (r * w + c) * 3 + ch

/-- The row of element `e` (inverse of R58). -/
def rowOf (w e : Nat) : Nat := e / 3 / w

/-- The column of element `e` (inverse of R58). -/
def colOf (w e : Nat) : Nat := e / 3 % w

/-- The channel of element `e` (inverse of R58). -/
def chanOf (e : Nat) : Nat := e % 3

/-- Element `e` of a float buffer (10_state.md R57, 20_memory.md R71). -/
def State.floatElem (P : Params) (s : State) (b : Buf) (e : Nat) : Word := s.wordAt P (b.base + 4 * e)

/-- Element `e` of `U8IN` (10_state.md R55). -/
def State.u8inElem (P : Params) (s : State) (e : Nat) : Byte := s.byteAt P (Region.u8in.base + e)

/-- Element `e` of `U8OUT` (10_state.md R56). -/
def State.u8outElem (P : Params) (s : State) (e : Nat) : Byte := s.byteAt P (Region.u8out.base + e)

/-- Element `T[a][b]` of a table with three columns (10_state.md R58, 20_memory.md R71). -/
def State.tableElem (P : Params) (s : State) (t : Region) (a b : Nat) : Word :=
  s.wordAt P (t.base + 4 * (a * 3 + b))

/-- Row `a` of a table with three columns. -/
def State.tableRow (P : Params) (s : State) (t : Region) (a : Nat) : Rgb :=
  ⟨s.tableElem P t a 0, s.tableElem P t a 1, s.tableElem P t a 2⟩

/-- Rows `0 .. n-1` of a table. -/
def State.tableRows (P : Params) (s : State) (t : Region) (n : Nat) : List Rgb :=
  (List.range n).map (s.tableRow P t)

/-- The four rows of `GCOEF` (10_state.md R53). -/
def State.gamutCoef (P : Params) (s : State) : GamutCoef :=
  ⟨s.tableRow P .gcoef 0, s.tableRow P .gcoef 1, s.tableRow P .gcoef 2, s.tableRow P .gcoef 3⟩

/-- The pixel that element `e` of a float buffer belongs to. -/
def State.pixelOf (P : Params) (s : State) (b : Buf) (e : Nat) : Rgb :=
  ⟨s.floatElem P b (3 * (e / 3)), s.floatElem P b (3 * (e / 3) + 1), s.floatElem P b (3 * (e / 3) + 2)⟩

/-- `NOISE_A[ch]` (10_state.md R41). -/
def State.noiseA (s : State) : Nat → Word
  | 0 => s.noiseA0
  | 1 => s.noiseA1
  | _ => s.noiseA2

/-- `NOISE_B[ch]` (10_state.md R41). -/
def State.noiseB (s : State) : Nat → Word
  | 0 => s.noiseB0
  | 1 => s.noiseB1
  | _ => s.noiseB2

/-- Write elements `0 .. 3*H*W-1` of a float buffer, element `e` being `f e`; the elements above keep
their contents (20_memory.md R79). -/
def State.storeFloats (s : State) (b : Buf) (f : Nat → Word) : State :=
  { s with mem := memSetWords s.mem b.base ((List.range s.elements).map f) }

/-- Write elements `0 .. 3*H*W-1` of `U8OUT`. -/
def State.storeBytes (s : State) (f : Nat → Byte) : State :=
  { s with mem := memSetBytes s.mem Region.u8out.base ((List.range s.elements).map f) }

/-- The control registers (10_state.md R22). -/
inductive Reg where
  | id | cmd | status | errInfo | errCmd | imgH | imgW | imgC | nCp | nW
  | valid | cur | noiseVar | noiseA0 | noiseB0 | noiseA1 | noiseB1 | noiseA2 | noiseB2 | rngState
deriving DecidableEq, Repr

/-- The register at a byte offset of region `CSR` (R22); none where nothing is mapped (R43). -/
def Reg.ofOffset : Nat → Option Reg
  | 0x00 => some .id       | 0x04 => some .cmd      | 0x08 => some .status   | 0x0C => some .errInfo
  | 0x10 => some .errCmd   | 0x14 => some .imgH     | 0x18 => some .imgW     | 0x1C => some .imgC
  | 0x20 => some .nCp      | 0x24 => some .nW       | 0x28 => some .valid    | 0x2C => some .cur
  | 0x30 => some .noiseVar | 0x34 => some .noiseA0  | 0x38 => some .noiseB0  | 0x3C => some .noiseA1
  | 0x40 => some .noiseB1  | 0x44 => some .noiseA2  | 0x48 => some .noiseB2  | 0x4C => some .rngState
  | _ => none

/-- Bit `i` of a word being `b`, every other bit 0. -/
def bitIf (b : Bool) (i : Nat) : Word := if b then BitVec.ofNat 32 (2 ^ i) else 0

/-- `STATUS` as the host reads it (10_state.md R25). -/
def State.statusWord (s : State) : Word := bitIf s.done 0 ||| bitIf s.err 1 ||| bitIf s.domw 2

/-- `VALID` as the host reads it (10_state.md R36). -/
def Valid.word (v : Valid) : Word :=
  bitIf v.toneV 0 ||| bitIf v.cpV 1 ||| bitIf v.wtV 2 ||| bitIf v.cmatV 3 ||| bitIf v.inV 4
    ||| bitIf v.fV 5 ||| bitIf v.outV 6

/-- `VALID` after a host write of `v`: bits 6:0 of it (10_state.md R36). -/
def Valid.ofWord (v : Word) : Valid where
  toneV := v.getLsbD 0
  cpV   := v.getLsbD 1
  wtV   := v.getLsbD 2
  cmatV := v.getLsbD 3
  inV   := v.getLsbD 4
  fV    := v.getLsbD 5
  outV  := v.getLsbD 6

/-- `CUR` as the host reads it (10_state.md R39). -/
def Buf.word : Buf → Word
  | .f0 => 0
  | .f1 => 1

/-- The buffer that a word written to `CUR` names: its bit 0 (10_state.md R39). -/
def Buf.ofWord (v : Word) : Buf := if v.getLsbD 0 then .f1 else .f0

/-- The value of a register as the host reads it (10_state.md R22 to R44): `ID` is the constant,
`CMD` reads 0, reserved bits read 0. -/
def State.readReg (s : State) : Reg → Word
  | .id       => 0x43415641
  | .cmd      => 0
  | .status   => s.statusWord
  | .errInfo  => s.errInfo.zeroExtend 32
  | .errCmd   => s.errCmd
  | .imgH     => s.imgH
  | .imgW     => s.imgW
  | .imgC     => s.imgC
  | .nCp      => s.nCp
  | .nW       => s.nW
  | .valid    => s.valid.word
  | .cur      => s.cur.word
  | .noiseVar => s.noiseVar
  | .noiseA0  => s.noiseA0
  | .noiseB0  => s.noiseB0
  | .noiseA1  => s.noiseA1
  | .noiseB1  => s.noiseB1
  | .noiseA2  => s.noiseA2
  | .noiseB2  => s.noiseB2
  | .rngState => s.rngState

end Sys2Proof.Machine
end

