-- ==== Sys2Proof/Machine/Flags.lean ====
section
/-! DEFINITION. Every flag the machine computes: `STATUS.DONE` (10_state.md R26), `STATUS.DOMW` (R28,
R29), the engine's and the host's effects on `VALID` (R36 to R38), and what a host write does to each
register (R22 to R44). -/

namespace Sys2Proof.Machine

/-- `STATUS.DONE <- 1`, the last action of a command that ends without a fault (10_state.md R26). -/
def setDone (s : State) : State := { s with done := true }

/-- Some element of the image in buffer `b` is out of range (10_state.md R29). -/
def anyOutOfRange (P : Params) (s : State) (b : Buf) : Bool :=
  (List.range s.elements).any fun e => outOfRange (s.floatElem P b e)

/-- `if warn: csr.STATUS.DOMW <- 1`; the engine never clears the flag (10_state.md R29). -/
def raiseDomw (warn : Bool) (s : State) : State := { s with domw := s.domw || warn }

/-- How a stage that fills the other float buffer ends (10_state.md R37, R39): `CUR <- d`, `F_V <- 1`,
`DONE <- 1`. -/
def finishFloatStage (d : Buf) (s : State) : State :=
  setDone { s with cur := d, valid := { s.valid with fV := true } }

/-- How `DESCALE` ends (10_state.md R37): `OUT_V <- 1`, `DONE <- 1`; `CUR` and `F_V` stay. -/
def finishByteStage (s : State) : State :=
  setDone { s with valid := { s.valid with outV := true } }

/-- What a host write to a memory region clears in `VALID` (10_state.md R38), given `CUR`. -/
def Valid.afterRegionWrite (v : Valid) (cur : Buf) : Region → Valid
  | .csr   => v
  | .tone  => { v with toneV := false }
  | .gcp   => { v with cpV := false }
  | .gwt   => { v with wtV := false }
  | .gcoef => { v with wtV := false }
  | .cmat  => { v with cmatV := false }
  | .u8in  => { v with inV := false }
  | .u8out => { v with outV := false }
  | .f0    => if cur = .f0 then { v with fV := false } else v
  | .f1    => if cur = .f1 then { v with fV := false } else v

/-- What a host write to a shape register clears (10_state.md R31 to R33, R38). -/
def Valid.afterShapeWrite (v : Valid) : Valid := { v with inV := false, fV := false, outV := false }

/-- A host write of `v` to a register other than `CMD` (10_state.md R22 to R44), with the `VALID` bits
it clears (R38). `RO` registers ignore it (R44); `STATUS` clears `DOMW` where bit 2 is 1 (R28). `CMD`
has no storage; the command it runs is the host port's doing. -/
def writeReg (r : Reg) (v : Word) (s : State) : State :=
  match r with
  | .id       => s
  | .cmd      => s
  | .status   => { s with domw := s.domw && !v.getLsbD 2 }
  | .errInfo  => s
  | .errCmd   => s
  | .imgH     => { s with imgH := v, valid := s.valid.afterShapeWrite }
  | .imgW     => { s with imgW := v, valid := s.valid.afterShapeWrite }
  | .imgC     => { s with imgC := v, valid := s.valid.afterShapeWrite }
  | .nCp      => { s with nCp := v, valid := { s.valid with cpV := false } }
  | .nW       => { s with nW := v, valid := { s.valid with wtV := false } }
  | .valid    => { s with valid := Valid.ofWord v }
  | .cur      => { s with cur := Buf.ofWord v, valid := { s.valid with fV := false } }
  | .noiseVar => { s with noiseVar := v }
  | .noiseA0  => { s with noiseA0 := v }
  | .noiseB0  => { s with noiseB0 := v }
  | .noiseA1  => { s with noiseA1 := v }
  | .noiseB1  => { s with noiseB1 := v }
  | .noiseA2  => { s with noiseA2 := v }
  | .noiseB2  => { s with noiseB2 := v }
  | .rngState => { s with rngState := v }

end Sys2Proof.Machine
end

