-- ==== Sys2Proof/Machine/Frame.lean ====
section
/-! DEFINITION. The frame every command runs in: the entry checks (60_exceptions.md R202 to R205, R210,
R211) and `Exec` (46_control.md R191). -/

namespace Sys2Proof.Machine

/-- `PIPE*` (60_exceptions.md R201): `PIPE`, `PIPE.U`, `PIPE.S`. -/
def isPipe : Instr → Bool
  | .pipe | .pipeU | .pipeS => true
  | .nop | .scale | .tone | .gamut | .cmat | .noiseU | .noiseS | .remosaic | .descale | .srst => false

/-- The condition of `ERR_SHAPE` (60_exceptions.md R202); the product is not reduced. -/
def shapeBad (P : Params) (s : State) : Bool := s.imgC != 3 || decide (P.pixMax < s.pixels)

/-- The condition of `ERR_SEQ` (R204): `IN_V` for `SCALE` and `PIPE*`, `F_V` for the other stages. -/
def inputMissing (i : Instr) (s : State) : Bool :=
  if i == .scale || isPipe i then !s.valid.inV else !s.valid.fV

/-- `TONE`'s condition of `ERR_CALIB` (R203). -/
def toneMissing (s : State) : Bool := !s.valid.toneV

/-- `GAMUT`'s condition of `ERR_CALIB` (R203). -/
def gamutMissing (P : Params) (s : State) : Bool :=
  !s.valid.cpV || !s.valid.wtV || s.nCp != s.nW || decide (P.nMax < s.nCp.toNat)

/-- `CMAT`'s condition of `ERR_CALIB` (R203). -/
def cmatMissing (s : State) : Bool := !s.valid.cmatV

/-- The condition of `ERR_CALIB` by command (R203, R205 step 5). -/
def calibBad (P : Params) (i : Instr) (s : State) : Bool :=
  ((i == .tone || isPipe i) && toneMissing s)
    || ((i == .gamut || isPipe i) && gamutMissing P s)
    || ((i == .cmat || isPipe i) && cmatMissing s)

/-- Some entry of `CMAT` is not finite (R210). -/
def cmatNotFinite (P : Params) (s : State) : Bool :=
  (List.range 9).any fun e => !isFinite (s.wordAt P (Region.cmat.base + 4 * e))

/-- The condition of `ERR_SINGULAR` (R210, R205 step 6). -/
def singularBad (P : Params) (i : Instr) (s : State) : Bool :=
  (i == .cmat || isPipe i) && cmatNotFinite P s

/-- The `NOISE.U` condition of R211. -/
def varianceBad (s : State) : Bool := !isFinite s.noiseVar || !fge s.noiseVar fZero

/-- The `NOISE.S` condition of R211 for one channel: the variance at the two ends of the signal
range. -/
def pairBad (P : Params) (a b : Word) : Bool :=
  !isFinite a || !isFinite b || !fge b fZero || !fge (fadd P.nan (fmul P.nan a f255) b) fZero

/-- The `NOISE.S` condition of R211. -/
def pairsBad (P : Params) (s : State) : Bool :=
  (List.range 3).any fun c => pairBad P (s.noiseA c) (s.noiseB c)

/-- The condition of `ERR_NOISE` by command (R211, R205 step 7). -/
def noiseBad (P : Params) (i : Instr) (s : State) : Bool :=
  ((i == .noiseU || i == .pipeU) && varianceBad s) || ((i == .noiseS || i == .pipeS) && pairsBad P s)

/-- `EntryCheck` of 60_exceptions.md R205 for a word that is a command: the first check that fails, in
order; `NOP` and `SRST` have none. -/
def entryCheck (P : Params) (i : Instr) (s : State) : Option ErrCode :=
  if i == .nop || i == .srst then none
  else if shapeBad P s then some .shape
  else if inputMissing i s then some .seq
  else if calibBad P i s then some .calib
  else if singularBad P i s then some .singular
  else if noiseBad P i s then some .noise
  else none

/-- `Exec` of 46_control.md R191 for every command but `SRST`: nothing happens in the error state
(60_exceptions.md R208); otherwise the first failing check is the fault, recorded with the command's
own word, or the body runs. -/
def runCommand (P : Params) (i : Instr) (body : State → State) (s : State) : State :=
  if s.err then s
  else
    match entryCheck P i s with
    | some f => takeFault f (encode i) s
    | none => body s

end Sys2Proof.Machine
end

