-- ==== Sys2Proof/Machine/ColorMatrix.lean ====
section
/-! DEFINITION. The color_matrix_mult unit (43_color_matrix_mult.md): `CMAT`. -/

namespace Sys2Proof.Machine

/-- The sum of 43_color_matrix_mult.md R151: products rounded, then added left to right (R152 (a)). -/
def colorSum (P : Params) (x m : Rgb) : Word :=
  fadd P.nan (fadd P.nan (fmul P.nan x.c0 m.c0) (fmul P.nan x.c1 m.c1)) (fmul P.nan x.c2 m.c2)

/-- The floor of R151: the test is `sum > +0.0`, so a negative sum, either zero and a NaN all give
`+0.0` (R152 (b)). -/
def floorAtZero (sum : Word) : Word := if fgt sum fZero then sum else fZero

/-- What `CMAT` writes to element `e`: row `j` of the matrix makes channel `j` (R151). -/
def cmatElem (P : Params) (s : State) (e : Nat) : Word :=
  floorAtZero (colorSum P (s.pixelOf P s.cur e) (s.tableRow P .cmat (chanOf e)))

/-- `Body(CMAT)` (43_color_matrix_mult.md R151). -/
def cmatBody (P : Params) (s : State) : State :=
  finishFloatStage s.cur.other (s.storeFloats s.cur.other (cmatElem P s))

/-- `CMAT` (43_color_matrix_mult.md R151) in its frame. -/
def execCmat (s : State) : Host.Outcome State Fault Refusal :=
  .next (runCommand ipa .cmat (cmatBody ipa) s)

end Sys2Proof.Machine
end

