-- ==== Sys2Proof/Machine/GamutRbf.lean ====
section
/-! DEFINITION. The gamut_rbf_eval unit (42_gamut_rbf_eval.md): `GAMUT`. -/

namespace Sys2Proof.Machine

/-- What `GAMUT` writes to element `e`: the evaluator's value for the pixel, at the element's channel,
over rows `0 .. N-1` of `GCP` and `GWT`, `N` being `N_CP` (42_gamut_rbf_eval.md R140, R141). -/
def gamutElem (P : Params) (s : State) (e : Nat) : Word :=
  (P.rbfEval (s.pixelOf P s.cur e) (s.tableRows P .gcp s.nCp.toNat) (s.tableRows P .gwt s.nCp.toNat)
    (s.gamutCoef P)).chan (chanOf e)

/-- `Body(GAMUT)` (42_gamut_rbf_eval.md R141). -/
def gamutBody (P : Params) (s : State) : State :=
  finishFloatStage s.cur.other (s.storeFloats s.cur.other (gamutElem P s))

/-- `GAMUT` (42_gamut_rbf_eval.md R141) in its frame. -/
def execGamut (s : State) : Host.Outcome State Fault Refusal :=
  .next (runCommand ipa .gamut (gamutBody ipa) s)

end Sys2Proof.Machine
end

