-- ==== Sys2Proof/Machine/NoiseAdder.lean ====
section
/-! DEFINITION. The noise_adder_prng unit (45_noise_adder_prng.md): `NOISE.U` and `NOISE.S`. -/

namespace Sys2Proof.Machine

/-- The generator state after `k` draws (45_noise_adder_prng.md R171, R172). -/
def rngAfter (P : Params) : Nat → Word → Word
  | 0, g => g
  | k + 1, g => (P.gauss (rngAfter P k g)).2

/-- The deviate drawn for element `e`: the `(e+1)`-th application of `GAUSS` from the state the command
found (R172); finite by construction (R171 item 2, log entry 8). -/
def drawFor (P : Params) (g : Word) (e : Nat) : Word := toFinite (P.gauss (rngAfter P e g)).1

/-- What `NOISE.U` writes to element `e` (45_noise_adder_prng.md R173). -/
def noiseUElem (P : Params) (s : State) (e : Nat) : Word :=
  fadd P.nan (s.floatElem P s.cur e) (fmul P.nan (fsqrt P.nan s.noiseVar) (drawFor P s.rngState e))

/-- `RNG_STATE <- g` after one draw per element (R172). -/
def advanceRng (P : Params) (s : State) : State := { s with rngState := rngAfter P s.elements s.rngState }

/-- `Body(NOISE.U)` (45_noise_adder_prng.md R173). -/
def noiseUBody (P : Params) (s : State) : State :=
  finishFloatStage s.cur.other (advanceRng P (s.storeFloats s.cur.other (noiseUElem P s)))

/-- One sample of R174: the level of `v`, the variance affine in it, the noisy level kept as a float and
rescaled. -/
def signalNoise (P : Params) (a b v z : Word) : Word :=
  let sig := u2f (q255 P.nan v)
  let var := fadd P.nan (fmul P.nan a sig) b
  fdiv P.nan (fadd P.nan sig (fmul P.nan (fsqrt P.nan var) z)) f255

/-- What `NOISE.S` writes to element `e` (45_noise_adder_prng.md R174). -/
def noiseSElem (P : Params) (s : State) (e : Nat) : Word :=
  signalNoise P (s.noiseA (chanOf e)) (s.noiseB (chanOf e)) (s.floatElem P s.cur e)
    (drawFor P s.rngState e)

/-- `Body(NOISE.S)` (45_noise_adder_prng.md R174). -/
def noiseSBody (P : Params) (s : State) : State :=
  finishFloatStage s.cur.other
    (advanceRng P (raiseDomw (anyOutOfRange P s s.cur) (s.storeFloats s.cur.other (noiseSElem P s))))

/-- `NOISE.U` (45_noise_adder_prng.md R173) in its frame. -/
def execNoiseU (s : State) : Host.Outcome State Fault Refusal :=
  .next (runCommand ipa .noiseU (noiseUBody ipa) s)

/-- `NOISE.S` (45_noise_adder_prng.md R174) in its frame. -/
def execNoiseS (s : State) : Host.Outcome State Fault Refusal :=
  .next (runCommand ipa .noiseS (noiseSBody ipa) s)

end Sys2Proof.Machine
end

