-- ==== Sys2Proof/Machine/Remosaicer.lean ====
section
/-! DEFINITION. The bayer_remosaicer unit (44_bayer_remosaicer.md): `REMOSAIC`. -/

namespace Sys2Proof.Machine

/-- `Keep(r, c)` (44_bayer_remosaicer.md R160): the channel retained at row `r`, column `c`. -/
def keep (r c : Nat) : Nat :=
  match r % 2, c % 2 with
  | 0, 0 => 1
  | 0, _ => 0
  | _, 0 => 2
  | _, _ => 1

/-- One element of R161: a channel not kept is `+0.0` whatever the sample, kept green is halved, kept
red and blue are copied. -/
def bayerSample (P : Params) (r c ch : Nat) (v : Word) : Word :=
  if ch ≠ keep r c then fZero
  else if ch = 1 then fmul P.nan v fHalf
  else v

/-- What `REMOSAIC` writes to element `e` (44_bayer_remosaicer.md R161). -/
def remosaicElem (P : Params) (s : State) (e : Nat) : Word :=
  bayerSample P (rowOf s.imgW.toNat e) (colOf s.imgW.toNat e) (chanOf e) (s.floatElem P s.cur e)

/-- `Body(REMOSAIC)` (44_bayer_remosaicer.md R161). -/
def remosaicBody (P : Params) (s : State) : State :=
  finishFloatStage s.cur.other (s.storeFloats s.cur.other (remosaicElem P s))

/-- `REMOSAIC` (44_bayer_remosaicer.md R161) in its frame. -/
def execRemosaic (s : State) : Host.Outcome State Fault Refusal :=
  .next (runCommand ipa .remosaic (remosaicBody ipa) s)

end Sys2Proof.Machine
end

