-- ==== Sys2Proof/Machine/Scaler.lean ====
section
/-! DEFINITION. The scaler unit (40_scaler.md): `SCALE` and `DESCALE`. -/

namespace Sys2Proof.Machine

/-- What `SCALE` writes to element `e` (40_scaler.md R121, R122). -/
def scaleElem (P : Params) (s : State) (e : Nat) : Word :=
  fdiv P.nan (u2f (s.u8inElem P e).toNat) f255

/-- `Body(SCALE)` (40_scaler.md R121). -/
def scaleBody (P : Params) (s : State) : State :=
  finishFloatStage s.cur.other (s.storeFloats s.cur.other (scaleElem P s))

/-- What `DESCALE` writes to element `e` (40_scaler.md R123). -/
def descaleElem (P : Params) (s : State) (e : Nat) : Byte :=
  BitVec.ofNat 8 (q255 P.nan (s.floatElem P s.cur e))

/-- `Body(DESCALE)` (40_scaler.md R123). -/
def descaleBody (P : Params) (s : State) : State :=
  finishByteStage (raiseDomw (anyOutOfRange P s s.cur) (s.storeBytes (descaleElem P s)))

/-- `SCALE` (40_scaler.md R121) in its frame. -/
def execScale (s : State) : Host.Outcome State Fault Refusal :=
  .next (runCommand ipa .scale (scaleBody ipa) s)

/-- `DESCALE` (40_scaler.md R123) in its frame. -/
def execDescale (s : State) : Host.Outcome State Fault Refusal :=
  .next (runCommand ipa .descale (descaleBody ipa) s)

end Sys2Proof.Machine
end

