-- ==== Sys2Proof/Machine/ToneMapper.lean ====
section
/-! DEFINITION. The tone_mapper_lut unit (41_tone_mapper_lut.md): `TONE`. -/

namespace Sys2Proof.Machine

/-- What `TONE` writes to element `e`: the table element, bit for bit (41_tone_mapper_lut.md R131). -/
def toneElem (P : Params) (s : State) (e : Nat) : Word :=
  s.tableElem P .tone (q255 P.nan (s.floatElem P s.cur e)) (chanOf e)

/-- `Body(TONE)` (41_tone_mapper_lut.md R131). -/
def toneBody (P : Params) (s : State) : State :=
  finishFloatStage s.cur.other
    (raiseDomw (anyOutOfRange P s s.cur) (s.storeFloats s.cur.other (toneElem P s)))

/-- `TONE` (41_tone_mapper_lut.md R131) in its frame. -/
def execTone (s : State) : Host.Outcome State Fault Refusal :=
  .next (runCommand ipa .tone (toneBody ipa) s)

end Sys2Proof.Machine
end

