-- ==== Sys2Proof/Machine/Control.lean ====
section
/-! DEFINITION. The control commands (46_control.md): `NOP`, `PIPE`, `PIPE.U`, `PIPE.S`, `SRST`. -/

namespace Sys2Proof.Machine

/-- `Body(NOP)` (46_control.md R185). -/
def nopBody (s : State) : State := setDone s

/-- The stages before the optional noise stage, in the order of 46_control.md R186. -/
def frontStages (P : Params) (s : State) : State :=
  cmatBody P (gamutBody P (toneBody P (scaleBody P s)))

/-- The stages after the optional noise stage, in the order of 46_control.md R186. -/
def backStages (P : Params) (s : State) : State := descaleBody P (remosaicBody P s)

/-- `Body(PIPE)` (46_control.md R186). -/
def pipeBody (P : Params) (s : State) : State := backStages P (frontStages P s)

/-- `Body(PIPE.U)` (46_control.md R187). -/
def pipeUBody (P : Params) (s : State) : State := backStages P (noiseUBody P (frontStages P s))

/-- `Body(PIPE.S)` (46_control.md R188). -/
def pipeSBody (P : Params) (s : State) : State := backStages P (noiseSBody P (frontStages P s))

/-- `NOP` (46_control.md R185) in its frame. -/
def execNop (s : State) : Host.Outcome State Fault Refusal :=
  .next (runCommand ipa .nop nopBody s)

/-- `PIPE` (46_control.md R186) in its frame. -/
def execPipe (s : State) : Host.Outcome State Fault Refusal :=
  .next (runCommand ipa .pipe (pipeBody ipa) s)

/-- `PIPE.U` (46_control.md R187) in its frame. -/
def execPipeU (s : State) : Host.Outcome State Fault Refusal :=
  .next (runCommand ipa .pipeU (pipeUBody ipa) s)

/-- `PIPE.S` (46_control.md R188) in its frame. -/
def execPipeS (s : State) : Host.Outcome State Fault Refusal :=
  .next (runCommand ipa .pipeS (pipeSBody ipa) s)

/-- `SRST` (46_control.md R189): taken in the error state and outside it alike, with no entry check; the
one command that does not leave `DONE = 1`. -/
def execSrst (s : State) : Host.Outcome State Fault Refusal := .next (softReset s)

end Sys2Proof.Machine
end

