-- ==== Sys2Proof/Machine/Dispatch.lean ====
section
/-! DEFINITION. The meaning of each command: one arm per constructor of Instr. -/

namespace Sys2Proof.Machine

-- What a write of the command's word to `CMD` does (46_control.md R191).
def exec (i : Instr) (s : State) : Host.Outcome State Fault Refusal :=
  match i with
  | .nop => Sys2Proof.Machine.execNop s
  | .scale => Sys2Proof.Machine.execScale s
  | .tone => Sys2Proof.Machine.execTone s
  | .gamut => Sys2Proof.Machine.execGamut s
  | .cmat => Sys2Proof.Machine.execCmat s
  | .noiseU => Sys2Proof.Machine.execNoiseU s
  | .noiseS => Sys2Proof.Machine.execNoiseS s
  | .remosaic => Sys2Proof.Machine.execRemosaic s
  | .descale => Sys2Proof.Machine.execDescale s
  | .pipe => Sys2Proof.Machine.execPipe s
  | .pipeU => Sys2Proof.Machine.execPipeU s
  | .pipeS => Sys2Proof.Machine.execPipeS s
  | .srst => Sys2Proof.Machine.execSrst s

end Sys2Proof.Machine
end

