-- ==== Sys2Proof/Machine/HostPort.lean ====
section
/-! DEFINITION. The host port: what `HostRead`, `HostWrite` (20_memory.md R72 to R76) and `Reset()`
(70_reset_and_hazards.md R230) do, and the one place a host operation is placed in front. -/

namespace Sys2Proof.Machine

/-- The state after a host operation is answered with `r`. -/
def answer (r : Resp) (s : State) : State := { s with resp := some r }

/-- `HostRead(addr, 4)` (20_memory.md R72). A read changes nothing but the answer. -/
def hostRead32 (P : Params) (addr : Word) (s : State) : State :=
  match accessRegion P addr 4 with
  | none => answer .busError s
  | some .csr =>
    match Reg.ofOffset (addr.toNat % 2 ^ 28) with
    | none => answer .busError s
    | some r => answer (.data32 (s.readReg r)) s
  | some _ => answer (.data32 (s.wordAt P addr.toNat)) s

/-- `HostRead(addr, 1)` (20_memory.md R72). -/
def hostRead8 (P : Params) (addr : Word) (s : State) : State :=
  match accessRegion P addr 1 with
  | none => answer .busError s
  | some _ => answer (.data8 (s.byteAt P addr.toNat)) s

/-- `HostWrite(addr, 1, v)` (20_memory.md R74): the element, then the `VALID` bit of 10_state.md R38. -/
def hostWrite8 (P : Params) (addr : Word) (v : Byte) (s : State) : State :=
  match accessRegion P addr 1 with
  | none => answer .busError s
  | some r =>
    answer .ok { s.setByte addr.toNat v with valid := s.valid.afterRegionWrite s.cur r }

/-- `HostWrite(addr, 4, v)` (20_memory.md R74) where it is not an accepted write to `CMD`. -/
def hostWrite32 (P : Params) (addr : Word) (v : Word) (s : State) : State :=
  match accessRegion P addr 4 with
  | none => answer .busError s
  | some .csr =>
    match Reg.ofOffset (addr.toNat % 2 ^ 28) with
    | none => answer .busError s
    | some r => answer .ok (writeReg r v s)
  | some r =>
    answer .ok { s.setWord addr.toNat v with valid := s.valid.afterRegionWrite s.cur r }

/-- The address of `CMD` (10_state.md R24). -/
def cmdAddr : Word := 0x00000004

/-- `Exec(w)` of 46_control.md R191 on any word: a command is executed; an illegal word faults with
`ERR_ILLCMD` outside the error state and is ignored inside it (60_exceptions.md R208, R209). -/
def runWord (w : Word) (s : State) : Host.Outcome State Fault Refusal :=
  match decode w with
  | .command i => exec i s
  | .illegal _ => if s.err then .next s else .next (takeFault .illCmd w s)

/-- One host operation (00_scope.md R8). A 4-byte write to `CMD` is answered `OK` whether or not the
command faults (20_memory.md R74); `Reset()` is answered `OK` (log entry 2). -/
def hostStep (op : HostOp) (s : State) : Host.Outcome State Fault Refusal :=
  match op with
  | .read8 a => .next (hostRead8 ipa a s)
  | .read32 a => .next (hostRead32 ipa a s)
  | .write8 a v => .next (hostWrite8 ipa a v s)
  | .write32 a v => if a = cmdAddr then runWord v (answer .ok s) else .next (hostWrite32 ipa a v s)
  | .reset => .next (answer .ok (hardReset s))

/-- The next host operation is taken from the list (log entry 1). -/
def dropOp (s : State) : State := { s with host := s.host.tail }

end Sys2Proof.Machine
end

