-- ==== Sys2Proof/Machine/Step.lean ====
section
/-! DEFINITION. One step of the machine, and the placing of a command in front of it. -/

namespace Sys2Proof.Machine

/-- One step is one host operation, the first of the list `host` (00_scope.md R8). With no operation to
come the engine is idle and nothing changes (70_reset_and_hazards.md R230, log entry 1). -/
def step (s : State) : Host.Outcome State Fault Refusal :=
  match s.host with
  | [] => .next s
  | op :: _ => hostStep op (dropOp s)

/-- The state in which the very next step runs the command word `w`: the host's next operation is the
write of it to `CMD` (10_state.md R24, log entry 3). The IPA fetches nothing (R21), so nothing else
changes. -/
def State.withFetchWord (s : State) (nbits w : Nat) : State :=
  { s with host := .write32 cmdAddr (BitVec.ofNat 32 (w % 2 ^ nbits)) :: s.host }

end Sys2Proof.Machine
end

