-- ==== Sys2Proof/Safety.lean ====
section
/-! DEFINITION. What holds of every state a run of the machine can reach: the invariant the statements
use, in the terms of the spec. -/

namespace Sys2Proof.Machine

/-- A byte address that one of the nine memory regions maps (20_memory.md R70). -/
def mappedByte (P : Params) (a : Nat) : Bool :=
  match Region.ofNumber (a / 2 ^ 28) with
  | none => false
  | some .csr => false
  | some r => decide (a % 2 ^ 28 < r.extent P)

/-- Which commands can raise which fault (60_exceptions.md R201, column "Raised by"). -/
def canRaise : ErrCode → Decoded → Bool
  | .illCmd, .illegal _ => true
  | .illCmd, .command _ => false
  | _, .illegal _ => false
  | .shape, .command i => i != .nop && i != .srst
  | .seq, .command i => i != .nop && i != .srst
  | .calib, .command i => i == .tone || i == .gamut || i == .cmat || isPipe i
  | .singular, .command i => i == .cmat || isPipe i
  | .noise, .command i => i == .noiseU || i == .noiseS || i == .pipeU || i == .pipeS

/-- The error registers tell one story (10_state.md R26, R27, R30): outside the error state both are 0;
inside it `DONE` is 0 and `ERRINFO` holds the code of a fault that the command word in `ERRCMD` can
raise (60_exceptions.md R201, R206). -/
def errorRecordOk (s : State) : Prop :=
  (s.err = false → s.errInfo = 0 ∧ s.errCmd = 0) ∧
  (s.err = true → s.done = false ∧
    ∃ f : ErrCode, s.errInfo = f.code ∧ canRaise f (decode s.errCmd) = true)

/-- The invariant of the machine: memory is in its canonical form, only mapped bytes of the nine
regions are ever listed (20_memory.md R76, R79), and the error registers are consistent. -/
structure State.Inv (P : Params) (s : State) : Prop where
  memWf     : s.mem.wf = true
  memMapped : ∀ a b, memGet s.mem a = some b → mappedByte P a = true
  errorOk   : errorRecordOk s

/-- `F[b][r][c][ch]` of 10_state.md R57, R58: the sample of a float buffer by its logical indices. -/
def State.sample (P : Params) (s : State) (b : Buf) (r c ch : Nat) : Word :=
  s.floatElem P b (elemIndex s.imgW.toNat r c ch)

/-- `(r, c, ch)` names a sample of the image (10_state.md R58). -/
def InImage (s : State) (r c ch : Nat) : Prop := r < s.imgH.toNat ∧ c < s.imgW.toNat ∧ ch < 3

/-- The shape check of 60_exceptions.md R202 passes. -/
def ShapeOk (s : State) : Prop := s.imgC = 3 ∧ s.imgH.toNat * s.imgW.toNat ≤ Config.pixMax

/-- `GAMUT`'s tables are declared and their counts agree (60_exceptions.md R203). -/
def GamutTablesOk (s : State) : Prop :=
  s.valid.cpV = true ∧ s.valid.wtV = true ∧ s.nCp = s.nW ∧ s.nCp.toNat ≤ Config.nMax

/-- Every entry of `CMAT` is finite (60_exceptions.md R210). -/
def MatrixFinite (s : State) : Prop :=
  ∀ j i, j < 3 → i < 3 → isFinite (s.tableElem ipa .cmat j i) = true

/-- `NOISE_VAR` passes its check (60_exceptions.md R211). -/
def VarianceOk (s : State) : Prop := isFinite s.noiseVar = true ∧ fge s.noiseVar fZero = true

/-- Every `(a, b)` pair passes its check (60_exceptions.md R211). -/
def PairsOk (s : State) : Prop :=
  ∀ c, c < 3 → isFinite (s.noiseA c) = true ∧ isFinite (s.noiseB c) = true ∧
    fge (s.noiseB c) fZero = true ∧
    fge (fadd ipa.nan (fmul ipa.nan (s.noiseA c) f255) (s.noiseB c)) fZero = true

/-- A `PIPE` command's tables are all declared, with agreeing counts (60_exceptions.md R203). -/
def PipeTablesOk (s : State) : Prop :=
  s.valid.toneV = true ∧ GamutTablesOk s ∧ s.valid.cmatV = true

/-- Every check of `PIPE` passes (60_exceptions.md R205). -/
def PipeReady (s : State) : Prop :=
  ShapeOk s ∧ s.valid.inV = true ∧ PipeTablesOk s ∧ MatrixFinite s

/-- Every byte outside the `len` bytes from `lo` up reads in `t` as it does in `s`. -/
def SameOutside (s t : State) (lo len : Nat) : Prop :=
  ∀ a, ¬(lo ≤ a ∧ a < lo + len) → t.byteAt ipa a = s.byteAt ipa a

/-- Some sample of the current image is out of range (10_state.md R29). -/
def SomeOutOfRange (s : State) : Prop :=
  ∃ r c ch, InImage s r c ch ∧ outOfRange (s.sample ipa s.cur r c ch) = true

/-- The state after a fault of the command `i` with the given code (60_exceptions.md R206). -/
def faultState (code : BitVec 4) (i : Instr) (s : State) : State :=
  { s with err := true, done := false, errInfo := code, errCmd := encode i }

end Sys2Proof.Machine
end

