-- ==== Sys2Proof/Certificates/Slice0/Obligations.lean ====
section
/-! DEFINITION. The statements for the provers, from the numbered rules of spec/. -/

open Sys2Proof Sys2Proof.Machine

/-! ### Helpers of the statements: the tables of the spec as literals -/

/-- How many bytes of region `k` are mapped, the column "Mapped offsets" of 20_memory.md R70. -/
def Sys2Proof.Claim.mappedBytes : Nat → Nat
  | 0 => 0x50
  | 1 => 3072
  | 2 => 12 * Config.nMax
  | 3 => 12 * Config.nMax
  | 4 => 48
  | 5 => 36
  | 6 => 3 * Config.pixMax
  | 7 => 3 * Config.pixMax
  | 8 => 12 * Config.pixMax
  | 9 => 12 * Config.pixMax
  | _ => 0

/-- The four cases of 20_memory.md R76 for an access of `n` bytes. -/
def Sys2Proof.Claim.refused (addr : Word) (n : Nat) : Prop :=
  10 ≤ addr.toNat / 2 ^ 28
  ∨ Claim.mappedBytes (addr.toNat / 2 ^ 28) ≤ addr.toNat % 2 ^ 28
  ∨ n ≠ (if addr.toNat / 2 ^ 28 = 6 ∨ addr.toNat / 2 ^ 28 = 7 then 1 else 4)
  ∨ (n = 4 ∧ addr.toNat % 4 ≠ 0)

/-- The generator state after `e` draws, by iterating `GAUSS` (45_noise_adder_prng.md R172). -/
def Sys2Proof.Claim.rngState (g : Word) (e : Nat) : Word := (fun x => (ipa.gauss x).2)^[e] g

/-- The deviate of the `(e+1)`-th draw (45_noise_adder_prng.md R171, R172). -/
def Sys2Proof.Claim.deviate (g : Word) (e : Nat) : Word := toFinite (ipa.gauss (Claim.rngState g e)).1

/-- `dist[k]` of 42_gamut_rbf_eval.md R141 for the pixel `x`. -/
def Sys2Proof.Claim.dist (s : State) (x : Nat → Word) (k : Nat) : Word :=
  let e0 := fsub ipa.nan (x 0) (s.tableElem ipa .gcp k 0)
  let e1 := fsub ipa.nan (x 1) (s.tableElem ipa .gcp k 1)
  let e2 := fsub ipa.nan (x 2) (s.tableElem ipa .gcp k 2)
  fsqrt ipa.nan
    (fadd ipa.nan (fadd ipa.nan (fmul ipa.nan e0 e0) (fmul ipa.nan e1 e1)) (fmul ipa.nan e2 e2))

/-- The affine terms of 42_gamut_rbf_eval.md R141 added to `acc`, for the pixel `x` and channel `j`. -/
def Sys2Proof.Claim.affine (s : State) (x : Nat → Word) (j : Nat) (acc : Word) : Word :=
  let y0 := fadd ipa.nan acc (s.tableElem ipa .gcoef 0 j)
  let y1 := fadd ipa.nan y0 (fmul ipa.nan (s.tableElem ipa .gcoef 1 j) (x 0))
  let y2 := fadd ipa.nan y1 (fmul ipa.nan (s.tableElem ipa .gcoef 2 j) (x 1))
  fadd ipa.nan y2 (fmul ipa.nan (s.tableElem ipa .gcoef 3 j) (x 2))

/-- The whole formula of 42_gamut_rbf_eval.md R141. -/
def Sys2Proof.Claim.gamut (s : State) (x : Nat → Word) (j : Nat) : Word :=
  Claim.affine s x j
    ((List.range s.nCp.toNat).foldl
      (fun acc k => fadd ipa.nan acc (fmul ipa.nan (Claim.dist s x k) (s.tableElem ipa .gwt k j))) fZero)

/-- The level formula of 45_noise_adder_prng.md R174 for one sample. -/
def Sys2Proof.Claim.signalNoise (a b v z : Word) : Word :=
  let sig := u2f (q255 ipa.nan v)
  let sd := fsqrt ipa.nan (fadd ipa.nan (fmul ipa.nan a sig) b)
  fdiv ipa.nan (fadd ipa.nan sig (fmul ipa.nan sd z)) f255

/-! ### Encoding -/

/-- 30_encoding.md R105: the thirteen words, one each, and every other word is illegal. -/
def Obligations.CommandWordsAreExactlyTheTable : Prop :=
  (∀ i : Instr, i.wellFormed = true → decode (encode i) = .command i) ∧
  ∀ (w : Word) (i : Instr), decode w = .command i ↔
    (i, w) ∈ [(Instr.nop, 0x00000000#32), (.scale, 0x00000001#32), (.tone, 0x00000002#32),
      (.gamut, 0x00000003#32), (.cmat, 0x00000004#32), (.noiseU, 0x00000015#32),
      (.noiseS, 0x00000025#32), (.remosaic, 0x00000006#32), (.descale, 0x00000007#32),
      (.pipe, 0x00000008#32), (.pipeU, 0x00000018#32), (.pipeS, 0x00000028#32),
      (.srst, 0x0000000F#32)]

/-- Words written out from 30_encoding.md R105 and the illegal ones of R106. -/
def Obligations.WrittenOutWordsDecode : Prop :=
  decode 0b00000000000000000000000000000001#32 = .command .scale ∧
  decode 0b00000000000000000000000000000010#32 = .command .tone ∧
  decode 0b00000000000000000000000000000011#32 = .command .gamut ∧
  decode 0b00000000000000000000000000000100#32 = .command .cmat ∧
  decode 0b00000000000000000000000000010101#32 = .command .noiseU ∧
  decode 0b00000000000000000000000000100101#32 = .command .noiseS ∧
  decode 0b00000000000000000000000000000110#32 = .command .remosaic ∧
  decode 0b00000000000000000000000000101000#32 = .command .pipeS ∧
  decode 0b00000000000000000000000000001111#32 = .command .srst ∧
  decode 0x00000005#32 = .illegal .variantNotAllowed ∧
  decode 0x00000035#32 = .illegal .variantNotAllowed ∧
  decode 0x00000011#32 = .illegal .variantNotAllowed ∧
  decode 0x00000009#32 = .illegal .unassignedOp ∧
  decode 0x00000046#32 = .illegal .reservedBits ∧
  decode 0x80000000#32 = .illegal .reservedBits ∧
  decode 0xFFFFFFFF#32 = .illegal .reservedBits

/-! ### The step and the frame of a command -/

/-- 10_state.md R24, 46_control.md R191: when the host's next operation writes the word of a command to
`CMD`, the step is that command's meaning, on the state with the operation taken and answered `OK`. -/
def Obligations.StepRunsTheDecodedCommand : Prop :=
  ∀ (s : State) (w : Word) (rest : List HostOp) (i : Instr),
    s.host = .write32 0x00000004 w :: rest → decode w = .command i →
    step s = exec i { s with host := rest, resp := some .ok }

/-- 60_exceptions.md R209: an illegal word faults with code 1 outside the error state and does nothing
inside it. -/
def Obligations.IllegalWordFaultsOutsideTheErrorState : Prop :=
  ∀ (s : State) (w : Word) (rest : List HostOp) (why : IllegalReason),
    s.host = .write32 0x00000004 w :: rest → decode w = .illegal why →
    (s.err = false → step s = .next { s with
        host := rest, resp := some .ok, err := true, done := false,
        errInfo := 1, errCmd := w }) ∧
    (s.err = true → step s = .next { s with host := rest, resp := some .ok })

/-- 60_exceptions.md R208 (b): in the error state no command but `SRST` changes anything. -/
def Obligations.ErrorStateIgnoresEveryOtherCommand : Prop :=
  ∀ (i : Instr) (s : State), i ≠ .srst → s.err = true → exec i s = .next s

/-- 60_exceptions.md R206, R201: a fault writes `ERR`, `DONE`, `ERRINFO` and `ERRCMD` and nothing else,
the write to `CMD` is answered `OK`, and the engine then takes no command but `SRST`. -/
def Obligations.FaultWritesFourFieldsOnly : Prop :=
  ∀ (s : State) (w : Word) (rest : List HostOp) (f : ErrCode),
    s.host = .write32 0x00000004 w :: rest → s.err = false →
    ((f = .illCmd ∧ ∃ why, decode w = .illegal why) ∨
      ∃ i, decode w = .command i ∧ entryCheck ipa i s = some f) →
    ∃ t, step s = .next t ∧
      t = { s with
        host := rest
        resp := some .ok
        err := true
        done := false
        errInfo := match f with
          | .illCmd => 1 | .shape => 2 | .seq => 3 | .calib => 4 | .singular => 5 | .noise => 6
        errCmd := w } ∧
      ∀ i : Instr, i ≠ .srst → exec i t = .next t

/-- 60_exceptions.md R202: exactly when a stage command or `PIPE*` faults with `ERR_SHAPE`. -/
def Obligations.ShapeFaultExactly : Prop :=
  ∀ (i : Instr) (s : State), i ≠ .nop → i ≠ .srst → s.err = false →
    (exec i s = .next (faultState 2 i s) ↔
      (s.imgC ≠ 3 ∨ Config.pixMax < s.imgH.toNat * s.imgW.toNat))

/-- 60_exceptions.md R204, R205: exactly when a command faults with `ERR_SEQ`. -/
def Obligations.SequenceFaultExactly : Prop :=
  ∀ (i : Instr) (s : State), i ≠ .nop → i ≠ .srst → s.err = false →
    (exec i s = .next (faultState 3 i s) ↔
      ShapeOk s ∧
      (if i ∈ [Instr.scale, .pipe, .pipeU, .pipeS] then s.valid.inV = false else s.valid.fV = false))

/-- 60_exceptions.md R203, R205: exactly when a command faults with `ERR_CALIB`, the earlier checks
having passed. -/
def Obligations.CalibrationFaultExactly : Prop :=
  ∀ (i : Instr) (s : State), i ≠ .nop → i ≠ .srst → s.err = false → ShapeOk s →
    (if i ∈ [Instr.scale, .pipe, .pipeU, .pipeS] then s.valid.inV = true else s.valid.fV = true) →
    (exec i s = .next (faultState 4 i s) ↔
      (i ∈ [Instr.tone, .pipe, .pipeU, .pipeS] ∧ s.valid.toneV = false) ∨
      (i ∈ [Instr.gamut, .pipe, .pipeU, .pipeS] ∧
        (s.valid.cpV = false ∨ s.valid.wtV = false ∨ s.nCp ≠ s.nW ∨ Config.nMax < s.nCp.toNat)) ∨
      (i ∈ [Instr.cmat, .pipe, .pipeU, .pipeS] ∧ s.valid.cmatV = false))

/-- 60_exceptions.md R210, R205: `CMAT` and `PIPE*` fault with `ERR_SINGULAR` exactly when, the earlier
checks having passed, an entry of `CMAT` has exponent field 0xFF. -/
def Obligations.SingularFaultExactly : Prop :=
  ∀ (i : Instr) (s : State), s.err = false → ShapeOk s →
    ((i = .cmat ∧ s.valid.fV = true ∧ s.valid.cmatV = true) ∨
      (i ∈ [Instr.pipe, .pipeU, .pipeS] ∧ s.valid.inV = true ∧ PipeTablesOk s)) →
    (exec i s = .next (faultState 5 i s) ↔
      ∃ j k, j < 3 ∧ k < 3 ∧ (s.tableElem ipa .cmat j k).extractLsb' 23 8 = 0xFF)

/-- 60_exceptions.md R211, R205: the noise commands fault with `ERR_NOISE` exactly when, the earlier
checks having passed, a noise parameter is not finite or makes a variance negative. -/
def Obligations.NoiseFaultExactly : Prop :=
  ∀ (i : Instr) (s : State), s.err = false → ShapeOk s →
    ((i ∈ [Instr.noiseU, .noiseS] ∧ s.valid.fV = true) ∨ (i ∈ [Instr.pipeU, .pipeS] ∧ PipeReady s)) →
    (exec i s = .next (faultState 6 i s) ↔
      (i ∈ [Instr.noiseU, .pipeU] ∧ (isFinite s.noiseVar = false ∨ fge s.noiseVar fZero = false)) ∨
      (i ∈ [Instr.noiseS, .pipeS] ∧ ∃ c, c < 3 ∧
        (isFinite (s.noiseA c) = false ∨ isFinite (s.noiseB c) = false ∨ fge (s.noiseB c) fZero = false ∨
          fge (fadd ipa.nan (fmul ipa.nan (s.noiseA c) f255) (s.noiseB c)) fZero = false)))

/-! ### What each command does: result, frame, completion -/

/-- 46_control.md R185. In a state whose error registers are consistent, as every reached state's are,
`NOP` tests that the engine takes commands. -/
def Obligations.NopSetsDoneOnly : Prop :=
  decode 0x00000000 = .command .nop ∧
  ∀ s : State, (s.err = false → exec .nop s = .next { s with done := true }) ∧
    (s.err = true → exec .nop s = .next s) ∧
    (s.Inv ipa → ∃ t, exec .nop s = .next t ∧ (t.done = true ↔ t.err = false))

/-- 46_control.md R189: `SRST` in every state; and no other word with its `OP` is a command. -/
def Obligations.SrstClearsEveryRegister : Prop :=
  (∀ s : State, exec .srst s = .next { s with
    done := false, err := false, domw := false, errInfo := 0, errCmd := 0, imgH := 0, imgW := 0, imgC := 0,
    nCp := 0, nW := 0, valid := ⟨false, false, false, false, false, false, false⟩, cur := .f0,
    noiseVar := 0, noiseA0 := 0, noiseB0 := 0, noiseA1 := 0, noiseB1 := 0, noiseA2 := 0, noiseB2 := 0,
    rngState := 0 }) ∧
  decode 0x0000000F = .command .srst ∧
  ∀ w : Word, w.extractLsb' 0 4 = 0xF → w ≠ 0x0000000F → ∃ why, decode w = .illegal why

/-- 40_scaler.md R121. -/
def Obligations.ScaleWritesEveryQuotient : Prop :=
  decode 0x00000001 = .command .scale ∧
  ∀ s : State, s.err = false →
    (¬ShapeOk s → exec .scale s = .next (faultState 2 .scale s)) ∧
    (ShapeOk s → s.valid.inV = false → exec .scale s = .next (faultState 3 .scale s)) ∧
    (ShapeOk s → s.valid.inV = true → ∃ t, exec .scale s = .next t ∧
      t = { s with mem := t.mem, cur := s.cur.other, valid := { s.valid with fV := true }, done := true } ∧
      (∀ r c ch, InImage s r c ch → t.sample ipa t.cur r c ch =
        fdiv ipa.nan (u2f (s.u8inElem ipa (elemIndex s.imgW.toNat r c ch)).toNat) f255) ∧
      SameOutside s t s.cur.other.base (12 * (s.imgH.toNat * s.imgW.toNat)))

/-- 40_scaler.md R123. -/
def Obligations.DescaleWritesEveryLevel : Prop :=
  decode 0x00000007 = .command .descale ∧
  ∀ s : State, s.err = false →
    (¬ShapeOk s → exec .descale s = .next (faultState 2 .descale s)) ∧
    (ShapeOk s → s.valid.fV = false → exec .descale s = .next (faultState 3 .descale s)) ∧
    (ShapeOk s → s.valid.fV = true → ∃ t, exec .descale s = .next t ∧
      t = { s with mem := t.mem, valid := { s.valid with outV := true }, done := true, domw := t.domw } ∧
      (t.domw = true ↔ s.domw = true ∨ SomeOutOfRange s) ∧
      (∀ r c ch, InImage s r c ch → (t.u8outElem ipa (elemIndex s.imgW.toNat r c ch)).toNat =
        q255 ipa.nan (s.sample ipa s.cur r c ch)) ∧
      SameOutside s t Region.u8out.base (3 * (s.imgH.toNat * s.imgW.toNat)))

/-- 41_tone_mapper_lut.md R131. -/
def Obligations.ToneCopiesTableElements : Prop :=
  decode 0x00000002 = .command .tone ∧
  ∀ s : State, s.err = false →
    (¬ShapeOk s → exec .tone s = .next (faultState 2 .tone s)) ∧
    (ShapeOk s → s.valid.fV = false → exec .tone s = .next (faultState 3 .tone s)) ∧
    (ShapeOk s → s.valid.fV = true → s.valid.toneV = false →
      exec .tone s = .next (faultState 4 .tone s)) ∧
    (ShapeOk s → s.valid.fV = true → s.valid.toneV = true → ∃ t, exec .tone s = .next t ∧
      t = { s with
          mem := t.mem, cur := s.cur.other, valid := { s.valid with fV := true }, done := true,
          domw := t.domw } ∧
      (t.domw = true ↔ s.domw = true ∨ SomeOutOfRange s) ∧
      (∀ r c ch, InImage s r c ch → t.sample ipa t.cur r c ch =
        s.tableElem ipa .tone (q255 ipa.nan (s.sample ipa s.cur r c ch)) ch) ∧
      SameOutside s t s.cur.other.base (12 * (s.imgH.toNat * s.imgW.toNat)))

/-- 42_gamut_rbf_eval.md R141, the reference instance of R142 (log entry 9). -/
def Obligations.GamutEvaluatesTheRadialSum : Prop :=
  decode 0x00000003 = .command .gamut ∧
  ∀ s : State, s.err = false →
    (¬ShapeOk s → exec .gamut s = .next (faultState 2 .gamut s)) ∧
    (ShapeOk s → s.valid.fV = false → exec .gamut s = .next (faultState 3 .gamut s)) ∧
    (ShapeOk s → s.valid.fV = true → ¬GamutTablesOk s →
      exec .gamut s = .next (faultState 4 .gamut s)) ∧
    (ShapeOk s → s.valid.fV = true → GamutTablesOk s → ∃ t, exec .gamut s = .next t ∧
      t = { s with mem := t.mem, cur := s.cur.other, valid := { s.valid with fV := true }, done := true } ∧
      (∀ r c j, InImage s r c j →
        t.sample ipa t.cur r c j = Claim.gamut s (s.sample ipa s.cur r c) j) ∧
      SameOutside s t s.cur.other.base (12 * (s.imgH.toNat * s.imgW.toNat)))

/-- 43_color_matrix_mult.md R151. -/
def Obligations.CmatMultipliesAndFloors : Prop :=
  decode 0x00000004 = .command .cmat ∧
  ∀ s : State, s.err = false →
    (¬ShapeOk s → exec .cmat s = .next (faultState 2 .cmat s)) ∧
    (ShapeOk s → s.valid.fV = false → exec .cmat s = .next (faultState 3 .cmat s)) ∧
    (ShapeOk s → s.valid.fV = true → s.valid.cmatV = false →
      exec .cmat s = .next (faultState 4 .cmat s)) ∧
    (ShapeOk s → s.valid.fV = true → s.valid.cmatV = true → ¬MatrixFinite s →
      exec .cmat s = .next (faultState 5 .cmat s)) ∧
    (ShapeOk s → s.valid.fV = true → s.valid.cmatV = true → MatrixFinite s → ∃ t, exec .cmat s = .next t ∧
      t = { s with mem := t.mem, cur := s.cur.other, valid := { s.valid with fV := true }, done := true } ∧
      (∀ r c j, InImage s r c j →
        let p i := fmul ipa.nan (s.sample ipa s.cur r c i) (s.tableElem ipa .cmat j i)
        let sum := fadd ipa.nan (fadd ipa.nan (p 0) (p 1)) (p 2)
        t.sample ipa t.cur r c j = if fgt sum fZero = true then sum else 0x00000000#32) ∧
      SameOutside s t s.cur.other.base (12 * (s.imgH.toNat * s.imgW.toNat)))

/-- 44_bayer_remosaicer.md R160, R161. -/
def Obligations.RemosaicImposesTheBayerPattern : Prop :=
  decode 0x00000006 = .command .remosaic ∧
  ∀ s : State, s.err = false →
    (¬ShapeOk s → exec .remosaic s = .next (faultState 2 .remosaic s)) ∧
    (ShapeOk s → s.valid.fV = false → exec .remosaic s = .next (faultState 3 .remosaic s)) ∧
    (ShapeOk s → s.valid.fV = true → ∃ t, exec .remosaic s = .next t ∧
      t = { s with mem := t.mem, cur := s.cur.other, valid := { s.valid with fV := true }, done := true } ∧
      (∀ r c, r < s.imgH.toNat → c < s.imgW.toNat →
        let v := s.sample ipa s.cur r c
        let out := t.sample ipa t.cur r c
        (r % 2 = c % 2 → out 0 = 0#32 ∧ out 1 = fmul ipa.nan (v 1) 0x3F000000#32 ∧ out 2 = 0#32) ∧
        (r % 2 = 0 ∧ c % 2 = 1 → out 0 = v 0 ∧ out 1 = 0#32 ∧ out 2 = 0#32) ∧
        (r % 2 = 1 ∧ c % 2 = 0 → out 0 = 0#32 ∧ out 1 = 0#32 ∧ out 2 = v 2)) ∧
      SameOutside s t s.cur.other.base (12 * (s.imgH.toNat * s.imgW.toNat)))

/-- 45_noise_adder_prng.md R173, with the draws of R172. -/
def Obligations.NoiseUAddsOneDrawPerSample : Prop :=
  decode 0x00000015 = .command .noiseU ∧
  ∀ s : State, s.err = false →
    (¬ShapeOk s → exec .noiseU s = .next (faultState 2 .noiseU s)) ∧
    (ShapeOk s → s.valid.fV = false → exec .noiseU s = .next (faultState 3 .noiseU s)) ∧
    (ShapeOk s → s.valid.fV = true → ¬VarianceOk s → exec .noiseU s = .next (faultState 6 .noiseU s)) ∧
    (ShapeOk s → s.valid.fV = true → VarianceOk s → ∃ t, exec .noiseU s = .next t ∧
      t = { s with
          mem := t.mem, cur := s.cur.other, valid := { s.valid with fV := true }, done := true,
          rngState := Claim.rngState s.rngState (3 * (s.imgH.toNat * s.imgW.toNat)) } ∧
      (∀ r c ch, InImage s r c ch → t.sample ipa t.cur r c ch =
        fadd ipa.nan (s.sample ipa s.cur r c ch) (fmul ipa.nan (fsqrt ipa.nan s.noiseVar)
          (Claim.deviate s.rngState (elemIndex s.imgW.toNat r c ch)))) ∧
      SameOutside s t s.cur.other.base (12 * (s.imgH.toNat * s.imgW.toNat)))

/-- 45_noise_adder_prng.md R174, with the draws of R172. -/
def Obligations.NoiseSAddsSignalDependentNoise : Prop :=
  decode 0x00000025 = .command .noiseS ∧
  ∀ s : State, s.err = false →
    (¬ShapeOk s → exec .noiseS s = .next (faultState 2 .noiseS s)) ∧
    (ShapeOk s → s.valid.fV = false → exec .noiseS s = .next (faultState 3 .noiseS s)) ∧
    (ShapeOk s → s.valid.fV = true → ¬PairsOk s → exec .noiseS s = .next (faultState 6 .noiseS s)) ∧
    (ShapeOk s → s.valid.fV = true → PairsOk s → ∃ t, exec .noiseS s = .next t ∧
      t = { s with
          mem := t.mem, cur := s.cur.other, valid := { s.valid with fV := true }, done := true,
          rngState := Claim.rngState s.rngState (3 * (s.imgH.toNat * s.imgW.toNat)), domw := t.domw } ∧
      (t.domw = true ↔ s.domw = true ∨ SomeOutOfRange s) ∧
      (∀ r c ch, InImage s r c ch → t.sample ipa t.cur r c ch =
        Claim.signalNoise (s.noiseA ch) (s.noiseB ch) (s.sample ipa s.cur r c ch)
          (Claim.deviate s.rngState (elemIndex s.imgW.toNat r c ch))) ∧
      SameOutside s t s.cur.other.base (12 * (s.imgH.toNat * s.imgW.toNat)))

/-- Every byte outside the image's elements of `U8OUT`, `F0` and `F1` reads in `t` as in `s`. -/
def Sys2Proof.Claim.onlyBuffersChange (s t : State) : Prop :=
  ∀ a, ¬(Region.u8out.base ≤ a ∧ a < Region.u8out.base + 3 * (s.imgH.toNat * s.imgW.toNat)) →
    ¬(Buf.f0.base ≤ a ∧ a < Buf.f0.base + 12 * (s.imgH.toNat * s.imgW.toNat)) →
    ¬(Buf.f1.base ≤ a ∧ a < Buf.f1.base + 12 * (s.imgH.toNat * s.imgW.toNat)) →
    t.byteAt ipa a = s.byteAt ipa a

/-- 46_control.md R186: `PIPE` swaps `CUR` once in all; what it writes, what it keeps, and its entry checks. -/
def Obligations.PipeCompletesAndSwapsOnce : Prop :=
  decode 0x00000008 = .command .pipe ∧
  ∀ s : State, s.err = false →
    (¬ShapeOk s → exec .pipe s = .next (faultState 2 .pipe s)) ∧
    (ShapeOk s → s.valid.inV = false → exec .pipe s = .next (faultState 3 .pipe s)) ∧
    (ShapeOk s → s.valid.inV = true → ¬PipeTablesOk s → exec .pipe s = .next (faultState 4 .pipe s)) ∧
    (ShapeOk s → s.valid.inV = true → PipeTablesOk s → ¬MatrixFinite s →
      exec .pipe s = .next (faultState 5 .pipe s)) ∧
    (PipeReady s → ∃ t, exec .pipe s = .next t ∧
      t = { s with
          mem := t.mem, cur := s.cur.other,
          valid := { s.valid with fV := true, outV := true }, done := true, domw := t.domw } ∧
      (s.domw = true → t.domw = true) ∧ Claim.onlyBuffersChange s t)

/-- 46_control.md R187: `PIPE.U` leaves `CUR` as it was and advances `RNG_STATE` by `3*H*W` draws; what it
writes, what it keeps, and its entry checks. -/
def Obligations.PipeUCompletesAndAdvancesTheGenerator : Prop :=
  decode 0x00000018 = .command .pipeU ∧
  ∀ s : State, s.err = false →
    (¬ShapeOk s → exec .pipeU s = .next (faultState 2 .pipeU s)) ∧
    (ShapeOk s → s.valid.inV = false → exec .pipeU s = .next (faultState 3 .pipeU s)) ∧
    (ShapeOk s → s.valid.inV = true → ¬PipeTablesOk s → exec .pipeU s = .next (faultState 4 .pipeU s)) ∧
    (ShapeOk s → s.valid.inV = true → PipeTablesOk s → ¬MatrixFinite s →
      exec .pipeU s = .next (faultState 5 .pipeU s)) ∧
    (PipeReady s → ¬VarianceOk s → exec .pipeU s = .next (faultState 6 .pipeU s)) ∧
    (PipeReady s → VarianceOk s → ∃ t, exec .pipeU s = .next t ∧
      t = { s with
          mem := t.mem, valid := { s.valid with fV := true, outV := true }, done := true,
          rngState := Claim.rngState s.rngState (3 * (s.imgH.toNat * s.imgW.toNat)), domw := t.domw } ∧
      (s.domw = true → t.domw = true) ∧ Claim.onlyBuffersChange s t)

/-- 46_control.md R188: the same of `PIPE.S`; what it writes, what it keeps, and its entry checks. -/
def Obligations.PipeSCompletesAndAdvancesTheGenerator : Prop :=
  decode 0x00000028 = .command .pipeS ∧
  ∀ s : State, s.err = false →
    (¬ShapeOk s → exec .pipeS s = .next (faultState 2 .pipeS s)) ∧
    (ShapeOk s → s.valid.inV = false → exec .pipeS s = .next (faultState 3 .pipeS s)) ∧
    (ShapeOk s → s.valid.inV = true → ¬PipeTablesOk s → exec .pipeS s = .next (faultState 4 .pipeS s)) ∧
    (ShapeOk s → s.valid.inV = true → PipeTablesOk s → ¬MatrixFinite s →
      exec .pipeS s = .next (faultState 5 .pipeS s)) ∧
    (PipeReady s → ¬PairsOk s → exec .pipeS s = .next (faultState 6 .pipeS s)) ∧
    (PipeReady s → PairsOk s → ∃ t, exec .pipeS s = .next t ∧
      t = { s with
          mem := t.mem, valid := { s.valid with fV := true, outV := true }, done := true,
          rngState := Claim.rngState s.rngState (3 * (s.imgH.toNat * s.imgW.toNat)), domw := t.domw } ∧
      (s.domw = true → t.domw = true) ∧ Claim.onlyBuffersChange s t)

/-- One command after another, each of them ending without a fault: `t` is the last state. -/
def Sys2Proof.Claim.runsTo : List Instr → State → State → Prop
  | [], s, t => t = s
  | i :: is, s, t => ∃ u, exec i s = .next u ∧ u.err = false ∧ u.done = true ∧ Claim.runsTo is u t

/-- 46_control.md R190: `PIPE` is its parts, and so are `PIPE.U` and `PIPE.S`. With NaNs this rests on the
model's choice that a NaN result is a function of the operands (log entry 6). -/
def Obligations.PipeCommandsAreTheirParts : Prop :=
  ∀ s : State, s.err = false → PipeReady s →
    (∃ t, exec .pipe s = .next t ∧
      Claim.runsTo [.scale, .tone, .gamut, .cmat, .remosaic, .descale] s t) ∧
    (VarianceOk s → ∃ t, exec .pipeU s = .next t ∧
      Claim.runsTo [.scale, .tone, .gamut, .cmat, .noiseU, .remosaic, .descale] s t) ∧
    (PairsOk s → ∃ t, exec .pipeS s = .next t ∧
      Claim.runsTo [.scale, .tone, .gamut, .cmat, .noiseS, .remosaic, .descale] s t)

/-! ### The document's properties -/

/-- 40_scaler.md R125: the quantiser undoes the division at each of the 256 levels; `SCALE` then
`DESCALE` gives back every byte and sets no `DOMW`. -/
def Obligations.ScaleThenDescaleIsTheIdentity : Prop :=
  (∀ (nan : NanChoice) (x : Nat), x ≤ 255 →
    fmul nan (fdiv nan (u2f x) f255) f255 = u2f x ∧ q255 nan (fdiv nan (u2f x) f255) = x) ∧
  ∀ s : State, s.err = false → ShapeOk s → s.valid.inV = true →
    ∃ t u, exec .scale s = .next t ∧ exec .descale t = .next u ∧ u.err = false ∧ u.domw = s.domw ∧
      ∀ r c ch, InImage s r c ch →
        u.u8outElem ipa (elemIndex s.imgW.toNat r c ch) = s.u8inElem ipa (elemIndex s.imgW.toNat r c ch)

/-- 40_scaler.md R122: the values of `SCALE` (`magnitude` counts units of 2^-149). -/
def Obligations.ScaleValuesLieInTheUnitRange : Prop :=
  fdiv ipa.nan (u2f 0) f255 = 0x00000000#32 ∧ fdiv ipa.nan (u2f 255) f255 = 0x3F800000#32 ∧
  ∀ x : Byte, isFinite (fdiv ipa.nan (u2f x.toNat) f255) = true ∧
    outOfRange (fdiv ipa.nan (u2f x.toNat) f255) = false ∧
    (0 < x.toNat ∧ x.toNat < 255 → 255 * magnitude (fdiv ipa.nan (u2f x.toNat) f255) ≠ x.toNat * 2 ^ 149) ∧
    (x.toNat < 255 →
      fle (fdiv ipa.nan (u2f x.toNat) f255) (fdiv ipa.nan (u2f (x.toNat + 1)) f255) = true)

/-- 41_tone_mapper_lut.md R132: the row a sample reads is decided by the rounded product `fmul(v, 255.0)`:
row 255 from 255.0 up, row `k` in `[k, k+1)`, row 0 below 1.0 and for a NaN; it is always a table row. -/
def Obligations.TheRoundedProductDecidesTheTableRow : Prop :=
  ∀ (nan : NanChoice) (v : Word),
    let t := fmul nan v f255
    q255 nan v ≤ 255 ∧ (q255 nan v = 255 ↔ fge t f255 = true) ∧ (q255 nan v = 0 ↔ fge t fOne = false) ∧
    ∀ k, 0 < k → k < 255 → (q255 nan v = k ↔ fge t (u2f k) = true ∧ fge t (u2f (k + 1)) = false)

/-- 41_tone_mapper_lut.md R133: with the identity table `TONE` quantises, and is the identity on the 256
table values. -/
def Obligations.IdentityTableQuantisesOnly : Prop :=
  ∀ s : State, s.err = false → ShapeOk s → s.valid.fV = true → s.valid.toneV = true →
    (∀ x c, x < 256 → c < 3 → s.tableElem ipa .tone x c = fdiv ipa.nan (u2f x) f255) →
    ∃ t, exec .tone s = .next t ∧ ∀ r c ch, InImage s r c ch →
      t.sample ipa t.cur r c ch = fdiv ipa.nan (u2f (q255 ipa.nan (s.sample ipa s.cur r c ch))) f255 ∧
      (∀ k, k < 256 → s.sample ipa s.cur r c ch = fdiv ipa.nan (u2f k) f255 →
        t.sample ipa t.cur r c ch = s.sample ipa s.cur r c ch)

/-- 42_gamut_rbf_eval.md R144: zero weights and finite distances leave the affine term alone. -/
def Obligations.ZeroWeightsLeaveTheAffineTerm : Prop :=
  ∀ s : State, s.err = false → ShapeOk s → s.valid.fV = true → GamutTablesOk s →
    (∀ k j, k < s.nCp.toNat → j < 3 →
      s.tableElem ipa .gwt k j = 0x00000000#32 ∨ s.tableElem ipa .gwt k j = 0x80000000#32) →
    ∃ t, exec .gamut s = .next t ∧ ∀ r c j, InImage s r c j →
      (∀ k, k < s.nCp.toNat → isFinite (Claim.dist s (s.sample ipa s.cur r c) k) = true) →
      t.sample ipa t.cur r c j = Claim.affine s (s.sample ipa s.cur r c) j 0x00000000#32

/-- 43_color_matrix_mult.md R152 (b): no output of `CMAT` is negative, `-0` or a NaN. -/
def Obligations.CmatOutputIsNeverNegative : Prop :=
  ∀ s : State, s.err = false → ShapeOk s → s.valid.fV = true → s.valid.cmatV = true → MatrixFinite s →
    ∃ t, exec .cmat s = .next t ∧ ∀ r c j, InImage s r c j →
      isNaN (t.sample ipa t.cur r c j) = false ∧ (t.sample ipa t.cur r c j).msb = false

/-- 44_bayer_remosaicer.md R165: a second `REMOSAIC` zeroes the same channels, copies the same red and
blue samples and halves each green sample again. -/
def Obligations.SecondRemosaicHalvesGreenAgain : Prop :=
  ∀ s : State, s.err = false → ShapeOk s → s.valid.fV = true →
    ∃ t u, exec .remosaic s = .next t ∧ exec .remosaic t = .next u ∧ u.err = false ∧ u.cur = s.cur ∧
      ∀ r c ch, InImage s r c ch →
        (ch = 1 → r % 2 = c % 2 → u.sample ipa u.cur r c ch =
          fmul ipa.nan (fmul ipa.nan (s.sample ipa s.cur r c ch) fHalf) fHalf) ∧
        (¬(ch = 1 ∧ r % 2 = c % 2) → u.sample ipa u.cur r c ch = t.sample ipa t.cur r c ch)

/-- 45_noise_adder_prng.md R176: the output buffer and the final `RNG_STATE` of a noise command are a
function of the input buffer, the shape, the noise registers and the initial `RNG_STATE` alone. With
NaNs this rests on the model's choice that a NaN result is a function of the operands (log entry 6). -/
def Obligations.NoiseIsReproducible : Prop :=
  ∀ (i : Instr) (s s' : State), i = .noiseU ∨ i = .noiseS →
    s.err = false → s'.err = false → ShapeOk s → ShapeOk s' → s.valid.fV = true → s'.valid.fV = true →
    s'.imgH = s.imgH → s'.imgW = s.imgW → s'.rngState = s.rngState → s'.noiseVar = s.noiseVar →
    (∀ c, c < 3 → s'.noiseA c = s.noiseA c ∧ s'.noiseB c = s.noiseB c) →
    (∀ r c ch, InImage s r c ch → s'.sample ipa s'.cur r c ch = s.sample ipa s.cur r c ch) →
    ∃ t t', exec i s = .next t ∧ exec i s' = .next t' ∧ t'.err = t.err ∧ t'.rngState = t.rngState ∧
      (t.err = false → ∀ r c ch, InImage s r c ch →
        t'.sample ipa t'.cur r c ch = t.sample ipa t.cur r c ch)

/-- 45_noise_adder_prng.md R175 (c): the entry check makes the standard deviation a number at every
level. -/
def Obligations.SignalDeviationIsNeverNaN : Prop :=
  ∀ s : State, PairsOk s → ∀ ch level, ch < 3 → level ≤ 255 →
    let var := fadd ipa.nan (fmul ipa.nan (s.noiseA ch) (u2f level)) (s.noiseB ch)
    fge var fZero = true ∧ isNaN (fsqrt ipa.nan var) = false

/-- 46_control.md R187: with a variance of `+0.0`, `PIPE.U` writes the same `U8OUT` as `PIPE`. With NaNs
before the colour stage this rests on the model's choice of NaN (log entry 6). -/
def Obligations.ZeroVariancePipeUWritesWhatPipeWrites : Prop :=
  ∀ s : State, s.err = false → PipeReady s → s.noiseVar = 0x00000000#32 →
    ∃ t u, exec .pipe s = .next t ∧ exec .pipeU s = .next u ∧ t.err = false ∧ u.err = false ∧
      ∀ r c ch, InImage s r c ch →
        u.u8outElem ipa (elemIndex s.imgW.toNat r c ch) = t.u8outElem ipa (elemIndex s.imgW.toNat r c ch)

/-! ### Rules of the whole machine -/

/-- The invariant holds right after reset. -/
def Obligations.InvariantHoldsAtReset : Prop := State.reset.Inv ipa

/-- Every step keeps the invariant: memory in its canonical form, mapped bytes only, error registers
that tell one story (10_state.md R26, R27, R30, 20_memory.md R76, R79, 60_exceptions.md R201, R206). -/
def Obligations.EveryStepKeepsTheInvariant : Prop :=
  ∀ s t : State, s.Inv ipa → step s = .next t → t.Inv ipa

/-- 46_control.md R191, R194: every step ends, in a next state. -/
def Obligations.EveryStepAnswersANextState : Prop := ∀ s : State, ∃ t, step s = .next t

/-- 20_memory.md R79: whatever the command, every byte but the image's elements of `U8OUT`, `F0` and
`F1` stays; so the tables and `U8IN` do (R78). -/
def Obligations.CommandsWriteImageElementsOnly : Prop :=
  ∀ (i : Instr) (s t : State), exec i s = .next t →
    Claim.onlyBuffersChange s t ∧ (∀ a, a < 0x70000000 → t.byteAt ipa a = s.byteAt ipa a)

/-- 10_state.md R37, R42, 20_memory.md R78: no command but `SRST` writes a configuration register or
`VALID` bits 0 to 4, and no command but the noise commands writes `RNG_STATE`. -/
def Obligations.CommandsKeepTheConfiguration : Prop :=
  ∀ (i : Instr) (s t : State), i ≠ .srst → exec i s = .next t →
    t.imgH = s.imgH ∧ t.imgW = s.imgW ∧ t.imgC = s.imgC ∧ t.nCp = s.nCp ∧ t.nW = s.nW ∧
    t.valid.toneV = s.valid.toneV ∧ t.valid.cpV = s.valid.cpV ∧ t.valid.wtV = s.valid.wtV ∧
    t.valid.cmatV = s.valid.cmatV ∧ t.valid.inV = s.valid.inV ∧
    t.noiseVar = s.noiseVar ∧ (∀ c, t.noiseA c = s.noiseA c ∧ t.noiseB c = s.noiseB c) ∧
    (i ∉ [Instr.noiseU, .noiseS, .pipeU, .pipeS] → t.rngState = s.rngState)

/-- 10_state.md R29, R37: no command but `SRST` clears `DOMW`, `F_V` or `OUT_V`. -/
def Obligations.CommandsNeverClearFlags : Prop :=
  ∀ (i : Instr) (s t : State), i ≠ .srst → exec i s = .next t →
    (s.domw = true → t.domw = true) ∧ (s.valid.fV = true → t.valid.fV = true) ∧
    (s.valid.outV = true → t.valid.outV = true)

/-- 10_state.md R26: a command executed outside the error state ends with `DONE = 1` exactly when it did
not fault. -/
def Obligations.DoneTellsWhetherTheCommandRan : Prop :=
  ∀ (i : Instr) (s t : State), i ≠ .srst → s.err = false → exec i s = .next t →
    (t.done = true ↔ t.err = false)

/-- 10_state.md R27, R30: the error state and its record are left by `SRST` or `Reset()` only. -/
def Obligations.ErrorRecordStaysUntilReset : Prop :=
  ∀ s t : State, s.err = true → step s = .next t →
    (∀ rest, s.host ≠ .reset :: rest) → (∀ rest, s.host ≠ .write32 0x00000004 0x0000000F :: rest) →
    t.err = true ∧ t.errInfo = s.errInfo ∧ t.errCmd = s.errCmd

/-- 70_reset_and_hazards.md R231: after `Reset()` and after `SRST` every register reads its reset value;
`SRST` keeps every byte of memory. That `Reset()` is answered `OK` is the model's (log entry 2). -/
def Obligations.ResetStateInFull : Prop :=
  (∀ r : Reg, State.reset.readReg r = if r = .id then 0x43415641 else 0) ∧
  (∀ (s : State) (rest : List HostOp), s.host = .reset :: rest →
    ∃ t, step s = .next t ∧ (∀ r : Reg, t.readReg r = if r = .id then 0x43415641 else 0) ∧
      t.host = rest ∧ t.resp = some .ok) ∧
  (∀ s : State, ∃ t, exec .srst s = .next t ∧
    (∀ r : Reg, t.readReg r = if r = .id then 0x43415641 else 0) ∧
    ∀ a, t.byteAt ipa a = s.byteAt ipa a)

/-! ### The host's accesses -/

/-- 20_memory.md R72: a read changes no state of the IPA. -/
def Obligations.ReadsChangeNothing : Prop :=
  ∀ (s : State) (op : HostOp) (rest : List HostOp), (∃ a, op = .read8 a ∨ op = .read32 a) →
    s.host = op :: rest → ∃ r, step s = .next { s with host := rest, resp := some r }

/-- 10_state.md R22 to R42: what each register reads. -/
def Obligations.RegisterReads : Prop :=
  ∀ (s : State) (rest : List HostOp),
    let reads (off v : Word) :=
      step { s with host := .read32 off :: rest } = .next { s with host := rest, resp := some (.data32 v) }
    reads 0x00 0x43415641 ∧ reads 0x04 0 ∧
    reads 0x08 ((0#29 ++ BitVec.ofBool s.domw ++ BitVec.ofBool s.err ++ BitVec.ofBool s.done : BitVec (29 + 1 + 1 + 1))) ∧
    reads 0x0C ((0#28 ++ s.errInfo : BitVec (28 + 4))) ∧ reads 0x10 s.errCmd ∧
    reads 0x14 s.imgH ∧ reads 0x18 s.imgW ∧ reads 0x1C s.imgC ∧ reads 0x20 s.nCp ∧ reads 0x24 s.nW ∧
    reads 0x28 ((0#25 ++ BitVec.ofBool s.valid.outV ++ BitVec.ofBool s.valid.fV ++ BitVec.ofBool s.valid.inV
      ++ BitVec.ofBool s.valid.cmatV ++ BitVec.ofBool s.valid.wtV ++ BitVec.ofBool s.valid.cpV
      ++ BitVec.ofBool s.valid.toneV : BitVec (25 + 1 + 1 + 1 + 1 + 1 + 1 + 1))) ∧
    reads 0x2C (if s.cur = .f1 then 1 else 0) ∧ reads 0x30 s.noiseVar ∧
    reads 0x34 s.noiseA0 ∧ reads 0x38 s.noiseB0 ∧ reads 0x3C s.noiseA1 ∧ reads 0x40 s.noiseB1 ∧
    reads 0x44 s.noiseA2 ∧ reads 0x48 s.noiseB2 ∧ reads 0x4C s.rngState

/-- 10_state.md R22, R23, R28, R30 to R42, R44 and the register rows of R38: what a write to each
register but `CMD` does. -/
def Obligations.RegisterWrites : Prop :=
  ∀ (s : State) (v : Word) (rest : List HostOp),
    let writes (off : Word) (t : State) :=
      step { s with host := .write32 off v :: rest } = .next { t with host := rest, resp := some .ok }
    let shape := { s.valid with inV := false, fV := false, outV := false }
    writes 0x00 s ∧
    writes 0x08 (if v.getLsbD 2 = true then { s with domw := false } else s) ∧
    writes 0x0C s ∧ writes 0x10 s ∧
    writes 0x14 { s with imgH := v, valid := shape } ∧ writes 0x18 { s with imgW := v, valid := shape } ∧
    writes 0x1C { s with imgC := v, valid := shape } ∧
    writes 0x20 { s with nCp := v, valid := { s.valid with cpV := false } } ∧
    writes 0x24 { s with nW := v, valid := { s.valid with wtV := false } } ∧
    writes 0x28 { s with
        valid := ⟨v.getLsbD 0, v.getLsbD 1, v.getLsbD 2, v.getLsbD 3, v.getLsbD 4,
        v.getLsbD 5, v.getLsbD 6⟩ } ∧
    writes 0x2C { s with cur := if v.getLsbD 0 = true then .f1 else .f0, valid := { s.valid with fV := false } } ∧
    writes 0x30 { s with noiseVar := v } ∧
    writes 0x34 { s with noiseA0 := v } ∧ writes 0x38 { s with noiseB0 := v } ∧
    writes 0x3C { s with noiseA1 := v } ∧ writes 0x40 { s with noiseB1 := v } ∧
    writes 0x44 { s with noiseA2 := v } ∧ writes 0x48 { s with noiseB2 := v } ∧
    writes 0x4C { s with rngState := v }

/-- 20_memory.md R76: a host access is answered `BusError` in exactly the four cases of the rule, and
then nothing changes. -/
def Obligations.BusErrorInExactlyTheFourCases : Prop :=
  ∀ (s : State) (op : HostOp) (rest : List HostOp) (addr : Word) (n : Nat),
    ((n = 4 ∧ (op = .read32 addr ∨ ∃ v, op = .write32 addr v)) ∨
      (n = 1 ∧ (op = .read8 addr ∨ ∃ v, op = .write8 addr v))) →
    s.host = op :: rest →
    ((∃ t, step s = .next t ∧ t.resp = some .busError) ↔ Claim.refused addr n) ∧
    (Claim.refused addr n → step s = .next { s with host := rest, resp := some .busError })

/-- 20_memory.md R72: the value of a read of a memory region. -/
def Obligations.MemoryReadsGiveTheElement : Prop :=
  ∀ (s : State) (rest : List HostOp) (addr : Word), 0x10000000 ≤ addr.toNat →
    (¬Claim.refused addr 4 → s.host = .read32 addr :: rest →
      step s = .next { s with host := rest, resp := some (.data32 (s.wordAt ipa addr.toNat)) }) ∧
    (¬Claim.refused addr 1 → s.host = .read8 addr :: rest →
      step s = .next { s with host := rest, resp := some (.data8 (s.byteAt ipa addr.toNat)) })

/-- 20_memory.md R74, 10_state.md R38: a 4-byte write to a memory region sets the element, leaves every
other byte and register, and clears the `VALID` bit the region stands for. -/
def Obligations.WordWritesSetTheElementAndClearItsValidBit : Prop :=
  ∀ (s : State) (rest : List HostOp) (addr v : Word),
    s.host = .write32 addr v :: rest → 0x10000000 ≤ addr.toNat → ¬Claim.refused addr 4 →
    ∃ t, step s = .next t ∧
      t = { s with host := rest, resp := some .ok, mem := t.mem, valid := t.valid } ∧
      t.wordAt ipa addr.toNat = v ∧ SameOutside s t addr.toNat 4 ∧
      (addr.toNat / 2 ^ 28 = 1 → t.valid = { s.valid with toneV := false }) ∧
      (addr.toNat / 2 ^ 28 = 2 → t.valid = { s.valid with cpV := false }) ∧
      (addr.toNat / 2 ^ 28 = 3 → t.valid = { s.valid with wtV := false }) ∧
      (addr.toNat / 2 ^ 28 = 4 → t.valid = { s.valid with wtV := false }) ∧
      (addr.toNat / 2 ^ 28 = 5 → t.valid = { s.valid with cmatV := false }) ∧
      (addr.toNat / 2 ^ 28 = 8 → t.valid = if s.cur = .f0 then { s.valid with fV := false } else s.valid) ∧
      (addr.toNat / 2 ^ 28 = 9 → t.valid = if s.cur = .f1 then { s.valid with fV := false } else s.valid)

/-- 20_memory.md R74, 10_state.md R38: the same of a 1-byte write to `U8IN` or `U8OUT`. -/
def Obligations.ByteWritesSetTheElementAndClearItsValidBit : Prop :=
  ∀ (s : State) (rest : List HostOp) (addr : Word) (v : Byte),
    s.host = .write8 addr v :: rest → ¬Claim.refused addr 1 →
    ∃ t, step s = .next t ∧
      t = { s with host := rest, resp := some .ok, mem := t.mem, valid := t.valid } ∧
      t.byteAt ipa addr.toNat = v ∧ SameOutside s t addr.toNat 1 ∧
      (addr.toNat / 2 ^ 28 = 6 → t.valid = { s.valid with inV := false }) ∧
      (addr.toNat / 2 ^ 28 = 7 → t.valid = { s.valid with outV := false })

/-- 20_memory.md R81 (1): a read returns the value of the latest earlier write to the same element, and
a write to another element does not disturb it. -/
def Obligations.AReadReturnsTheLatestWrite : Prop :=
  ∀ (s : State) (rest : List HostOp) (a b v w : Word),
    0x10000000 ≤ a.toNat → ¬Claim.refused a 4 → 0x10000000 ≤ b.toNat → ¬Claim.refused b 4 → a ≠ b →
    s.host = .write32 a v :: .write32 b w :: .read32 a :: rest →
    ∃ t u x, step s = .next t ∧ step t = .next u ∧ step u = .next x ∧
      x.resp = some (.data32 v) ∧ x.host = rest
end

