-- ==== Sys2Proof/Laws/Codec.lean ====
section
/-! SUPPORT. The fields of a word and the word of its fields are inverse; the encoder's words are the
packed fields of each instruction. -/

namespace Sys2Proof

/-- The fields of a packed word are the fields packed. -/
theorem fieldsOf_packFields (f : CmdFields) : fieldsOf (packFields f) = f := by
  obtain ⟨rsv, nv, op⟩ := f
  have h1 := rsv.isLt
  have h2 := nv.isLt
  have h3 := op.isLt
  simp only [fieldsOf, packFields, CmdFields.mk.injEq]
  refine ⟨?_, ?_, ?_⟩ <;> apply BitVec.eq_of_toNat_eq <;>
    simp only [BitVec.extractLsb'_toNat, BitVec.toNat_append, Nat.shiftLeft_eq, Nat.shiftRight_eq_div_pow] <;>
    rw [← Nat.shiftLeft_eq, ← Nat.shiftLeft_eq, ← Nat.shiftLeft_add_eq_or_of_lt h3,
      ← Nat.shiftLeft_add_eq_or_of_lt h2, Nat.shiftLeft_eq, Nat.shiftLeft_eq] <;> omega

/-- Packing the fields of a word gives the word: no bit of a command word is dropped. -/
theorem packFields_fieldsOf (w : Word) : packFields (fieldsOf w) = w := by
  have hw := w.isLt
  apply BitVec.eq_of_toNat_eq
  simp only [fieldsOf, packFields, BitVec.toNat_append, BitVec.extractLsb'_toNat, Nat.shiftRight_eq_div_pow]
  rw [← Nat.shiftLeft_add_eq_or_of_lt (by omega), ← Nat.shiftLeft_add_eq_or_of_lt (by omega),
    Nat.shiftLeft_eq, Nat.shiftLeft_eq]
  omega

/-- The encoder's table is the packing of each instruction's fields. -/
theorem encode_eq_packFields (i : Instr) : encode i = packFields i.fields := by
  cases i <;> decide

/-- What the table of operations accepts, as fields. -/
theorem decodeOp_eq_some {op : BitVec 4} {nv : BitVec 2} {i : Instr}
    (h : decodeOp op.toNat nv.toNat = some i) : i.fields = ⟨0, nv, op⟩ := by
  revert op nv i
  decide

/-- A word decodes to an instruction only if it has that instruction's fields. -/
theorem fieldsOf_of_decode {w : Word} {i : Instr} (h : decode w = .command i) : fieldsOf w = i.fields := by
  simp only [decode] at h
  split at h
  · cases h
  · next hr =>
    split at h
    · next j hj =>
      cases h
      rw [decodeOp_eq_some hj]
      have : (fieldsOf w).rsv = 0 := not_not.mp hr
      rw [← this]
    · split at h <;> cases h

end Sys2Proof
end

