-- ==== Sys2Proof/Laws/State.lean ====
section
/-! SUPPORT. The fields of a state after each update: one lemma per field per update, true by
definition, so that no proof unfolds a record update. -/

namespace Sys2Proof.Machine

variable (s : State)

-- setByte
@[simp] theorem setByte_done (a : Nat) (b : Byte) : (s.setByte a b).done = s.done := rfl
@[simp] theorem setByte_err (a : Nat) (b : Byte) : (s.setByte a b).err = s.err := rfl
@[simp] theorem setByte_domw (a : Nat) (b : Byte) : (s.setByte a b).domw = s.domw := rfl
@[simp] theorem setByte_errInfo (a : Nat) (b : Byte) : (s.setByte a b).errInfo = s.errInfo := rfl
@[simp] theorem setByte_errCmd (a : Nat) (b : Byte) : (s.setByte a b).errCmd = s.errCmd := rfl
@[simp] theorem setByte_imgH (a : Nat) (b : Byte) : (s.setByte a b).imgH = s.imgH := rfl
@[simp] theorem setByte_imgW (a : Nat) (b : Byte) : (s.setByte a b).imgW = s.imgW := rfl
@[simp] theorem setByte_imgC (a : Nat) (b : Byte) : (s.setByte a b).imgC = s.imgC := rfl
@[simp] theorem setByte_nCp (a : Nat) (b : Byte) : (s.setByte a b).nCp = s.nCp := rfl
@[simp] theorem setByte_nW (a : Nat) (b : Byte) : (s.setByte a b).nW = s.nW := rfl
@[simp] theorem setByte_valid (a : Nat) (b : Byte) : (s.setByte a b).valid = s.valid := rfl
@[simp] theorem setByte_cur (a : Nat) (b : Byte) : (s.setByte a b).cur = s.cur := rfl
@[simp] theorem setByte_noiseVar (a : Nat) (b : Byte) : (s.setByte a b).noiseVar = s.noiseVar := rfl
@[simp] theorem setByte_noiseA0 (a : Nat) (b : Byte) : (s.setByte a b).noiseA0 = s.noiseA0 := rfl
@[simp] theorem setByte_noiseB0 (a : Nat) (b : Byte) : (s.setByte a b).noiseB0 = s.noiseB0 := rfl
@[simp] theorem setByte_noiseA1 (a : Nat) (b : Byte) : (s.setByte a b).noiseA1 = s.noiseA1 := rfl
@[simp] theorem setByte_noiseB1 (a : Nat) (b : Byte) : (s.setByte a b).noiseB1 = s.noiseB1 := rfl
@[simp] theorem setByte_noiseA2 (a : Nat) (b : Byte) : (s.setByte a b).noiseA2 = s.noiseA2 := rfl
@[simp] theorem setByte_noiseB2 (a : Nat) (b : Byte) : (s.setByte a b).noiseB2 = s.noiseB2 := rfl
@[simp] theorem setByte_rngState (a : Nat) (b : Byte) : (s.setByte a b).rngState = s.rngState := rfl
@[simp] theorem setByte_mem (a : Nat) (b : Byte) : (s.setByte a b).mem = memSet s.mem a b := rfl
@[simp] theorem setByte_epoch (a : Nat) (b : Byte) : (s.setByte a b).epoch = s.epoch := rfl
@[simp] theorem setByte_host (a : Nat) (b : Byte) : (s.setByte a b).host = s.host := rfl
@[simp] theorem setByte_resp (a : Nat) (b : Byte) : (s.setByte a b).resp = s.resp := rfl

-- setWord
@[simp] theorem setWord_done (a : Nat) (w : Word) : (s.setWord a w).done = s.done := rfl
@[simp] theorem setWord_err (a : Nat) (w : Word) : (s.setWord a w).err = s.err := rfl
@[simp] theorem setWord_domw (a : Nat) (w : Word) : (s.setWord a w).domw = s.domw := rfl
@[simp] theorem setWord_errInfo (a : Nat) (w : Word) : (s.setWord a w).errInfo = s.errInfo := rfl
@[simp] theorem setWord_errCmd (a : Nat) (w : Word) : (s.setWord a w).errCmd = s.errCmd := rfl
@[simp] theorem setWord_imgH (a : Nat) (w : Word) : (s.setWord a w).imgH = s.imgH := rfl
@[simp] theorem setWord_imgW (a : Nat) (w : Word) : (s.setWord a w).imgW = s.imgW := rfl
@[simp] theorem setWord_imgC (a : Nat) (w : Word) : (s.setWord a w).imgC = s.imgC := rfl
@[simp] theorem setWord_nCp (a : Nat) (w : Word) : (s.setWord a w).nCp = s.nCp := rfl
@[simp] theorem setWord_nW (a : Nat) (w : Word) : (s.setWord a w).nW = s.nW := rfl
@[simp] theorem setWord_valid (a : Nat) (w : Word) : (s.setWord a w).valid = s.valid := rfl
@[simp] theorem setWord_cur (a : Nat) (w : Word) : (s.setWord a w).cur = s.cur := rfl
@[simp] theorem setWord_noiseVar (a : Nat) (w : Word) : (s.setWord a w).noiseVar = s.noiseVar := rfl
@[simp] theorem setWord_noiseA0 (a : Nat) (w : Word) : (s.setWord a w).noiseA0 = s.noiseA0 := rfl
@[simp] theorem setWord_noiseB0 (a : Nat) (w : Word) : (s.setWord a w).noiseB0 = s.noiseB0 := rfl
@[simp] theorem setWord_noiseA1 (a : Nat) (w : Word) : (s.setWord a w).noiseA1 = s.noiseA1 := rfl
@[simp] theorem setWord_noiseB1 (a : Nat) (w : Word) : (s.setWord a w).noiseB1 = s.noiseB1 := rfl
@[simp] theorem setWord_noiseA2 (a : Nat) (w : Word) : (s.setWord a w).noiseA2 = s.noiseA2 := rfl
@[simp] theorem setWord_noiseB2 (a : Nat) (w : Word) : (s.setWord a w).noiseB2 = s.noiseB2 := rfl
@[simp] theorem setWord_rngState (a : Nat) (w : Word) : (s.setWord a w).rngState = s.rngState := rfl
@[simp] theorem setWord_mem (a : Nat) (w : Word) : (s.setWord a w).mem = memSetWord s.mem a w := rfl
@[simp] theorem setWord_epoch (a : Nat) (w : Word) : (s.setWord a w).epoch = s.epoch := rfl
@[simp] theorem setWord_host (a : Nat) (w : Word) : (s.setWord a w).host = s.host := rfl
@[simp] theorem setWord_resp (a : Nat) (w : Word) : (s.setWord a w).resp = s.resp := rfl

-- storeFloats
@[simp] theorem storeFloats_done (b : Buf) (f : Nat → Word) : (s.storeFloats b f).done = s.done := rfl
@[simp] theorem storeFloats_err (b : Buf) (f : Nat → Word) : (s.storeFloats b f).err = s.err := rfl
@[simp] theorem storeFloats_domw (b : Buf) (f : Nat → Word) : (s.storeFloats b f).domw = s.domw := rfl
@[simp] theorem storeFloats_errInfo (b : Buf) (f : Nat → Word) :
    (s.storeFloats b f).errInfo = s.errInfo := rfl
@[simp] theorem storeFloats_errCmd (b : Buf) (f : Nat → Word) : (s.storeFloats b f).errCmd = s.errCmd := rfl
@[simp] theorem storeFloats_imgH (b : Buf) (f : Nat → Word) : (s.storeFloats b f).imgH = s.imgH := rfl
@[simp] theorem storeFloats_imgW (b : Buf) (f : Nat → Word) : (s.storeFloats b f).imgW = s.imgW := rfl
@[simp] theorem storeFloats_imgC (b : Buf) (f : Nat → Word) : (s.storeFloats b f).imgC = s.imgC := rfl
@[simp] theorem storeFloats_nCp (b : Buf) (f : Nat → Word) : (s.storeFloats b f).nCp = s.nCp := rfl
@[simp] theorem storeFloats_nW (b : Buf) (f : Nat → Word) : (s.storeFloats b f).nW = s.nW := rfl
@[simp] theorem storeFloats_valid (b : Buf) (f : Nat → Word) : (s.storeFloats b f).valid = s.valid := rfl
@[simp] theorem storeFloats_cur (b : Buf) (f : Nat → Word) : (s.storeFloats b f).cur = s.cur := rfl
@[simp] theorem storeFloats_noiseVar (b : Buf) (f : Nat → Word) :
    (s.storeFloats b f).noiseVar = s.noiseVar := rfl
@[simp] theorem storeFloats_noiseA0 (b : Buf) (f : Nat → Word) :
    (s.storeFloats b f).noiseA0 = s.noiseA0 := rfl
@[simp] theorem storeFloats_noiseB0 (b : Buf) (f : Nat → Word) :
    (s.storeFloats b f).noiseB0 = s.noiseB0 := rfl
@[simp] theorem storeFloats_noiseA1 (b : Buf) (f : Nat → Word) :
    (s.storeFloats b f).noiseA1 = s.noiseA1 := rfl
@[simp] theorem storeFloats_noiseB1 (b : Buf) (f : Nat → Word) :
    (s.storeFloats b f).noiseB1 = s.noiseB1 := rfl
@[simp] theorem storeFloats_noiseA2 (b : Buf) (f : Nat → Word) :
    (s.storeFloats b f).noiseA2 = s.noiseA2 := rfl
@[simp] theorem storeFloats_noiseB2 (b : Buf) (f : Nat → Word) :
    (s.storeFloats b f).noiseB2 = s.noiseB2 := rfl
@[simp] theorem storeFloats_rngState (b : Buf) (f : Nat → Word) :
    (s.storeFloats b f).rngState = s.rngState := rfl
@[simp] theorem storeFloats_mem (b : Buf) (f : Nat → Word) :
    (s.storeFloats b f).mem = memSetWords s.mem b.base ((List.range s.elements).map f) := rfl
@[simp] theorem storeFloats_epoch (b : Buf) (f : Nat → Word) : (s.storeFloats b f).epoch = s.epoch := rfl
@[simp] theorem storeFloats_host (b : Buf) (f : Nat → Word) : (s.storeFloats b f).host = s.host := rfl
@[simp] theorem storeFloats_resp (b : Buf) (f : Nat → Word) : (s.storeFloats b f).resp = s.resp := rfl

-- storeBytes
@[simp] theorem storeBytes_done (f : Nat → Byte) : (s.storeBytes f).done = s.done := rfl
@[simp] theorem storeBytes_err (f : Nat → Byte) : (s.storeBytes f).err = s.err := rfl
@[simp] theorem storeBytes_domw (f : Nat → Byte) : (s.storeBytes f).domw = s.domw := rfl
@[simp] theorem storeBytes_errInfo (f : Nat → Byte) : (s.storeBytes f).errInfo = s.errInfo := rfl
@[simp] theorem storeBytes_errCmd (f : Nat → Byte) : (s.storeBytes f).errCmd = s.errCmd := rfl
@[simp] theorem storeBytes_imgH (f : Nat → Byte) : (s.storeBytes f).imgH = s.imgH := rfl
@[simp] theorem storeBytes_imgW (f : Nat → Byte) : (s.storeBytes f).imgW = s.imgW := rfl
@[simp] theorem storeBytes_imgC (f : Nat → Byte) : (s.storeBytes f).imgC = s.imgC := rfl
@[simp] theorem storeBytes_nCp (f : Nat → Byte) : (s.storeBytes f).nCp = s.nCp := rfl
@[simp] theorem storeBytes_nW (f : Nat → Byte) : (s.storeBytes f).nW = s.nW := rfl
@[simp] theorem storeBytes_valid (f : Nat → Byte) : (s.storeBytes f).valid = s.valid := rfl
@[simp] theorem storeBytes_cur (f : Nat → Byte) : (s.storeBytes f).cur = s.cur := rfl
@[simp] theorem storeBytes_noiseVar (f : Nat → Byte) : (s.storeBytes f).noiseVar = s.noiseVar := rfl
@[simp] theorem storeBytes_noiseA0 (f : Nat → Byte) : (s.storeBytes f).noiseA0 = s.noiseA0 := rfl
@[simp] theorem storeBytes_noiseB0 (f : Nat → Byte) : (s.storeBytes f).noiseB0 = s.noiseB0 := rfl
@[simp] theorem storeBytes_noiseA1 (f : Nat → Byte) : (s.storeBytes f).noiseA1 = s.noiseA1 := rfl
@[simp] theorem storeBytes_noiseB1 (f : Nat → Byte) : (s.storeBytes f).noiseB1 = s.noiseB1 := rfl
@[simp] theorem storeBytes_noiseA2 (f : Nat → Byte) : (s.storeBytes f).noiseA2 = s.noiseA2 := rfl
@[simp] theorem storeBytes_noiseB2 (f : Nat → Byte) : (s.storeBytes f).noiseB2 = s.noiseB2 := rfl
@[simp] theorem storeBytes_rngState (f : Nat → Byte) : (s.storeBytes f).rngState = s.rngState := rfl
@[simp] theorem storeBytes_mem (f : Nat → Byte) :
    (s.storeBytes f).mem = memSetBytes s.mem Region.u8out.base ((List.range s.elements).map f) := rfl
@[simp] theorem storeBytes_epoch (f : Nat → Byte) : (s.storeBytes f).epoch = s.epoch := rfl
@[simp] theorem storeBytes_host (f : Nat → Byte) : (s.storeBytes f).host = s.host := rfl
@[simp] theorem storeBytes_resp (f : Nat → Byte) : (s.storeBytes f).resp = s.resp := rfl

-- setDone
@[simp] theorem setDone_done : (setDone s).done = true := rfl
@[simp] theorem setDone_err : (setDone s).err = s.err := rfl
@[simp] theorem setDone_domw : (setDone s).domw = s.domw := rfl
@[simp] theorem setDone_errInfo : (setDone s).errInfo = s.errInfo := rfl
@[simp] theorem setDone_errCmd : (setDone s).errCmd = s.errCmd := rfl
@[simp] theorem setDone_imgH : (setDone s).imgH = s.imgH := rfl
@[simp] theorem setDone_imgW : (setDone s).imgW = s.imgW := rfl
@[simp] theorem setDone_imgC : (setDone s).imgC = s.imgC := rfl
@[simp] theorem setDone_nCp : (setDone s).nCp = s.nCp := rfl
@[simp] theorem setDone_nW : (setDone s).nW = s.nW := rfl
@[simp] theorem setDone_valid : (setDone s).valid = s.valid := rfl
@[simp] theorem setDone_cur : (setDone s).cur = s.cur := rfl
@[simp] theorem setDone_noiseVar : (setDone s).noiseVar = s.noiseVar := rfl
@[simp] theorem setDone_noiseA0 : (setDone s).noiseA0 = s.noiseA0 := rfl
@[simp] theorem setDone_noiseB0 : (setDone s).noiseB0 = s.noiseB0 := rfl
@[simp] theorem setDone_noiseA1 : (setDone s).noiseA1 = s.noiseA1 := rfl
@[simp] theorem setDone_noiseB1 : (setDone s).noiseB1 = s.noiseB1 := rfl
@[simp] theorem setDone_noiseA2 : (setDone s).noiseA2 = s.noiseA2 := rfl
@[simp] theorem setDone_noiseB2 : (setDone s).noiseB2 = s.noiseB2 := rfl
@[simp] theorem setDone_rngState : (setDone s).rngState = s.rngState := rfl
@[simp] theorem setDone_mem : (setDone s).mem = s.mem := rfl
@[simp] theorem setDone_epoch : (setDone s).epoch = s.epoch := rfl
@[simp] theorem setDone_host : (setDone s).host = s.host := rfl
@[simp] theorem setDone_resp : (setDone s).resp = s.resp := rfl

-- raiseDomw
@[simp] theorem raiseDomw_done (w : Bool) : (raiseDomw w s).done = s.done := rfl
@[simp] theorem raiseDomw_err (w : Bool) : (raiseDomw w s).err = s.err := rfl
@[simp] theorem raiseDomw_domw (w : Bool) : (raiseDomw w s).domw = (s.domw || w) := rfl
@[simp] theorem raiseDomw_errInfo (w : Bool) : (raiseDomw w s).errInfo = s.errInfo := rfl
@[simp] theorem raiseDomw_errCmd (w : Bool) : (raiseDomw w s).errCmd = s.errCmd := rfl
@[simp] theorem raiseDomw_imgH (w : Bool) : (raiseDomw w s).imgH = s.imgH := rfl
@[simp] theorem raiseDomw_imgW (w : Bool) : (raiseDomw w s).imgW = s.imgW := rfl
@[simp] theorem raiseDomw_imgC (w : Bool) : (raiseDomw w s).imgC = s.imgC := rfl
@[simp] theorem raiseDomw_nCp (w : Bool) : (raiseDomw w s).nCp = s.nCp := rfl
@[simp] theorem raiseDomw_nW (w : Bool) : (raiseDomw w s).nW = s.nW := rfl
@[simp] theorem raiseDomw_valid (w : Bool) : (raiseDomw w s).valid = s.valid := rfl
@[simp] theorem raiseDomw_cur (w : Bool) : (raiseDomw w s).cur = s.cur := rfl
@[simp] theorem raiseDomw_noiseVar (w : Bool) : (raiseDomw w s).noiseVar = s.noiseVar := rfl
@[simp] theorem raiseDomw_noiseA0 (w : Bool) : (raiseDomw w s).noiseA0 = s.noiseA0 := rfl
@[simp] theorem raiseDomw_noiseB0 (w : Bool) : (raiseDomw w s).noiseB0 = s.noiseB0 := rfl
@[simp] theorem raiseDomw_noiseA1 (w : Bool) : (raiseDomw w s).noiseA1 = s.noiseA1 := rfl
@[simp] theorem raiseDomw_noiseB1 (w : Bool) : (raiseDomw w s).noiseB1 = s.noiseB1 := rfl
@[simp] theorem raiseDomw_noiseA2 (w : Bool) : (raiseDomw w s).noiseA2 = s.noiseA2 := rfl
@[simp] theorem raiseDomw_noiseB2 (w : Bool) : (raiseDomw w s).noiseB2 = s.noiseB2 := rfl
@[simp] theorem raiseDomw_rngState (w : Bool) : (raiseDomw w s).rngState = s.rngState := rfl
@[simp] theorem raiseDomw_mem (w : Bool) : (raiseDomw w s).mem = s.mem := rfl
@[simp] theorem raiseDomw_epoch (w : Bool) : (raiseDomw w s).epoch = s.epoch := rfl
@[simp] theorem raiseDomw_host (w : Bool) : (raiseDomw w s).host = s.host := rfl
@[simp] theorem raiseDomw_resp (w : Bool) : (raiseDomw w s).resp = s.resp := rfl

-- finishFloatStage
@[simp] theorem finishFloatStage_done (d : Buf) : (finishFloatStage d s).done = true := rfl
@[simp] theorem finishFloatStage_err (d : Buf) : (finishFloatStage d s).err = s.err := rfl
@[simp] theorem finishFloatStage_domw (d : Buf) : (finishFloatStage d s).domw = s.domw := rfl
@[simp] theorem finishFloatStage_errInfo (d : Buf) : (finishFloatStage d s).errInfo = s.errInfo := rfl
@[simp] theorem finishFloatStage_errCmd (d : Buf) : (finishFloatStage d s).errCmd = s.errCmd := rfl
@[simp] theorem finishFloatStage_imgH (d : Buf) : (finishFloatStage d s).imgH = s.imgH := rfl
@[simp] theorem finishFloatStage_imgW (d : Buf) : (finishFloatStage d s).imgW = s.imgW := rfl
@[simp] theorem finishFloatStage_imgC (d : Buf) : (finishFloatStage d s).imgC = s.imgC := rfl
@[simp] theorem finishFloatStage_nCp (d : Buf) : (finishFloatStage d s).nCp = s.nCp := rfl
@[simp] theorem finishFloatStage_nW (d : Buf) : (finishFloatStage d s).nW = s.nW := rfl
@[simp] theorem finishFloatStage_valid (d : Buf) :
    (finishFloatStage d s).valid = { s.valid with fV := true } := rfl
@[simp] theorem finishFloatStage_cur (d : Buf) : (finishFloatStage d s).cur = d := rfl
@[simp] theorem finishFloatStage_noiseVar (d : Buf) : (finishFloatStage d s).noiseVar = s.noiseVar := rfl
@[simp] theorem finishFloatStage_noiseA0 (d : Buf) : (finishFloatStage d s).noiseA0 = s.noiseA0 := rfl
@[simp] theorem finishFloatStage_noiseB0 (d : Buf) : (finishFloatStage d s).noiseB0 = s.noiseB0 := rfl
@[simp] theorem finishFloatStage_noiseA1 (d : Buf) : (finishFloatStage d s).noiseA1 = s.noiseA1 := rfl
@[simp] theorem finishFloatStage_noiseB1 (d : Buf) : (finishFloatStage d s).noiseB1 = s.noiseB1 := rfl
@[simp] theorem finishFloatStage_noiseA2 (d : Buf) : (finishFloatStage d s).noiseA2 = s.noiseA2 := rfl
@[simp] theorem finishFloatStage_noiseB2 (d : Buf) : (finishFloatStage d s).noiseB2 = s.noiseB2 := rfl
@[simp] theorem finishFloatStage_rngState (d : Buf) : (finishFloatStage d s).rngState = s.rngState := rfl
@[simp] theorem finishFloatStage_mem (d : Buf) : (finishFloatStage d s).mem = s.mem := rfl
@[simp] theorem finishFloatStage_epoch (d : Buf) : (finishFloatStage d s).epoch = s.epoch := rfl
@[simp] theorem finishFloatStage_host (d : Buf) : (finishFloatStage d s).host = s.host := rfl
@[simp] theorem finishFloatStage_resp (d : Buf) : (finishFloatStage d s).resp = s.resp := rfl

-- finishByteStage
@[simp] theorem finishByteStage_done : (finishByteStage s).done = true := rfl
@[simp] theorem finishByteStage_err : (finishByteStage s).err = s.err := rfl
@[simp] theorem finishByteStage_domw : (finishByteStage s).domw = s.domw := rfl
@[simp] theorem finishByteStage_errInfo : (finishByteStage s).errInfo = s.errInfo := rfl
@[simp] theorem finishByteStage_errCmd : (finishByteStage s).errCmd = s.errCmd := rfl
@[simp] theorem finishByteStage_imgH : (finishByteStage s).imgH = s.imgH := rfl
@[simp] theorem finishByteStage_imgW : (finishByteStage s).imgW = s.imgW := rfl
@[simp] theorem finishByteStage_imgC : (finishByteStage s).imgC = s.imgC := rfl
@[simp] theorem finishByteStage_nCp : (finishByteStage s).nCp = s.nCp := rfl
@[simp] theorem finishByteStage_nW : (finishByteStage s).nW = s.nW := rfl
@[simp] theorem finishByteStage_valid : (finishByteStage s).valid = { s.valid with outV := true } := rfl
@[simp] theorem finishByteStage_cur : (finishByteStage s).cur = s.cur := rfl
@[simp] theorem finishByteStage_noiseVar : (finishByteStage s).noiseVar = s.noiseVar := rfl
@[simp] theorem finishByteStage_noiseA0 : (finishByteStage s).noiseA0 = s.noiseA0 := rfl
@[simp] theorem finishByteStage_noiseB0 : (finishByteStage s).noiseB0 = s.noiseB0 := rfl
@[simp] theorem finishByteStage_noiseA1 : (finishByteStage s).noiseA1 = s.noiseA1 := rfl
@[simp] theorem finishByteStage_noiseB1 : (finishByteStage s).noiseB1 = s.noiseB1 := rfl
@[simp] theorem finishByteStage_noiseA2 : (finishByteStage s).noiseA2 = s.noiseA2 := rfl
@[simp] theorem finishByteStage_noiseB2 : (finishByteStage s).noiseB2 = s.noiseB2 := rfl
@[simp] theorem finishByteStage_rngState : (finishByteStage s).rngState = s.rngState := rfl
@[simp] theorem finishByteStage_mem : (finishByteStage s).mem = s.mem := rfl
@[simp] theorem finishByteStage_epoch : (finishByteStage s).epoch = s.epoch := rfl
@[simp] theorem finishByteStage_host : (finishByteStage s).host = s.host := rfl
@[simp] theorem finishByteStage_resp : (finishByteStage s).resp = s.resp := rfl

-- advanceRng
@[simp] theorem advanceRng_done (P : Params) : (advanceRng P s).done = s.done := rfl
@[simp] theorem advanceRng_err (P : Params) : (advanceRng P s).err = s.err := rfl
@[simp] theorem advanceRng_domw (P : Params) : (advanceRng P s).domw = s.domw := rfl
@[simp] theorem advanceRng_errInfo (P : Params) : (advanceRng P s).errInfo = s.errInfo := rfl
@[simp] theorem advanceRng_errCmd (P : Params) : (advanceRng P s).errCmd = s.errCmd := rfl
@[simp] theorem advanceRng_imgH (P : Params) : (advanceRng P s).imgH = s.imgH := rfl
@[simp] theorem advanceRng_imgW (P : Params) : (advanceRng P s).imgW = s.imgW := rfl
@[simp] theorem advanceRng_imgC (P : Params) : (advanceRng P s).imgC = s.imgC := rfl
@[simp] theorem advanceRng_nCp (P : Params) : (advanceRng P s).nCp = s.nCp := rfl
@[simp] theorem advanceRng_nW (P : Params) : (advanceRng P s).nW = s.nW := rfl
@[simp] theorem advanceRng_valid (P : Params) : (advanceRng P s).valid = s.valid := rfl
@[simp] theorem advanceRng_cur (P : Params) : (advanceRng P s).cur = s.cur := rfl
@[simp] theorem advanceRng_noiseVar (P : Params) : (advanceRng P s).noiseVar = s.noiseVar := rfl
@[simp] theorem advanceRng_noiseA0 (P : Params) : (advanceRng P s).noiseA0 = s.noiseA0 := rfl
@[simp] theorem advanceRng_noiseB0 (P : Params) : (advanceRng P s).noiseB0 = s.noiseB0 := rfl
@[simp] theorem advanceRng_noiseA1 (P : Params) : (advanceRng P s).noiseA1 = s.noiseA1 := rfl
@[simp] theorem advanceRng_noiseB1 (P : Params) : (advanceRng P s).noiseB1 = s.noiseB1 := rfl
@[simp] theorem advanceRng_noiseA2 (P : Params) : (advanceRng P s).noiseA2 = s.noiseA2 := rfl
@[simp] theorem advanceRng_noiseB2 (P : Params) : (advanceRng P s).noiseB2 = s.noiseB2 := rfl
@[simp] theorem advanceRng_rngState (P : Params) :
    (advanceRng P s).rngState = rngAfter P s.elements s.rngState := rfl
@[simp] theorem advanceRng_mem (P : Params) : (advanceRng P s).mem = s.mem := rfl
@[simp] theorem advanceRng_epoch (P : Params) : (advanceRng P s).epoch = s.epoch := rfl
@[simp] theorem advanceRng_host (P : Params) : (advanceRng P s).host = s.host := rfl
@[simp] theorem advanceRng_resp (P : Params) : (advanceRng P s).resp = s.resp := rfl

-- takeFault
@[simp] theorem takeFault_done (f : ErrCode) (w : Word) : (takeFault f w s).done = false := rfl
@[simp] theorem takeFault_err (f : ErrCode) (w : Word) : (takeFault f w s).err = true := rfl
@[simp] theorem takeFault_domw (f : ErrCode) (w : Word) : (takeFault f w s).domw = s.domw := rfl
@[simp] theorem takeFault_errInfo (f : ErrCode) (w : Word) : (takeFault f w s).errInfo = f.code := rfl
@[simp] theorem takeFault_errCmd (f : ErrCode) (w : Word) : (takeFault f w s).errCmd = w := rfl
@[simp] theorem takeFault_imgH (f : ErrCode) (w : Word) : (takeFault f w s).imgH = s.imgH := rfl
@[simp] theorem takeFault_imgW (f : ErrCode) (w : Word) : (takeFault f w s).imgW = s.imgW := rfl
@[simp] theorem takeFault_imgC (f : ErrCode) (w : Word) : (takeFault f w s).imgC = s.imgC := rfl
@[simp] theorem takeFault_nCp (f : ErrCode) (w : Word) : (takeFault f w s).nCp = s.nCp := rfl
@[simp] theorem takeFault_nW (f : ErrCode) (w : Word) : (takeFault f w s).nW = s.nW := rfl
@[simp] theorem takeFault_valid (f : ErrCode) (w : Word) : (takeFault f w s).valid = s.valid := rfl
@[simp] theorem takeFault_cur (f : ErrCode) (w : Word) : (takeFault f w s).cur = s.cur := rfl
@[simp] theorem takeFault_noiseVar (f : ErrCode) (w : Word) : (takeFault f w s).noiseVar = s.noiseVar := rfl
@[simp] theorem takeFault_noiseA0 (f : ErrCode) (w : Word) : (takeFault f w s).noiseA0 = s.noiseA0 := rfl
@[simp] theorem takeFault_noiseB0 (f : ErrCode) (w : Word) : (takeFault f w s).noiseB0 = s.noiseB0 := rfl
@[simp] theorem takeFault_noiseA1 (f : ErrCode) (w : Word) : (takeFault f w s).noiseA1 = s.noiseA1 := rfl
@[simp] theorem takeFault_noiseB1 (f : ErrCode) (w : Word) : (takeFault f w s).noiseB1 = s.noiseB1 := rfl
@[simp] theorem takeFault_noiseA2 (f : ErrCode) (w : Word) : (takeFault f w s).noiseA2 = s.noiseA2 := rfl
@[simp] theorem takeFault_noiseB2 (f : ErrCode) (w : Word) : (takeFault f w s).noiseB2 = s.noiseB2 := rfl
@[simp] theorem takeFault_rngState (f : ErrCode) (w : Word) : (takeFault f w s).rngState = s.rngState := rfl
@[simp] theorem takeFault_mem (f : ErrCode) (w : Word) : (takeFault f w s).mem = s.mem := rfl
@[simp] theorem takeFault_epoch (f : ErrCode) (w : Word) : (takeFault f w s).epoch = s.epoch := rfl
@[simp] theorem takeFault_host (f : ErrCode) (w : Word) : (takeFault f w s).host = s.host := rfl
@[simp] theorem takeFault_resp (f : ErrCode) (w : Word) : (takeFault f w s).resp = s.resp := rfl

-- answer
@[simp] theorem answer_done (r : Resp) : (answer r s).done = s.done := rfl
@[simp] theorem answer_err (r : Resp) : (answer r s).err = s.err := rfl
@[simp] theorem answer_domw (r : Resp) : (answer r s).domw = s.domw := rfl
@[simp] theorem answer_errInfo (r : Resp) : (answer r s).errInfo = s.errInfo := rfl
@[simp] theorem answer_errCmd (r : Resp) : (answer r s).errCmd = s.errCmd := rfl
@[simp] theorem answer_imgH (r : Resp) : (answer r s).imgH = s.imgH := rfl
@[simp] theorem answer_imgW (r : Resp) : (answer r s).imgW = s.imgW := rfl
@[simp] theorem answer_imgC (r : Resp) : (answer r s).imgC = s.imgC := rfl
@[simp] theorem answer_nCp (r : Resp) : (answer r s).nCp = s.nCp := rfl
@[simp] theorem answer_nW (r : Resp) : (answer r s).nW = s.nW := rfl
@[simp] theorem answer_valid (r : Resp) : (answer r s).valid = s.valid := rfl
@[simp] theorem answer_cur (r : Resp) : (answer r s).cur = s.cur := rfl
@[simp] theorem answer_noiseVar (r : Resp) : (answer r s).noiseVar = s.noiseVar := rfl
@[simp] theorem answer_noiseA0 (r : Resp) : (answer r s).noiseA0 = s.noiseA0 := rfl
@[simp] theorem answer_noiseB0 (r : Resp) : (answer r s).noiseB0 = s.noiseB0 := rfl
@[simp] theorem answer_noiseA1 (r : Resp) : (answer r s).noiseA1 = s.noiseA1 := rfl
@[simp] theorem answer_noiseB1 (r : Resp) : (answer r s).noiseB1 = s.noiseB1 := rfl
@[simp] theorem answer_noiseA2 (r : Resp) : (answer r s).noiseA2 = s.noiseA2 := rfl
@[simp] theorem answer_noiseB2 (r : Resp) : (answer r s).noiseB2 = s.noiseB2 := rfl
@[simp] theorem answer_rngState (r : Resp) : (answer r s).rngState = s.rngState := rfl
@[simp] theorem answer_mem (r : Resp) : (answer r s).mem = s.mem := rfl
@[simp] theorem answer_epoch (r : Resp) : (answer r s).epoch = s.epoch := rfl
@[simp] theorem answer_host (r : Resp) : (answer r s).host = s.host := rfl
@[simp] theorem answer_resp (r : Resp) : (answer r s).resp = some r := rfl

-- dropOp
@[simp] theorem dropOp_done : (dropOp s).done = s.done := rfl
@[simp] theorem dropOp_err : (dropOp s).err = s.err := rfl
@[simp] theorem dropOp_domw : (dropOp s).domw = s.domw := rfl
@[simp] theorem dropOp_errInfo : (dropOp s).errInfo = s.errInfo := rfl
@[simp] theorem dropOp_errCmd : (dropOp s).errCmd = s.errCmd := rfl
@[simp] theorem dropOp_imgH : (dropOp s).imgH = s.imgH := rfl
@[simp] theorem dropOp_imgW : (dropOp s).imgW = s.imgW := rfl
@[simp] theorem dropOp_imgC : (dropOp s).imgC = s.imgC := rfl
@[simp] theorem dropOp_nCp : (dropOp s).nCp = s.nCp := rfl
@[simp] theorem dropOp_nW : (dropOp s).nW = s.nW := rfl
@[simp] theorem dropOp_valid : (dropOp s).valid = s.valid := rfl
@[simp] theorem dropOp_cur : (dropOp s).cur = s.cur := rfl
@[simp] theorem dropOp_noiseVar : (dropOp s).noiseVar = s.noiseVar := rfl
@[simp] theorem dropOp_noiseA0 : (dropOp s).noiseA0 = s.noiseA0 := rfl
@[simp] theorem dropOp_noiseB0 : (dropOp s).noiseB0 = s.noiseB0 := rfl
@[simp] theorem dropOp_noiseA1 : (dropOp s).noiseA1 = s.noiseA1 := rfl
@[simp] theorem dropOp_noiseB1 : (dropOp s).noiseB1 = s.noiseB1 := rfl
@[simp] theorem dropOp_noiseA2 : (dropOp s).noiseA2 = s.noiseA2 := rfl
@[simp] theorem dropOp_noiseB2 : (dropOp s).noiseB2 = s.noiseB2 := rfl
@[simp] theorem dropOp_rngState : (dropOp s).rngState = s.rngState := rfl
@[simp] theorem dropOp_mem : (dropOp s).mem = s.mem := rfl
@[simp] theorem dropOp_epoch : (dropOp s).epoch = s.epoch := rfl
@[simp] theorem dropOp_host : (dropOp s).host = s.host.tail := rfl
@[simp] theorem dropOp_resp : (dropOp s).resp = s.resp := rfl

-- softReset
@[simp] theorem softReset_done : (softReset s).done = State.reset.done := rfl
@[simp] theorem softReset_err : (softReset s).err = State.reset.err := rfl
@[simp] theorem softReset_domw : (softReset s).domw = State.reset.domw := rfl
@[simp] theorem softReset_errInfo : (softReset s).errInfo = State.reset.errInfo := rfl
@[simp] theorem softReset_errCmd : (softReset s).errCmd = State.reset.errCmd := rfl
@[simp] theorem softReset_imgH : (softReset s).imgH = State.reset.imgH := rfl
@[simp] theorem softReset_imgW : (softReset s).imgW = State.reset.imgW := rfl
@[simp] theorem softReset_imgC : (softReset s).imgC = State.reset.imgC := rfl
@[simp] theorem softReset_nCp : (softReset s).nCp = State.reset.nCp := rfl
@[simp] theorem softReset_nW : (softReset s).nW = State.reset.nW := rfl
@[simp] theorem softReset_valid : (softReset s).valid = State.reset.valid := rfl
@[simp] theorem softReset_cur : (softReset s).cur = State.reset.cur := rfl
@[simp] theorem softReset_noiseVar : (softReset s).noiseVar = State.reset.noiseVar := rfl
@[simp] theorem softReset_noiseA0 : (softReset s).noiseA0 = State.reset.noiseA0 := rfl
@[simp] theorem softReset_noiseB0 : (softReset s).noiseB0 = State.reset.noiseB0 := rfl
@[simp] theorem softReset_noiseA1 : (softReset s).noiseA1 = State.reset.noiseA1 := rfl
@[simp] theorem softReset_noiseB1 : (softReset s).noiseB1 = State.reset.noiseB1 := rfl
@[simp] theorem softReset_noiseA2 : (softReset s).noiseA2 = State.reset.noiseA2 := rfl
@[simp] theorem softReset_noiseB2 : (softReset s).noiseB2 = State.reset.noiseB2 := rfl
@[simp] theorem softReset_rngState : (softReset s).rngState = State.reset.rngState := rfl
@[simp] theorem softReset_mem : (softReset s).mem = s.mem := rfl
@[simp] theorem softReset_epoch : (softReset s).epoch = s.epoch := rfl
@[simp] theorem softReset_host : (softReset s).host = s.host := rfl
@[simp] theorem softReset_resp : (softReset s).resp = s.resp := rfl

-- hardReset
@[simp] theorem hardReset_done : (hardReset s).done = State.reset.done := rfl
@[simp] theorem hardReset_err : (hardReset s).err = State.reset.err := rfl
@[simp] theorem hardReset_domw : (hardReset s).domw = State.reset.domw := rfl
@[simp] theorem hardReset_errInfo : (hardReset s).errInfo = State.reset.errInfo := rfl
@[simp] theorem hardReset_errCmd : (hardReset s).errCmd = State.reset.errCmd := rfl
@[simp] theorem hardReset_imgH : (hardReset s).imgH = State.reset.imgH := rfl
@[simp] theorem hardReset_imgW : (hardReset s).imgW = State.reset.imgW := rfl
@[simp] theorem hardReset_imgC : (hardReset s).imgC = State.reset.imgC := rfl
@[simp] theorem hardReset_nCp : (hardReset s).nCp = State.reset.nCp := rfl
@[simp] theorem hardReset_nW : (hardReset s).nW = State.reset.nW := rfl
@[simp] theorem hardReset_valid : (hardReset s).valid = State.reset.valid := rfl
@[simp] theorem hardReset_cur : (hardReset s).cur = State.reset.cur := rfl
@[simp] theorem hardReset_noiseVar : (hardReset s).noiseVar = State.reset.noiseVar := rfl
@[simp] theorem hardReset_noiseA0 : (hardReset s).noiseA0 = State.reset.noiseA0 := rfl
@[simp] theorem hardReset_noiseB0 : (hardReset s).noiseB0 = State.reset.noiseB0 := rfl
@[simp] theorem hardReset_noiseA1 : (hardReset s).noiseA1 = State.reset.noiseA1 := rfl
@[simp] theorem hardReset_noiseB1 : (hardReset s).noiseB1 = State.reset.noiseB1 := rfl
@[simp] theorem hardReset_noiseA2 : (hardReset s).noiseA2 = State.reset.noiseA2 := rfl
@[simp] theorem hardReset_noiseB2 : (hardReset s).noiseB2 = State.reset.noiseB2 := rfl
@[simp] theorem hardReset_rngState : (hardReset s).rngState = State.reset.rngState := rfl
@[simp] theorem hardReset_mem : (hardReset s).mem = [] := rfl
@[simp] theorem hardReset_epoch : (hardReset s).epoch = s.epoch + 1 := rfl
@[simp] theorem hardReset_host : (hardReset s).host = s.host := rfl
@[simp] theorem hardReset_resp : (hardReset s).resp = s.resp := rfl

/-- The shape is read from two registers only. -/
theorem elements_congr {s t : State} (hH : t.imgH = s.imgH) (hW : t.imgW = s.imgW) :
    t.elements = s.elements := by
  simp [State.elements, State.pixels, hH, hW]

end Sys2Proof.Machine
end

