-- ==== Sys2Proof/Laws/Memory.lean ====
section
/-! SUPPORT. Memory: read after write, every other byte alone, the canonical form kept; and what a store
of one element or of a whole image does, each said once. -/

namespace Sys2Proof.Machine

/-! ### One byte -/

theorem memGet_memSet_same (m : Memory) (a : Nat) (b : Byte) : memGet (memSet m a b) a = some b := by
  induction m with
  | nil => simp [memSet, memGet]
  | cons kc m ih =>
    obtain ⟨k, c⟩ := kc
    simp only [memSet]
    split
    · simp [memGet]
    · split
      · simp [memGet]
      · have : k ≠ a := fun h => by omega
        simp [memGet, this, ih]

theorem memGet_memSet_other (m : Memory) {a x : Nat} (b : Byte) (h : x ≠ a) :
    memGet (memSet m a b) x = memGet m x := by
  induction m with
  | nil => simp [memSet, memGet, Ne.symm h]
  | cons kc m ih =>
    obtain ⟨k, c⟩ := kc
    simp only [memSet]
    split
    · simp [memGet, Ne.symm h]
    · split
      · next h2 => subst h2; simp [memGet, Ne.symm h]
      · simp [memGet, ih]

theorem memGet_memSet (m : Memory) (a x : Nat) (b : Byte) :
    memGet (memSet m a b) x = if x = a then some b else memGet m x := by
  split
  · next h => subst h; exact memGet_memSet_same m x b
  · next h => exact memGet_memSet_other m b h

/-! ### The canonical form -/

theorem risesFrom_memSet {m : Memory} {lo a : Nat} {b : Byte} (h : risesFrom lo m = true) (ha : lo ≤ a) :
    risesFrom lo (memSet m a b) = true := by
  induction m generalizing lo with
  | nil => simp [memSet, risesFrom, ha]
  | cons kc m ih =>
    obtain ⟨k, c⟩ := kc
    simp only [risesFrom, Bool.and_eq_true, decide_eq_true_eq] at h
    simp only [memSet]
    split
    · next h1 => simp [risesFrom, ha, h.2]; omega
    · split
      · next h2 => subst h2; simp [risesFrom, ha, h.2]
      · next h1 h2 => simp [risesFrom, h.1]; exact ih h.2 (by omega)

theorem wf_memSet {m : Memory} (a : Nat) (b : Byte) (h : m.wf = true) : Memory.wf (memSet m a b) = true :=
  risesFrom_memSet h (Nat.zero_le a)

theorem wf_memSetWord {m : Memory} (a : Nat) (w : Word) (h : m.wf = true) :
    Memory.wf (memSetWord m a w) = true :=
  wf_memSet _ _ (wf_memSet _ _ (wf_memSet _ _ (wf_memSet _ _ h)))

theorem wf_memSetWords {m : Memory} (a : Nat) (ws : List Word) (h : m.wf = true) :
    Memory.wf (memSetWords m a ws) = true := by
  induction ws generalizing m a with
  | nil => exact h
  | cons w ws ih => exact ih _ (wf_memSetWord a w h)

theorem wf_memSetBytes {m : Memory} (a : Nat) (bs : List Byte) (h : m.wf = true) :
    Memory.wf (memSetBytes m a bs) = true := by
  induction bs generalizing m a with
  | nil => exact h
  | cons b bs ih => exact ih _ (wf_memSet a b h)

/-- In the canonical form an address below the first one is not listed. -/
theorem memGet_of_risesFrom {m : Memory} {lo a : Nat} (h : risesFrom lo m = true) (ha : a < lo) :
    memGet m a = none := by
  induction m generalizing lo with
  | nil => rfl
  | cons kc m ih =>
    obtain ⟨k, c⟩ := kc
    simp only [risesFrom, Bool.and_eq_true, decide_eq_true_eq] at h
    have hk : k ≠ a := by omega
    simp [memGet, hk, ih h.2 (by omega)]

/-- Two memories in canonical form that list the same bytes are the same list. -/
theorem memory_ext {m n : Memory} (hm : m.wf = true) (hn : n.wf = true)
    (h : ∀ a, memGet m a = memGet n a) : m = n := by
  have key : ∀ (m n : Memory) (lo : Nat), risesFrom lo m = true → risesFrom lo n = true →
      (∀ a, memGet m a = memGet n a) → m = n := by
    intro m
    induction m with
    | nil =>
      intro n lo _ _ h
      cases n with
      | nil => rfl
      | cons kc n => have := h kc.1; simp [memGet] at this
    | cons kc m ih =>
      obtain ⟨k, c⟩ := kc
      intro n lo hm hn h
      cases n with
      | nil => have := h k; simp [memGet] at this
      | cons kc' n =>
        obtain ⟨k', c'⟩ := kc'
        simp only [risesFrom, Bool.and_eq_true, decide_eq_true_eq] at hm hn
        have hk : k = k' := by
          rcases Nat.lt_trichotomy k k' with hlt | heq | hgt
          · have h1 := h k
            have h2 : memGet n k = none := memGet_of_risesFrom hn.2 (by omega)
            have h3 : k' ≠ k := by omega
            simp [memGet, h2, h3] at h1
          · exact heq
          · have h1 := h k'
            have h2 : memGet m k' = none := memGet_of_risesFrom hm.2 (by omega)
            have h3 : k ≠ k' := by omega
            simp [memGet, h2, h3] at h1
        subst hk
        have hc : c = c' := by have := h k; simpa [memGet] using this
        subst hc
        congr 1
        refine ih n (k + 1) hm.2 hn.2 fun a => ?_
        rcases eq_or_ne k a with rfl | hne
        · rw [memGet_of_risesFrom hm.2 (Nat.lt_succ_self _), memGet_of_risesFrom hn.2 (Nat.lt_succ_self _)]
        · have := h a; simpa [memGet, hne] using this
  exact key m n 0 hm hn h

/-! ### Elements and runs of elements -/

/-- The bytes a 32-bit store lists, and no others. -/
theorem memGet_memSetWord (m : Memory) (a x : Nat) (w : Word) :
    memGet (memSetWord m a w) x =
      if a ≤ x ∧ x < a + 4 then some (byteOf w (x - a)) else memGet m x := by
  simp only [memSetWord, memGet_memSet]
  split
  · next h => subst h; simp
  · split
    · next h => subst h; simp
    · split
      · next h => subst h; simp
      · split
        · next h => subst h; simp
        · rw [if_neg (by omega)]

theorem memGet_memSetWord_in (m : Memory) (a i : Nat) (w : Word) (h : i < 4) :
    memGet (memSetWord m a w) (a + i) = some (byteOf w i) := by
  rw [memGet_memSetWord, if_pos (by omega), Nat.add_sub_cancel_left]

theorem memGet_memSetWords_outside (m : Memory) (a x : Nat) (ws : List Word)
    (h : ¬(a ≤ x ∧ x < a + 4 * ws.length)) : memGet (memSetWords m a ws) x = memGet m x := by
  induction ws generalizing m a with
  | nil => rfl
  | cons w ws ih =>
    simp only [List.length_cons] at h
    rw [memSetWords, ih _ _ (by omega), memGet_memSetWord, if_neg (by omega)]

theorem memGet_memSetWords_in (m : Memory) (a e i : Nat) (ws : List Word) (he : e < ws.length)
    (hi : i < 4) : memGet (memSetWords m a ws) (a + 4 * e + i) = some (byteOf ws[e] i) := by
  induction ws generalizing m a e with
  | nil => simp at he
  | cons w ws ih =>
    cases e with
    | zero =>
      rw [memSetWords, memGet_memSetWords_outside _ _ _ _ (by omega)]
      simpa using memGet_memSetWord_in m a i w hi
    | succ e =>
      have := ih (memSetWord m a w) (a + 4) e (by simpa using he)
      rw [memSetWords, show a + 4 * (e + 1) + i = a + 4 + 4 * e + i by omega, this]
      simp

theorem memGet_memSetBytes_outside (m : Memory) (a x : Nat) (bs : List Byte)
    (h : ¬(a ≤ x ∧ x < a + bs.length)) : memGet (memSetBytes m a bs) x = memGet m x := by
  induction bs generalizing m a with
  | nil => rfl
  | cons b bs ih =>
    simp only [List.length_cons] at h
    rw [memSetBytes, ih _ _ (by omega), memGet_memSet_other _ _ (by omega)]

theorem memGet_memSetBytes_in (m : Memory) (a e : Nat) (bs : List Byte) (he : e < bs.length) :
    memGet (memSetBytes m a bs) (a + e) = some bs[e] := by
  induction bs generalizing m a e with
  | nil => simp at he
  | cons b bs ih =>
    cases e with
    | zero =>
      rw [memSetBytes, memGet_memSetBytes_outside _ _ _ _ (by omega)]
      simpa using memGet_memSet_same m a b
    | succ e =>
      have := ih (memSet m a b) (a + 1) e (by simpa using he)
      rw [memSetBytes, show a + (e + 1) = a + 1 + e by omega, this]
      simp

/-! ### Reads of the state -/

/-- Two states that list the same byte, in the same epoch, read it alike. -/
theorem byteAt_congr (P : Params) {s t : State} {a : Nat} (hm : memGet t.mem a = memGet s.mem a)
    (he : t.epoch = s.epoch) : t.byteAt P a = s.byteAt P a := by
  simp [State.byteAt, hm, he]

theorem byteAt_of_memGet (P : Params) {s : State} {a : Nat} {b : Byte} (h : memGet s.mem a = some b) :
    s.byteAt P a = b := by
  simp [State.byteAt, h]

theorem wordAt_congr (P : Params) {s t : State} {a : Nat}
    (h : ∀ i, i < 4 → t.byteAt P (a + i) = s.byteAt P (a + i)) : t.wordAt P a = s.wordAt P a := by
  have h0 := h 0 (by omega)
  have h1 := h 1 (by omega)
  have h2 := h 2 (by omega)
  have h3 := h 3 (by omega)
  rw [Nat.add_zero] at h0
  simp [State.wordAt, h0, h1, h2, h3]

/-- The four bytes of an element make it up again. -/
theorem wordAt_of_bytes (P : Params) {s : State} {a : Nat} {w : Word}
    (h : ∀ i, i < 4 → memGet s.mem (a + i) = some (byteOf w i)) : s.wordAt P a = w := by
  have h0 := byteAt_of_memGet P (h 0 (by omega))
  have h1 := byteAt_of_memGet P (h 1 (by omega))
  have h2 := byteAt_of_memGet P (h 2 (by omega))
  have h3 := byteAt_of_memGet P (h 3 (by omega))
  rw [Nat.add_zero] at h0
  apply BitVec.eq_of_toNat_eq
  have hw := w.isLt
  simp only [State.wordAt, h0, h1, h2, h3, byteOf, BitVec.toNat_ofNat]
  norm_num at hw ⊢
  omega

theorem wordAt_setWord (P : Params) (s : State) (a : Nat) (w : Word) : (s.setWord a w).wordAt P a = w :=
  wordAt_of_bytes P fun i hi => memGet_memSetWord_in s.mem a i w hi

theorem byteAt_setWord_outside (P : Params) (s : State) (a x : Nat) (w : Word)
    (h : ¬(a ≤ x ∧ x < a + 4)) : (s.setWord a w).byteAt P x = s.byteAt P x :=
  byteAt_congr P (by simp [memGet_memSetWord, h]) rfl

theorem byteAt_setByte (P : Params) (s : State) (a x : Nat) (b : Byte) :
    (s.setByte a b).byteAt P x = if x = a then b else s.byteAt P x := by
  by_cases h : x = a
  · simp [State.byteAt, memGet_memSet, h]
  · simp [State.byteAt, memGet_memSet, h]

/-! ### Storing an image -/

theorem floatElem_storeFloats (P : Params) (s : State) (b : Buf) (f : Nat → Word) (e : Nat)
    (he : e < s.elements) : (s.storeFloats b f).floatElem P b e = f e := by
  refine wordAt_of_bytes P fun i hi => ?_
  have := memGet_memSetWords_in s.mem b.base e i ((List.range s.elements).map f) (by simpa using he) hi
  simpa using this

theorem byteAt_storeFloats_outside (P : Params) (s : State) (b : Buf) (f : Nat → Word) (x : Nat)
    (h : ¬(b.base ≤ x ∧ x < b.base + 4 * s.elements)) : (s.storeFloats b f).byteAt P x = s.byteAt P x :=
  byteAt_congr P (by simpa using memGet_memSetWords_outside s.mem b.base x _ (by simpa using h)) rfl

theorem u8outElem_storeBytes (P : Params) (s : State) (f : Nat → Byte) (e : Nat)
    (he : e < s.elements) : (s.storeBytes f).u8outElem P e = f e := by
  refine byteAt_of_memGet P ?_
  have := memGet_memSetBytes_in s.mem Region.u8out.base e ((List.range s.elements).map f) (by simpa using he)
  simpa using this

theorem byteAt_storeBytes_outside (P : Params) (s : State) (f : Nat → Byte) (x : Nat)
    (h : ¬(Region.u8out.base ≤ x ∧ x < Region.u8out.base + s.elements)) :
    (s.storeBytes f).byteAt P x = s.byteAt P x :=
  byteAt_congr P (by simpa using memGet_memSetBytes_outside s.mem Region.u8out.base x _ (by simpa using h)) rfl

end Sys2Proof.Machine
end

