-- ==== Sys2Proof/Laws/Image.lean ====
section
/-! SUPPORT. Indices of the image and places of the regions: the element index of 10_state.md R58 and its
inverse, and that the buffers and tables are apart. -/

namespace Sys2Proof.Machine

/-! ### Element indices -/

theorem elemIndex_lt {s : State} {r c ch : Nat} (h : InImage s r c ch) :
    elemIndex s.imgW.toNat r c ch < s.elements := by
  obtain ⟨hr, hc, hch⟩ := h
  simp only [elemIndex, State.elements, State.pixels]
  have h1 : (r + 1) * s.imgW.toNat ≤ s.imgH.toNat * s.imgW.toNat := Nat.mul_le_mul_right _ hr
  rw [Nat.add_mul, Nat.one_mul] at h1
  omega

theorem elemIndex_div (w r c ch : Nat) (h : ch < 3) : elemIndex w r c ch / 3 = r * w + c := by
  simp only [elemIndex]; omega

theorem chanOf_elemIndex (w r c ch : Nat) (h : ch < 3) : chanOf (elemIndex w r c ch) = ch := by
  simp only [chanOf, elemIndex]; omega

theorem rowOf_elemIndex (w r c ch : Nat) (hc : c < w) (h : ch < 3) : rowOf w (elemIndex w r c ch) = r := by
  rw [rowOf, elemIndex_div w r c ch h, Nat.mul_comm, Nat.mul_add_div (by omega), Nat.div_eq_of_lt hc,
    Nat.add_zero]

theorem colOf_elemIndex (w r c ch : Nat) (hc : c < w) (h : ch < 3) : colOf w (elemIndex w r c ch) = c := by
  rw [colOf, elemIndex_div w r c ch h, Nat.mul_comm, Nat.mul_add_mod, Nat.mod_eq_of_lt hc]

/-- Every element of the image is the sample of some `(r, c, ch)`. -/
theorem exists_sample_of_lt {s : State} {e : Nat} (h : e < s.elements) :
    ∃ r c ch, InImage s r c ch ∧ elemIndex s.imgW.toNat r c ch = e := by
  simp only [State.elements, State.pixels] at h
  have hp : e / 3 < s.imgH.toNat * s.imgW.toNat := by omega
  have hw : 0 < s.imgW.toNat := by
    rcases Nat.eq_zero_or_pos s.imgW.toNat with h0 | h0
    · rw [h0, Nat.mul_zero] at hp; omega
    · exact h0
  refine ⟨e / 3 / s.imgW.toNat, e / 3 % s.imgW.toNat, e % 3,
    ⟨Nat.div_lt_of_lt_mul (by rwa [Nat.mul_comm] at hp), Nat.mod_lt _ hw, Nat.mod_lt _ (by decide)⟩, ?_⟩
  have := Nat.div_add_mod (e / 3) s.imgW.toNat
  rw [elemIndex, Nat.mul_comm (e / 3 / s.imgW.toNat), this]
  omega

/-- The pixel of a sample, by the three samples at its row and column. -/
theorem pixelOf_elemIndex (P : Params) (s : State) (b : Buf) (r c ch : Nat) (h : ch < 3) :
    s.pixelOf P b (elemIndex s.imgW.toNat r c ch) =
      ⟨s.sample P b r c 0, s.sample P b r c 1, s.sample P b r c 2⟩ := by
  simp only [State.pixelOf, State.sample, elemIndex_div _ r c ch h]
  simp only [elemIndex, Nat.mul_comm 3, Nat.add_zero]

theorem chan_samples (f : Nat → Word) {j : Nat} (h : j < 3) :
    Rgb.chan ⟨f 0, f 1, f 2⟩ j = f j := by
  rcases j with _ | _ | _ | j
  · rfl
  · rfl
  · rfl
  · omega

theorem tableRow_chan (P : Params) (s : State) (t : Region) (a : Nat) {j : Nat} (h : j < 3) :
    (s.tableRow P t a).chan j = s.tableElem P t a j :=
  chan_samples (s.tableElem P t a) h

/-- `DOMW`'s condition over elements and over samples. -/
theorem anyOutOfRange_iff (s : State) : anyOutOfRange ipa s s.cur = true ↔ SomeOutOfRange s := by
  simp only [anyOutOfRange, List.any_eq_true, List.mem_range, SomeOutOfRange, State.sample]
  constructor
  · rintro ⟨e, he, ho⟩
    obtain ⟨r, c, ch, hi, rfl⟩ := exists_sample_of_lt he
    exact ⟨r, c, ch, hi, ho⟩
  · rintro ⟨r, c, ch, hi, ho⟩
    exact ⟨_, elemIndex_lt hi, ho⟩

/-! ### Capacities and places -/

theorem pixMax_pos : 0 < Config.pixMax := Nat.succ_pos _

theorem nMax_pos : 0 < Config.nMax := Nat.succ_pos _

/-- `12 * PIXMAX <= 2^28` (00_scope.md R9). -/
theorem pixMax_le : 12 * Config.pixMax ≤ 2 ^ 28 := by
  have := Config.pixMaxParam.isLt
  simp only [Config.pixMax]; omega

/-- `12 * NMAX <= 2^28` (00_scope.md R9). -/
theorem nMax_le : 12 * Config.nMax ≤ 2 ^ 28 := by
  have := Config.nMaxParam.isLt
  simp only [Config.nMax]; omega

theorem base_f0 : Buf.f0.base = 0x80000000 := rfl
theorem base_f1 : Buf.f1.base = 0x90000000 := rfl
theorem base_u8in : Region.u8in.base = 0x60000000 := rfl
theorem base_u8out : Region.u8out.base = 0x70000000 := rfl

theorem other_other (b : Buf) : b.other.other = b := by cases b <;> rfl

theorem other_ne (b : Buf) : b.other ≠ b := by cases b <;> decide

/-- A float buffer starts above every table and 8-bit buffer. -/
theorem le_base (b : Buf) : 0x80000000 ≤ b.base := by
  cases b <;> decide

/-- With the shape in bounds the image part of a float buffer fits below `2^28` bytes. -/
theorem elements_le {s : State} (h : ShapeOk s) : 4 * s.elements ≤ 2 ^ 28 := by
  have := pixMax_le
  have := h.2
  simp only [State.elements, State.pixels]; omega

/-- An element of one float buffer is outside the image part of the other (20_memory.md R80). -/
theorem other_buffer_outside {s : State} (hs : ShapeOk s) (b : Buf) {e i : Nat} (he : e < s.elements)
    (hi : i < 4) :
    ¬(b.other.base ≤ b.base + 4 * e + i ∧ b.base + 4 * e + i < b.other.base + 4 * s.elements) := by
  have := elements_le hs
  cases b <;> simp only [Buf.other, base_f0, base_f1] <;> omega

end Sys2Proof.Machine
end

