-- ==== Sys2Proof/Laws/Commands.lean ====
section
/-! SUPPORT. The frame of a command and the body of each command, each said once: when the entry check
passes, what a body leaves in every register, in the buffer it writes and in every other byte. -/

namespace Sys2Proof.Machine

/-! ### The frame -/

theorem runCommand_of_err (P : Params) (i : Instr) (body : State → State) {s : State} (h : s.err = true) :
    runCommand P i body s = s := by
  simp [runCommand, h]

theorem runCommand_of_fault (P : Params) {i : Instr} (body : State → State) {s : State} {f : ErrCode}
    (h : s.err = false) (hf : entryCheck P i s = some f) :
    runCommand P i body s = takeFault f (encode i) s := by
  simp [runCommand, h, hf]

theorem runCommand_of_pass (P : Params) {i : Instr} (body : State → State) {s : State}
    (h : s.err = false) (hf : entryCheck P i s = none) : runCommand P i body s = body s := by
  simp [runCommand, h, hf]

/-- Everything `Exec` can do (46_control.md R191). -/
theorem runCommand_cases (P : Params) (i : Instr) (body : State → State) (s : State) :
    (s.err = true ∧ runCommand P i body s = s) ∨
    (s.err = false ∧ ∃ f, entryCheck P i s = some f ∧ runCommand P i body s = takeFault f (encode i) s) ∨
    (s.err = false ∧ entryCheck P i s = none ∧ runCommand P i body s = body s) := by
  cases h : s.err
  · cases hf : entryCheck P i s with
    | none => exact .inr (.inr ⟨rfl, rfl, runCommand_of_pass P body h hf⟩)
    | some f => exact .inr (.inl ⟨rfl, f, rfl, runCommand_of_fault P body h hf⟩)
  · exact .inl ⟨rfl, runCommand_of_err P i body h⟩

/-- The body of each command but `SRST`. -/
def bodyOf (P : Params) : Instr → State → State
  | .nop      => nopBody
  | .scale    => scaleBody P
  | .tone     => toneBody P
  | .gamut    => gamutBody P
  | .cmat     => cmatBody P
  | .noiseU   => noiseUBody P
  | .noiseS   => noiseSBody P
  | .remosaic => remosaicBody P
  | .descale  => descaleBody P
  | .pipe     => pipeBody P
  | .pipeU    => pipeUBody P
  | .pipeS    => pipeSBody P
  | .srst     => softReset

/-- Every command but `SRST` is its body in the frame. -/
theorem exec_eq_runCommand {i : Instr} (h : i ≠ .srst) (s : State) :
    exec i s = .next (runCommand ipa i (bodyOf ipa i) s) := by
  cases i <;> first | rfl | exact absurd rfl h

theorem exec_srst (s : State) : exec .srst s = .next (softReset s) := rfl

/-- A command that passes its checks runs its body. -/
theorem exec_of_pass {i : Instr} {s : State} (hi : i ≠ .srst) (h : s.err = false)
    (hf : entryCheck ipa i s = none) : exec i s = .next (bodyOf ipa i s) := by
  rw [exec_eq_runCommand hi, runCommand_of_pass ipa _ h hf]

/-- A command that fails a check records the fault. -/
theorem exec_of_fault {i : Instr} {s : State} {f : ErrCode} (hi : i ≠ .srst) (h : s.err = false)
    (hf : entryCheck ipa i s = some f) : exec i s = .next (takeFault f (encode i) s) := by
  rw [exec_eq_runCommand hi, runCommand_of_fault ipa _ h hf]

/-! ### The entry checks -/

theorem shapeBad_eq_false_iff (s : State) : shapeBad ipa s = false ↔ ShapeOk s := by
  rw [shapeBad, Bool.or_eq_false_iff, decide_eq_false_iff_not, Nat.not_lt, bne_eq_false_iff_eq]
  exact Iff.rfl

theorem shapeBad_eq_true_iff (s : State) :
    shapeBad ipa s = true ↔ s.imgC ≠ 3 ∨ Config.pixMax < s.imgH.toNat * s.imgW.toNat := by
  rw [shapeBad, Bool.or_eq_true, decide_eq_true_eq, bne_iff_ne]
  exact Iff.rfl

theorem gamutMissing_eq_false_iff (s : State) : gamutMissing ipa s = false ↔ GamutTablesOk s := by
  simp [gamutMissing, GamutTablesOk, and_assoc]
  exact fun _ _ _ => Iff.rfl

theorem cmatNotFinite_eq_false_iff (s : State) : cmatNotFinite ipa s = false ↔ MatrixFinite s := by
  simp only [cmatNotFinite, List.any_eq_false, List.mem_range, MatrixFinite, State.tableElem,
    Bool.not_eq_true', Bool.not_eq_false]
  constructor
  · intro h j i hj hi
    exact h (j * 3 + i) (by omega)
  · intro h e he
    have := h (e / 3) (e % 3) (by omega) (Nat.mod_lt _ (by decide))
    rwa [Nat.div_add_mod'] at this

theorem varianceBad_eq_false_iff (s : State) : varianceBad s = false ↔ VarianceOk s := by
  simp [varianceBad, VarianceOk]

theorem pairsBad_eq_false_iff (s : State) : pairsBad ipa s = false ↔ PairsOk s := by
  simp [pairsBad, pairBad, PairsOk, and_assoc]

/-- Every check, in one equation: `EntryCheck` passes exactly when no condition of R205 holds. -/
theorem entryCheck_eq_none_iff (P : Params) {i : Instr} (s : State) (h1 : i ≠ .nop) (h2 : i ≠ .srst) :
    entryCheck P i s = none ↔ shapeBad P s = false ∧ inputMissing i s = false ∧ calibBad P i s = false ∧
      singularBad P i s = false ∧ noiseBad P i s = false := by
  simp only [entryCheck, beq_iff_eq, h1, h2, Bool.or_eq_true, or_self, if_false]
  cases shapeBad P s <;> cases inputMissing i s <;> cases calibBad P i s <;> cases singularBad P i s <;>
    cases noiseBad P i s <;> simp

theorem check_scale {s : State} (hs : ShapeOk s) (hv : s.valid.inV = true) :
    entryCheck ipa .scale s = none := by
  rw [entryCheck_eq_none_iff ipa s (by decide) (by decide), shapeBad_eq_false_iff]
  exact ⟨hs, by simp [inputMissing, hv], by simp [calibBad, isPipe], by simp [singularBad, isPipe],
    by simp [noiseBad]⟩

theorem check_descale {s : State} (hs : ShapeOk s) (hv : s.valid.fV = true) :
    entryCheck ipa .descale s = none := by
  rw [entryCheck_eq_none_iff ipa s (by decide) (by decide), shapeBad_eq_false_iff]
  exact ⟨hs, by simp [inputMissing, hv, isPipe], by simp [calibBad, isPipe], by simp [singularBad, isPipe],
    by simp [noiseBad]⟩

theorem check_remosaic {s : State} (hs : ShapeOk s) (hv : s.valid.fV = true) :
    entryCheck ipa .remosaic s = none := by
  rw [entryCheck_eq_none_iff ipa s (by decide) (by decide), shapeBad_eq_false_iff]
  exact ⟨hs, by simp [inputMissing, hv, isPipe], by simp [calibBad, isPipe], by simp [singularBad, isPipe],
    by simp [noiseBad]⟩

theorem check_tone {s : State} (hs : ShapeOk s) (hv : s.valid.fV = true) (ht : s.valid.toneV = true) :
    entryCheck ipa .tone s = none := by
  rw [entryCheck_eq_none_iff ipa s (by decide) (by decide), shapeBad_eq_false_iff]
  exact ⟨hs, by simp [inputMissing, hv, isPipe], by simp [calibBad, isPipe, toneMissing, ht],
    by simp [singularBad, isPipe], by simp [noiseBad]⟩

theorem check_gamut {s : State} (hs : ShapeOk s) (hv : s.valid.fV = true) (hg : GamutTablesOk s) :
    entryCheck ipa .gamut s = none := by
  rw [entryCheck_eq_none_iff ipa s (by decide) (by decide), shapeBad_eq_false_iff]
  exact ⟨hs, by simp [inputMissing, hv, isPipe],
    by simp [calibBad, isPipe, (gamutMissing_eq_false_iff s).mpr hg], by simp [singularBad, isPipe],
    by simp [noiseBad]⟩

theorem check_cmat {s : State} (hs : ShapeOk s) (hv : s.valid.fV = true) (hc : s.valid.cmatV = true)
    (hm : MatrixFinite s) : entryCheck ipa .cmat s = none := by
  rw [entryCheck_eq_none_iff ipa s (by decide) (by decide), shapeBad_eq_false_iff]
  exact ⟨hs, by simp [inputMissing, hv, isPipe], by simp [calibBad, isPipe, cmatMissing, hc],
    by simp [singularBad, (cmatNotFinite_eq_false_iff s).mpr hm], by simp [noiseBad]⟩

theorem check_noiseU {s : State} (hs : ShapeOk s) (hv : s.valid.fV = true) (hn : VarianceOk s) :
    entryCheck ipa .noiseU s = none := by
  rw [entryCheck_eq_none_iff ipa s (by decide) (by decide), shapeBad_eq_false_iff]
  exact ⟨hs, by simp [inputMissing, hv, isPipe], by simp [calibBad, isPipe], by simp [singularBad, isPipe],
    by simp [noiseBad, (varianceBad_eq_false_iff s).mpr hn]⟩

theorem check_noiseS {s : State} (hs : ShapeOk s) (hv : s.valid.fV = true) (hn : PairsOk s) :
    entryCheck ipa .noiseS s = none := by
  rw [entryCheck_eq_none_iff ipa s (by decide) (by decide), shapeBad_eq_false_iff]
  exact ⟨hs, by simp [inputMissing, hv, isPipe], by simp [calibBad, isPipe], by simp [singularBad, isPipe],
    by simp [noiseBad, (pairsBad_eq_false_iff s).mpr hn]⟩

theorem calibBad_pipe {i : Instr} {s : State} (hi : isPipe i = true) (h : PipeTablesOk s) :
    calibBad ipa i s = false := by
  simp [calibBad, hi, toneMissing, cmatMissing, h.1, h.2.2, (gamutMissing_eq_false_iff s).mpr h.2.1]

theorem check_pipe {s : State} (h : PipeReady s) : entryCheck ipa .pipe s = none := by
  rw [entryCheck_eq_none_iff ipa s (by decide) (by decide), shapeBad_eq_false_iff]
  exact ⟨h.1, by simp [inputMissing, h.2.1, isPipe], calibBad_pipe rfl h.2.2.1,
    by simp [singularBad, (cmatNotFinite_eq_false_iff s).mpr h.2.2.2], by simp [noiseBad]⟩

theorem check_pipeU {s : State} (h : PipeReady s) (hn : VarianceOk s) : entryCheck ipa .pipeU s = none := by
  rw [entryCheck_eq_none_iff ipa s (by decide) (by decide), shapeBad_eq_false_iff]
  exact ⟨h.1, by simp [inputMissing, h.2.1, isPipe], calibBad_pipe rfl h.2.2.1,
    by simp [singularBad, (cmatNotFinite_eq_false_iff s).mpr h.2.2.2],
    by simp [noiseBad, (varianceBad_eq_false_iff s).mpr hn]⟩

theorem check_pipeS {s : State} (h : PipeReady s) (hn : PairsOk s) : entryCheck ipa .pipeS s = none := by
  rw [entryCheck_eq_none_iff ipa s (by decide) (by decide), shapeBad_eq_false_iff]
  exact ⟨h.1, by simp [inputMissing, h.2.1, isPipe], calibBad_pipe rfl h.2.2.1,
    by simp [singularBad, (cmatNotFinite_eq_false_iff s).mpr h.2.2.2],
    by simp [noiseBad, (pairsBad_eq_false_iff s).mpr hn]⟩

/-! ### When a check fails (60_exceptions.md R205) -/

theorem check_fails_shape {i : Instr} {s : State} (h1 : i ≠ .nop) (h2 : i ≠ .srst) (hs : ¬ShapeOk s) :
    entryCheck ipa i s = some .shape := by
  have hb : shapeBad ipa s = true := by
    rwa [← Bool.not_eq_false, shapeBad_eq_false_iff]
  simp [entryCheck, h1, h2, hb]

theorem check_fails_seq {i : Instr} {s : State} (h1 : i ≠ .nop) (h2 : i ≠ .srst) (hs : ShapeOk s)
    (hi : inputMissing i s = true) : entryCheck ipa i s = some .seq := by
  simp [entryCheck, h1, h2, (shapeBad_eq_false_iff s).mpr hs, hi]

theorem check_fails_calib {i : Instr} {s : State} (h1 : i ≠ .nop) (h2 : i ≠ .srst) (hs : ShapeOk s)
    (hi : inputMissing i s = false) (hc : calibBad ipa i s = true) : entryCheck ipa i s = some .calib := by
  simp [entryCheck, h1, h2, (shapeBad_eq_false_iff s).mpr hs, hi, hc]

theorem check_fails_singular {i : Instr} {s : State} (h1 : i ≠ .nop) (h2 : i ≠ .srst) (hs : ShapeOk s)
    (hi : inputMissing i s = false) (hc : calibBad ipa i s = false) (hm : singularBad ipa i s = true) :
    entryCheck ipa i s = some .singular := by
  simp [entryCheck, h1, h2, (shapeBad_eq_false_iff s).mpr hs, hi, hc, hm]

theorem check_fails_noise {i : Instr} {s : State} (h1 : i ≠ .nop) (h2 : i ≠ .srst) (hs : ShapeOk s)
    (hi : inputMissing i s = false) (hc : calibBad ipa i s = false) (hm : singularBad ipa i s = false)
    (hn : noiseBad ipa i s = true) : entryCheck ipa i s = some .noise := by
  simp [entryCheck, h1, h2, (shapeBad_eq_false_iff s).mpr hs, hi, hc, hm, hn]

/-! ### What a body leaves in the registers -/

theorem scaleBody_frame (P : Params) (s : State) : scaleBody P s = { s with
    mem := (scaleBody P s).mem, cur := s.cur.other, valid := { s.valid with fV := true }, done := true } :=
  rfl

theorem toneBody_frame (P : Params) (s : State) : toneBody P s = { s with
    mem := (toneBody P s).mem, cur := s.cur.other, valid := { s.valid with fV := true }, done := true,
    domw := s.domw || anyOutOfRange P s s.cur } :=
  rfl

theorem gamutBody_frame (P : Params) (s : State) : gamutBody P s = { s with
    mem := (gamutBody P s).mem, cur := s.cur.other, valid := { s.valid with fV := true }, done := true } :=
  rfl

theorem cmatBody_frame (P : Params) (s : State) : cmatBody P s = { s with
    mem := (cmatBody P s).mem, cur := s.cur.other, valid := { s.valid with fV := true }, done := true } :=
  rfl

theorem remosaicBody_frame (P : Params) (s : State) : remosaicBody P s = { s with
    mem := (remosaicBody P s).mem, cur := s.cur.other, valid := { s.valid with fV := true }, done := true } :=
  rfl

theorem noiseUBody_frame (P : Params) (s : State) : noiseUBody P s = { s with
    mem := (noiseUBody P s).mem, cur := s.cur.other, valid := { s.valid with fV := true }, done := true,
    rngState := rngAfter P s.elements s.rngState } :=
  rfl

theorem noiseSBody_frame (P : Params) (s : State) : noiseSBody P s = { s with
    mem := (noiseSBody P s).mem, cur := s.cur.other, valid := { s.valid with fV := true }, done := true,
    rngState := rngAfter P s.elements s.rngState, domw := s.domw || anyOutOfRange P s s.cur } :=
  rfl

theorem descaleBody_frame (P : Params) (s : State) : descaleBody P s = { s with
    mem := (descaleBody P s).mem, valid := { s.valid with outV := true }, done := true,
    domw := s.domw || anyOutOfRange P s s.cur } :=
  rfl

/-! ### What a body leaves in memory -/

/-- A state whose memory and epoch are those of a stored image reads as that stored image does. -/
theorem floatElem_congr (P : Params) {s t : State} (hm : t.mem = s.mem) (he : t.epoch = s.epoch) (b : Buf)
    (e : Nat) : t.floatElem P b e = s.floatElem P b e := by
  simp [State.floatElem, State.wordAt, State.byteAt, hm, he]

theorem byteAt_same (P : Params) {s t : State} (hm : t.mem = s.mem) (he : t.epoch = s.epoch) (a : Nat) :
    t.byteAt P a = s.byteAt P a := by
  simp [State.byteAt, hm, he]

/-- A stage that stores `f` over buffer `b`, whatever else it writes to registers: its elements. -/
theorem floatElem_of_store (P : Params) {s t : State} {b : Buf} {f : Nat → Word} {e : Nat}
    (hm : t.mem = (s.storeFloats b f).mem) (he : t.epoch = s.epoch) (h : e < s.elements) :
    t.floatElem P b e = f e := by
  rw [floatElem_congr P hm he, floatElem_storeFloats P s b f e h]

theorem byteAt_of_store (P : Params) {s t : State} {b : Buf} {f : Nat → Word} {a : Nat}
    (hm : t.mem = (s.storeFloats b f).mem) (he : t.epoch = s.epoch)
    (h : ¬(b.base ≤ a ∧ a < b.base + 4 * s.elements)) : t.byteAt P a = s.byteAt P a := by
  rw [byteAt_same P hm he, byteAt_storeFloats_outside P s b f a h]

theorem scaleBody_elem (P : Params) (s : State) {e : Nat} (h : e < s.elements) :
    (scaleBody P s).floatElem P s.cur.other e = scaleElem P s e := floatElem_of_store P rfl rfl h

theorem toneBody_elem (P : Params) (s : State) {e : Nat} (h : e < s.elements) :
    (toneBody P s).floatElem P s.cur.other e = toneElem P s e := floatElem_of_store P rfl rfl h

theorem gamutBody_elem (P : Params) (s : State) {e : Nat} (h : e < s.elements) :
    (gamutBody P s).floatElem P s.cur.other e = gamutElem P s e := floatElem_of_store P rfl rfl h

theorem cmatBody_elem (P : Params) (s : State) {e : Nat} (h : e < s.elements) :
    (cmatBody P s).floatElem P s.cur.other e = cmatElem P s e := floatElem_of_store P rfl rfl h

theorem remosaicBody_elem (P : Params) (s : State) {e : Nat} (h : e < s.elements) :
    (remosaicBody P s).floatElem P s.cur.other e = remosaicElem P s e := floatElem_of_store P rfl rfl h

theorem noiseUBody_elem (P : Params) (s : State) {e : Nat} (h : e < s.elements) :
    (noiseUBody P s).floatElem P s.cur.other e = noiseUElem P s e := floatElem_of_store P rfl rfl h

theorem noiseSBody_elem (P : Params) (s : State) {e : Nat} (h : e < s.elements) :
    (noiseSBody P s).floatElem P s.cur.other e = noiseSElem P s e := floatElem_of_store P rfl rfl h

theorem descaleBody_elem (P : Params) (s : State) {e : Nat} (h : e < s.elements) :
    (descaleBody P s).u8outElem P e = descaleElem P s e :=
  u8outElem_storeBytes P s (descaleElem P s) e h

theorem scaleBody_outside (P : Params) (s : State) {a : Nat}
    (h : ¬(s.cur.other.base ≤ a ∧ a < s.cur.other.base + 4 * s.elements)) :
    (scaleBody P s).byteAt P a = s.byteAt P a := byteAt_of_store P rfl rfl h

theorem toneBody_outside (P : Params) (s : State) {a : Nat}
    (h : ¬(s.cur.other.base ≤ a ∧ a < s.cur.other.base + 4 * s.elements)) :
    (toneBody P s).byteAt P a = s.byteAt P a := byteAt_of_store P rfl rfl h

theorem gamutBody_outside (P : Params) (s : State) {a : Nat}
    (h : ¬(s.cur.other.base ≤ a ∧ a < s.cur.other.base + 4 * s.elements)) :
    (gamutBody P s).byteAt P a = s.byteAt P a := byteAt_of_store P rfl rfl h

theorem cmatBody_outside (P : Params) (s : State) {a : Nat}
    (h : ¬(s.cur.other.base ≤ a ∧ a < s.cur.other.base + 4 * s.elements)) :
    (cmatBody P s).byteAt P a = s.byteAt P a := byteAt_of_store P rfl rfl h

theorem remosaicBody_outside (P : Params) (s : State) {a : Nat}
    (h : ¬(s.cur.other.base ≤ a ∧ a < s.cur.other.base + 4 * s.elements)) :
    (remosaicBody P s).byteAt P a = s.byteAt P a := byteAt_of_store P rfl rfl h

theorem noiseUBody_outside (P : Params) (s : State) {a : Nat}
    (h : ¬(s.cur.other.base ≤ a ∧ a < s.cur.other.base + 4 * s.elements)) :
    (noiseUBody P s).byteAt P a = s.byteAt P a := byteAt_of_store P rfl rfl h

theorem noiseSBody_outside (P : Params) (s : State) {a : Nat}
    (h : ¬(s.cur.other.base ≤ a ∧ a < s.cur.other.base + 4 * s.elements)) :
    (noiseSBody P s).byteAt P a = s.byteAt P a := byteAt_of_store P rfl rfl h

theorem descaleBody_outside (P : Params) (s : State) {a : Nat}
    (h : ¬(Region.u8out.base ≤ a ∧ a < Region.u8out.base + s.elements)) :
    (descaleBody P s).byteAt P a = s.byteAt P a :=
  byteAt_storeBytes_outside P s (descaleElem P s) a h

/-! ### What a body keeps of the shape, the tables and the checks -/

/-- The registers that the checks and the element counts read, `VALID` bits 0 to 4 among them, are the
same in two states. -/
structure SameSetup (s t : State) : Prop where
  imgH  : t.imgH = s.imgH
  imgW  : t.imgW = s.imgW
  imgC  : t.imgC = s.imgC
  nCp   : t.nCp = s.nCp
  nW    : t.nW = s.nW
  toneV : t.valid.toneV = s.valid.toneV
  cpV   : t.valid.cpV = s.valid.cpV
  wtV   : t.valid.wtV = s.valid.wtV
  cmatV : t.valid.cmatV = s.valid.cmatV
  inV   : t.valid.inV = s.valid.inV
  var   : t.noiseVar = s.noiseVar
  pairs : ∀ c, t.noiseA c = s.noiseA c ∧ t.noiseB c = s.noiseB c
  err   : t.err = s.err

theorem SameSetup.refl (s : State) : SameSetup s s :=
  ⟨rfl, rfl, rfl, rfl, rfl, rfl, rfl, rfl, rfl, rfl, rfl, fun _ => ⟨rfl, rfl⟩, rfl⟩

theorem SameSetup.trans {s t u : State} (h : SameSetup s t) (g : SameSetup t u) : SameSetup s u :=
  ⟨g.imgH.trans h.imgH, g.imgW.trans h.imgW, g.imgC.trans h.imgC, g.nCp.trans h.nCp, g.nW.trans h.nW,
    g.toneV.trans h.toneV, g.cpV.trans h.cpV, g.wtV.trans h.wtV, g.cmatV.trans h.cmatV, g.inV.trans h.inV,
    g.var.trans h.var, fun c => ⟨(g.pairs c).1.trans (h.pairs c).1, (g.pairs c).2.trans (h.pairs c).2⟩,
    g.err.trans h.err⟩

theorem sameSetup_scale (P : Params) (s : State) : SameSetup s (scaleBody P s) :=
  ⟨rfl, rfl, rfl, rfl, rfl, rfl, rfl, rfl, rfl, rfl, rfl, fun _ => ⟨rfl, rfl⟩, rfl⟩
theorem sameSetup_tone (P : Params) (s : State) : SameSetup s (toneBody P s) :=
  ⟨rfl, rfl, rfl, rfl, rfl, rfl, rfl, rfl, rfl, rfl, rfl, fun _ => ⟨rfl, rfl⟩, rfl⟩
theorem sameSetup_gamut (P : Params) (s : State) : SameSetup s (gamutBody P s) :=
  ⟨rfl, rfl, rfl, rfl, rfl, rfl, rfl, rfl, rfl, rfl, rfl, fun _ => ⟨rfl, rfl⟩, rfl⟩
theorem sameSetup_cmat (P : Params) (s : State) : SameSetup s (cmatBody P s) :=
  ⟨rfl, rfl, rfl, rfl, rfl, rfl, rfl, rfl, rfl, rfl, rfl, fun _ => ⟨rfl, rfl⟩, rfl⟩
theorem sameSetup_remosaic (P : Params) (s : State) : SameSetup s (remosaicBody P s) :=
  ⟨rfl, rfl, rfl, rfl, rfl, rfl, rfl, rfl, rfl, rfl, rfl, fun _ => ⟨rfl, rfl⟩, rfl⟩
theorem sameSetup_noiseU (P : Params) (s : State) : SameSetup s (noiseUBody P s) :=
  ⟨rfl, rfl, rfl, rfl, rfl, rfl, rfl, rfl, rfl, rfl, rfl, fun _ => ⟨rfl, rfl⟩, rfl⟩
theorem sameSetup_noiseS (P : Params) (s : State) : SameSetup s (noiseSBody P s) :=
  ⟨rfl, rfl, rfl, rfl, rfl, rfl, rfl, rfl, rfl, rfl, rfl, fun _ => ⟨rfl, rfl⟩, rfl⟩
theorem sameSetup_descale (P : Params) (s : State) : SameSetup s (descaleBody P s) :=
  ⟨rfl, rfl, rfl, rfl, rfl, rfl, rfl, rfl, rfl, rfl, rfl, fun _ => ⟨rfl, rfl⟩, rfl⟩

theorem SameSetup.elements {s t : State} (h : SameSetup s t) : t.elements = s.elements :=
  elements_congr h.imgH h.imgW

theorem SameSetup.shapeOk {s t : State} (h : SameSetup s t) (hs : ShapeOk s) : ShapeOk t := by
  simpa [ShapeOk, h.imgC, h.imgH, h.imgW] using hs

theorem SameSetup.gamutTablesOk {s t : State} (h : SameSetup s t) (hs : GamutTablesOk s) :
    GamutTablesOk t := by
  simpa [GamutTablesOk, h.cpV, h.wtV, h.nCp, h.nW] using hs

theorem SameSetup.varianceOk {s t : State} (h : SameSetup s t) (hs : VarianceOk s) : VarianceOk t := by
  simpa [VarianceOk, h.var] using hs

theorem SameSetup.pairsOk {s t : State} (h : SameSetup s t) (hs : PairsOk s) : PairsOk t := by
  intro c hc
  rw [(h.pairs c).1, (h.pairs c).2]
  exact hs c hc

/-- Reads below the float buffers and `U8OUT` agree. -/
def SameTables (P : Params) (s t : State) : Prop := ∀ a, a < 0x70000000 → t.byteAt P a = s.byteAt P a

theorem SameTables.trans {P : Params} {s t u : State} (h : SameTables P s t) (g : SameTables P t u) :
    SameTables P s u := fun a ha => (g a ha).trans (h a ha)

theorem sameTables_scale (P : Params) (s : State) : SameTables P s (scaleBody P s) := fun a _ =>
  scaleBody_outside P s (by have := le_base s.cur.other; omega)
theorem sameTables_tone (P : Params) (s : State) : SameTables P s (toneBody P s) := fun a _ =>
  toneBody_outside P s (by have := le_base s.cur.other; omega)
theorem sameTables_gamut (P : Params) (s : State) : SameTables P s (gamutBody P s) := fun a _ =>
  gamutBody_outside P s (by have := le_base s.cur.other; omega)
theorem sameTables_cmat (P : Params) (s : State) : SameTables P s (cmatBody P s) := fun a _ =>
  cmatBody_outside P s (by have := le_base s.cur.other; omega)
theorem sameTables_remosaic (P : Params) (s : State) : SameTables P s (remosaicBody P s) := fun a _ =>
  remosaicBody_outside P s (by have := le_base s.cur.other; omega)
theorem sameTables_noiseU (P : Params) (s : State) : SameTables P s (noiseUBody P s) := fun a _ =>
  noiseUBody_outside P s (by have := le_base s.cur.other; omega)
theorem sameTables_noiseS (P : Params) (s : State) : SameTables P s (noiseSBody P s) := fun a _ =>
  noiseSBody_outside P s (by have := le_base s.cur.other; omega)

theorem matrixFinite_congr {s t : State} (h : SameTables ipa s t) (hs : MatrixFinite s) : MatrixFinite t := by
  intro j i hj hi
  have : t.tableElem ipa .cmat j i = s.tableElem ipa .cmat j i :=
    wordAt_congr ipa fun k hk => h _ (by simp only [Region.base, Region.number]; omega)
  rw [this]
  exact hs j i hj hi

/-! ### The pipelines -/

theorem frontStages_cur (P : Params) (s : State) : (frontStages P s).cur = s.cur := by
  show s.cur.other.other.other.other = s.cur
  rw [other_other, other_other]

theorem sameSetup_front (P : Params) (s : State) : SameSetup s (frontStages P s) :=
  ((sameSetup_scale P s).trans (sameSetup_tone P _)).trans
    ((sameSetup_gamut P _).trans (sameSetup_cmat P _))

theorem backStages_frame (P : Params) (s : State) : backStages P s = { s with
    mem := (backStages P s).mem, cur := s.cur.other, valid := { s.valid with fV := true, outV := true },
    done := true, domw := (backStages P s).domw } :=
  rfl

theorem noiseU_backStages_frame (P : Params) (s : State) : backStages P (noiseUBody P s) = { s with
    mem := (backStages P (noiseUBody P s)).mem, cur := s.cur.other.other,
    valid := { s.valid with fV := true, outV := true }, done := true,
    rngState := rngAfter P s.elements s.rngState, domw := (backStages P (noiseUBody P s)).domw } :=
  rfl

theorem noiseS_backStages_frame (P : Params) (s : State) : backStages P (noiseSBody P s) = { s with
    mem := (backStages P (noiseSBody P s)).mem, cur := s.cur.other.other,
    valid := { s.valid with fV := true, outV := true }, done := true,
    rngState := rngAfter P s.elements s.rngState, domw := (backStages P (noiseSBody P s)).domw } :=
  rfl

theorem pipeBody_frame (P : Params) (s : State) : pipeBody P s = { s with
    mem := (pipeBody P s).mem, cur := s.cur.other, valid := { s.valid with fV := true, outV := true },
    done := true, domw := (pipeBody P s).domw } := by
  refine (backStages_frame P (frontStages P s)).trans ?_
  rw [frontStages_cur]
  rfl

theorem pipeUBody_frame (P : Params) (s : State) : pipeUBody P s = { s with
    mem := (pipeUBody P s).mem, valid := { s.valid with fV := true, outV := true }, done := true,
    rngState := rngAfter P s.elements s.rngState, domw := (pipeUBody P s).domw } := by
  refine (noiseU_backStages_frame P (frontStages P s)).trans ?_
  rw [frontStages_cur, other_other, (sameSetup_front P s).elements]
  rfl

theorem pipeSBody_frame (P : Params) (s : State) : pipeSBody P s = { s with
    mem := (pipeSBody P s).mem, valid := { s.valid with fV := true, outV := true }, done := true,
    rngState := rngAfter P s.elements s.rngState, domw := (pipeSBody P s).domw } := by
  refine (noiseS_backStages_frame P (frontStages P s)).trans ?_
  rw [frontStages_cur, other_other, (sameSetup_front P s).elements]
  rfl

/-- No body touches the set-up registers (10_state.md R37, R42, 20_memory.md R78). -/
theorem sameSetup_bodyOf (P : Params) {i : Instr} (hi : i ≠ .srst) (s : State) :
    SameSetup s (bodyOf P i s) := by
  have back := fun t => (sameSetup_remosaic P t).trans (sameSetup_descale P _)
  cases i with
  | srst => exact absurd rfl hi
  | nop => exact ⟨rfl, rfl, rfl, rfl, rfl, rfl, rfl, rfl, rfl, rfl, rfl, fun _ => ⟨rfl, rfl⟩, rfl⟩
  | scale => exact sameSetup_scale P s
  | tone => exact sameSetup_tone P s
  | gamut => exact sameSetup_gamut P s
  | cmat => exact sameSetup_cmat P s
  | noiseU => exact sameSetup_noiseU P s
  | noiseS => exact sameSetup_noiseS P s
  | remosaic => exact sameSetup_remosaic P s
  | descale => exact sameSetup_descale P s
  | pipe => exact (sameSetup_front P s).trans (back _)
  | pipeU => exact ((sameSetup_front P s).trans (sameSetup_noiseU P _)).trans (back _)
  | pipeS => exact ((sameSetup_front P s).trans (sameSetup_noiseS P _)).trans (back _)

/-! ### The flags -/

/-- No bit of `DOMW`, `F_V`, `OUT_V` goes from 1 to 0 (10_state.md R29, R37). -/
structure KeepsFlags (s t : State) : Prop where
  domw : s.domw = true → t.domw = true
  fV   : s.valid.fV = true → t.valid.fV = true
  outV : s.valid.outV = true → t.valid.outV = true

theorem KeepsFlags.refl (s : State) : KeepsFlags s s := ⟨id, id, id⟩

theorem KeepsFlags.trans {s t u : State} (h : KeepsFlags s t) (g : KeepsFlags t u) : KeepsFlags s u :=
  ⟨g.domw ∘ h.domw, g.fV ∘ h.fV, g.outV ∘ h.outV⟩

theorem or_true_of_left {a : Bool} (b : Bool) (h : a = true) : (a || b) = true := by rw [h]; rfl

theorem keepsFlags_scale (P : Params) (s : State) : KeepsFlags s (scaleBody P s) := ⟨id, fun _ => rfl, id⟩
theorem keepsFlags_gamut (P : Params) (s : State) : KeepsFlags s (gamutBody P s) := ⟨id, fun _ => rfl, id⟩
theorem keepsFlags_cmat (P : Params) (s : State) : KeepsFlags s (cmatBody P s) := ⟨id, fun _ => rfl, id⟩
theorem keepsFlags_remosaic (P : Params) (s : State) : KeepsFlags s (remosaicBody P s) :=
  ⟨id, fun _ => rfl, id⟩
theorem keepsFlags_noiseU (P : Params) (s : State) : KeepsFlags s (noiseUBody P s) := ⟨id, fun _ => rfl, id⟩
theorem keepsFlags_tone (P : Params) (s : State) : KeepsFlags s (toneBody P s) :=
  ⟨or_true_of_left _, fun _ => rfl, id⟩
theorem keepsFlags_noiseS (P : Params) (s : State) : KeepsFlags s (noiseSBody P s) :=
  ⟨or_true_of_left _, fun _ => rfl, id⟩
theorem keepsFlags_descale (P : Params) (s : State) : KeepsFlags s (descaleBody P s) :=
  ⟨or_true_of_left _, id, fun _ => rfl⟩

theorem keepsFlags_front (P : Params) (s : State) : KeepsFlags s (frontStages P s) :=
  ((keepsFlags_scale P s).trans (keepsFlags_tone P _)).trans
    ((keepsFlags_gamut P _).trans (keepsFlags_cmat P _))

theorem keepsFlags_back (P : Params) (s : State) : KeepsFlags s (backStages P s) :=
  (keepsFlags_remosaic P s).trans (keepsFlags_descale P _)

end Sys2Proof.Machine
end

