-- ==== Sys2Proof/Laws/Float.lean ====
section
/-! SUPPORT. Binary32: the parts of an encoding, that rounding is exact on what is representable and
monotone, that results are NaNs only where they may be, and the small laws of zeros the statements rest
on. -/

namespace Sys2Proof.Machine

/-! ### Encodings -/

/-- The units of 2^-149 that bits 30:0 stand for. -/
def unitsOf (m : Nat) : Nat := if m / 2 ^ 23 = 0 then m % 2 ^ 23 else (2 ^ 23 + m % 2 ^ 23) * 2 ^ (m / 2 ^ 23 - 1)

theorem toNat_withSign (neg : Bool) {m : Nat} (h : m < 2 ^ 31) :
    (withSign neg m).toNat = (if neg then 2 ^ 31 else 0) + m := by
  rw [withSign, BitVec.toNat_ofNat, Nat.mod_eq_of_lt]
  cases neg
  · simp; omega
  · simp; omega

theorem signOf_withSign (neg : Bool) {m : Nat} (h : m < 2 ^ 31) : signOf (withSign neg m) = neg := by
  rw [signOf, toNat_withSign neg h]
  cases neg
  · simpa using h
  · simp

theorem exponentOf_withSign (neg : Bool) {m : Nat} (h : m < 2 ^ 31) :
    exponentOf (withSign neg m) = m / 2 ^ 23 := by
  rw [exponentOf, toNat_withSign neg h]
  cases neg
  · simp; omega
  · simp; omega

theorem fractionOf_withSign (neg : Bool) {m : Nat} (h : m < 2 ^ 31) :
    fractionOf (withSign neg m) = m % 2 ^ 23 := by
  rw [fractionOf, toNat_withSign neg h]
  cases neg
  · simp
  · simp; omega

theorem magnitude_withSign (neg : Bool) {m : Nat} (h : m < 2 ^ 31) :
    magnitude (withSign neg m) = unitsOf m := by
  rw [magnitude, exponentOf_withSign neg h, fractionOf_withSign neg h, unitsOf]

/-- An encoding is its sign and its bits 30:0. -/
theorem withSign_parts (w : Word) : withSign (signOf w) (w.toNat % 2 ^ 31) = w := by
  apply BitVec.eq_of_toNat_eq
  have := w.isLt
  rw [toNat_withSign _ (Nat.mod_lt _ (by decide))]
  simp only [signOf, decide_eq_true_eq]
  split <;> omega

theorem magnitude_eq_unitsOf (w : Word) : magnitude w = unitsOf (w.toNat % 2 ^ 31) := by
  conv_lhs => rw [← withSign_parts w]
  exact magnitude_withSign _ (Nat.mod_lt _ (by decide))

theorem isFinite_withSign (neg : Bool) {m : Nat} (h : m < infMagnitude) : isFinite (withSign neg m) = true := by
  simp only [infMagnitude] at h
  rw [isFinite, exponentOf_withSign neg (by omega)]
  simp; omega

theorem isNaN_withSign (neg : Bool) {m : Nat} (h : m ≤ infMagnitude) : isNaN (withSign neg m) = false := by
  simp only [infMagnitude] at h
  rw [isNaN, exponentOf_withSign neg (by omega), fractionOf_withSign neg (by omega)]
  simp; omega

theorem isInf_withSign_iff (neg : Bool) {m : Nat} (h : m ≤ infMagnitude) :
    isInf (withSign neg m) = true ↔ m = infMagnitude := by
  simp only [infMagnitude] at h ⊢
  rw [isInf, exponentOf_withSign neg (by omega), fractionOf_withSign neg (by omega)]
  simp; omega

theorem isNaN_of_isFinite {w : Word} (h : isFinite w = true) : isNaN w = false := by
  simp only [isFinite, bne_iff_ne] at h
  simp [isNaN, h]

theorem isInf_of_isFinite {w : Word} (h : isFinite w = true) : isInf w = false := by
  simp only [isFinite, bne_iff_ne] at h
  simp [isInf, h]

theorem bits_lt_of_isFinite {w : Word} (h : isFinite w = true) : w.toNat % 2 ^ 31 < infMagnitude := by
  simp only [isFinite, bne_iff_ne, exponentOf] at h
  simp only [infMagnitude]
  have := w.isLt
  omega

/-- Every choice of NaN can be had: `toNaN` is the identity on NaNs. -/
theorem toNaN_of_isNaN {w : Word} (h : isNaN w = true) : toNaN w = w := by
  simp only [isNaN, Bool.and_eq_true, beq_iff_eq, bne_iff_ne, exponentOf, fractionOf] at h
  have hw := w.isLt
  conv_rhs => rw [← withSign_parts w]
  simp only [toNaN, fractionOf, infMagnitude, h.2, if_false]
  congr 1
  omega

/-- The result of `toNaN` is a NaN (00_scope.md R12, 93_implementation_defined.md U6). -/
theorem isNaN_toNaN (w : Word) : isNaN (toNaN w) = true := by
  have hf : fractionOf w < 2 ^ 23 := Nat.mod_lt _ (by decide)
  simp only [toNaN]
  split
  · rw [isNaN, exponentOf_withSign _ (by simp [infMagnitude]), fractionOf_withSign _ (by simp [infMagnitude])]
    simp [infMagnitude]
  · next h0 =>
    rw [isNaN, exponentOf_withSign _ (by simp only [infMagnitude]; omega),
      fractionOf_withSign _ (by simp only [infMagnitude]; omega)]
    simp only [infMagnitude, Bool.and_eq_true, beq_iff_eq, bne_iff_ne]
    omega

/-- Every finite deviate can be had: `toFinite` is the identity on finite values. -/
theorem toFinite_of_isFinite {w : Word} (h : isFinite w = true) : toFinite w = w := by
  simp [toFinite, h]

/-- A deviate is finite (45_noise_adder_prng.md R171 item 2). -/
theorem isFinite_toFinite (w : Word) : isFinite (toFinite w) = true := by
  have hf : fractionOf w < 2 ^ 23 := Nat.mod_lt _ (by decide)
  simp only [toFinite]
  split
  · assumption
  · exact isFinite_withSign _ (by simp only [infMagnitude]; omega)

/-! ### Rounding -/

theorem roundUnits_le (num den : Nat) : roundUnits num den ≤ infMagnitude := Nat.min_le_right _ _

theorem roundUnits_zero (den : Nat) : roundUnits 0 den = 0 := by
  rcases Nat.eq_zero_or_pos den with rfl | h
  · simp [roundUnits]
  · have h1 : ¬0 = den := by omega
    simp [roundUnits, h1]

/-- The encoding before the limit at infinity, as a function of the place kept. -/
def roundAt (num den k : Nat) : Nat :=
  k * 2 ^ 23 + (if (decide (den * 2 ^ k < 2 * (num % (den * 2 ^ k)))
    || (decide (2 * (num % (den * 2 ^ k)) = den * 2 ^ k) && num / (den * 2 ^ k) % 2 == 1)) = true
    then num / (den * 2 ^ k) + 1 else num / (den * 2 ^ k))

theorem roundUnits_eq (num den : Nat) :
    roundUnits num den = min (roundAt num den ((num / den).log2 - 23)) infMagnitude := rfl

theorem div_mul_pow (num den k : Nat) : num / (den * 2 ^ k) = num / den / 2 ^ k := by
  rw [Nat.div_div_eq_div_mul]

/-- The significand kept has at most 24 bits. -/
theorem kept_lt (num den : Nat) : num / (den * 2 ^ ((num / den).log2 - 23)) < 2 ^ 24 := by
  rw [div_mul_pow, Nat.div_lt_iff_lt_mul (by positivity), ← pow_add]
  exact lt_of_lt_of_le Nat.lt_log2_self (Nat.pow_le_pow_right (by decide) (by omega))

/-- And, above the subnormals, at least 24. -/
theorem le_kept {num den : Nat} (h : 0 < (num / den).log2 - 23) :
    2 ^ 23 ≤ num / (den * 2 ^ ((num / den).log2 - 23)) := by
  have h0 : num / den ≠ 0 := by
    intro h0; rw [h0] at h; simp at h
  rw [div_mul_pow, Nat.le_div_iff_mul_le (by positivity), ← pow_add,
    show 23 + ((num / den).log2 - 23) = (num / den).log2 by omega]
  exact Nat.log2_self_le h0

theorem roundAt_bounds (num den k : Nat) :
    k * 2 ^ 23 + num / (den * 2 ^ k) ≤ roundAt num den k ∧
      roundAt num den k ≤ k * 2 ^ 23 + num / (den * 2 ^ k) + 1 := by
  simp only [roundAt]
  split <;> omega

theorem log2_mono {a b : Nat} (h : a ≤ b) : a.log2 ≤ b.log2 := by
  rcases Nat.eq_zero_or_pos a with rfl | ha
  · simp
  · exact (Nat.le_log2 (by omega)).mpr (le_trans (Nat.log2_self_le (by omega)) h)

/-- At one place, rounding to nearest even is monotone. -/
theorem roundAt_mono {a b : Nat} (den k : Nat) (h : a ≤ b) : roundAt a den k ≤ roundAt b den k := by
  have hq : a / (den * 2 ^ k) ≤ b / (den * 2 ^ k) := Nat.div_le_div_right h
  rcases Nat.lt_or_eq_of_le hq with hlt | heq
  · have := (roundAt_bounds a den k).2
    have := (roundAt_bounds b den k).1
    omega
  · have ha := Nat.div_add_mod a (den * 2 ^ k)
    have hb := Nat.div_add_mod b (den * 2 ^ k)
    rw [heq] at ha
    have hr : a % (den * 2 ^ k) ≤ b % (den * 2 ^ k) := by omega
    simp only [roundAt, heq]
    generalize a % (den * 2 ^ k) = x at hr
    generalize b % (den * 2 ^ k) = y at hr
    generalize b / (den * 2 ^ k) = t
    generalize den * 2 ^ k = d
    by_cases h1 : (decide (d < 2 * x) || (decide (2 * x = d) && t % 2 == 1)) = true
    · have h2 : (decide (d < 2 * y) || (decide (2 * y = d) && t % 2 == 1)) = true := by
        simp only [Bool.or_eq_true, Bool.and_eq_true, decide_eq_true_eq, beq_iff_eq] at h1 ⊢
        omega
      rw [if_pos h1, if_pos h2]
    · rw [if_neg h1]
      split <;> omega

/-- Rounding is monotone. -/
theorem roundUnits_mono {a b : Nat} (den : Nat) (h : a ≤ b) : roundUnits a den ≤ roundUnits b den := by
  rw [roundUnits_eq, roundUnits_eq]
  refine min_le_min ?_ le_rfl
  have hl : (a / den).log2 - 23 ≤ (b / den).log2 - 23 :=
    Nat.sub_le_sub_right (log2_mono (Nat.div_le_div_right h)) 23
  rcases Nat.lt_or_eq_of_le hl with hlt | heq
  · have h1 := (roundAt_bounds a den ((a / den).log2 - 23)).2
    have h2 := kept_lt a den
    have h3 := (roundAt_bounds b den ((b / den).log2 - 23)).1
    have h4 := le_kept (num := b) (den := den) (by omega)
    omega
  · rw [heq]
    exact roundAt_mono den _ h

/-- A value at the place kept is not changed. -/
theorem roundAt_exact (t k : Nat) : roundAt (t * 2 ^ k) 1 k = k * 2 ^ 23 + t := by
  have hp : 0 < 2 ^ k := by positivity
  have h1 : t * 2 ^ k / 2 ^ k = t := Nat.mul_div_cancel _ hp
  have h2 : t * 2 ^ k % 2 ^ k = 0 := Nat.mul_mod_left _ _
  simp only [roundAt, Nat.one_mul, h1, h2]
  have : ¬(0 = 2 ^ k) := by omega
  simp [this]

/-- Rounding a representable magnitude gives its own bits (00_scope.md R12: correctly rounded). -/
theorem roundUnits_unitsOf {m : Nat} (h : m < infMagnitude) : roundUnits (unitsOf m) 1 = m := by
  have hm : roundAt (unitsOf m) 1 ((unitsOf m / 1).log2 - 23) = m := by
    rw [Nat.div_one]
    by_cases h0 : m / 2 ^ 23 = 0
    · have hlt : m < 2 ^ 23 := by omega
      have hu : unitsOf m = m := by rw [unitsOf, if_pos h0, Nat.mod_eq_of_lt hlt]
      have hk : m.log2 - 23 = 0 := by
        rcases Nat.eq_zero_or_pos m with rfl | hp
        · simp
        · have := (Nat.log2_lt (by omega)).mpr hlt
          omega
      rw [hu, hk]
      simpa using roundAt_exact m 0
    · have hu : unitsOf m = (2 ^ 23 + m % 2 ^ 23) * 2 ^ (m / 2 ^ 23 - 1) := by rw [unitsOf, if_neg h0]
      have hlog : ((2 ^ 23 + m % 2 ^ 23) * 2 ^ (m / 2 ^ 23 - 1)).log2 = 23 + (m / 2 ^ 23 - 1) := by
        have hne : (2 ^ 23 + m % 2 ^ 23) * 2 ^ (m / 2 ^ 23 - 1) ≠ 0 := by positivity
        apply Nat.le_antisymm
        · refine Nat.lt_succ_iff.mp ((Nat.log2_lt hne).mpr ?_)
          have h24 : 2 ^ 23 + m % 2 ^ 23 < 2 ^ 24 := by omega
          calc (2 ^ 23 + m % 2 ^ 23) * 2 ^ (m / 2 ^ 23 - 1) < 2 ^ 24 * 2 ^ (m / 2 ^ 23 - 1) :=
                Nat.mul_lt_mul_of_pos_right h24 (by positivity)
            _ = 2 ^ (23 + (m / 2 ^ 23 - 1) + 1) := by rw [← pow_add]; congr 1; omega
        · refine (Nat.le_log2 hne).mpr ?_
          rw [pow_add]
          exact Nat.mul_le_mul_right _ (by omega)
      rw [hu, hlog, show 23 + (m / 2 ^ 23 - 1) - 23 = m / 2 ^ 23 - 1 by omega, roundAt_exact]
      omega
  rw [roundUnits_eq, hm]
  omega

/-- A value of at least one unit does not round to zero. -/
theorem roundUnits_pos {v : Nat} (h : 0 < v) : 0 < roundUnits v 1 := by
  have h1 : roundUnits 1 1 = 1 := by decide
  have := roundUnits_mono 1 (show 1 ≤ v from h)
  omega

theorem unitsOf_mono {m n : Nat} (h : m ≤ n) : unitsOf m ≤ unitsOf n := by
  have hs : ∀ m, unitsOf m ≤ unitsOf (m + 1) := by
    intro m
    rcases Nat.lt_or_ge (m % 2 ^ 23 + 1) (2 ^ 23) with hlt | hge
    · have h1 : (m + 1) / 2 ^ 23 = m / 2 ^ 23 := by omega
      have h2 : (m + 1) % 2 ^ 23 = m % 2 ^ 23 + 1 := by omega
      simp only [unitsOf, h1, h2]
      split
      · omega
      · exact Nat.mul_le_mul_right _ (by omega)
    · have h1 : (m + 1) / 2 ^ 23 = m / 2 ^ 23 + 1 := by omega
      have h2 : (m + 1) % 2 ^ 23 = 0 := by omega
      simp only [unitsOf, h1, h2]
      by_cases h0 : m / 2 ^ 23 = 0
      · rw [if_pos h0, h0]; norm_num; omega
      · obtain ⟨e, he⟩ : ∃ e, m / 2 ^ 23 = e + 1 := ⟨m / 2 ^ 23 - 1, by omega⟩
        have hm : 2 ^ 23 + m % 2 ^ 23 ≤ 2 ^ 23 * 2 := by omega
        rw [if_neg h0, if_neg (by omega), he]
        calc (2 ^ 23 + m % 2 ^ 23) * 2 ^ e ≤ 2 ^ 23 * 2 * 2 ^ e := Nat.mul_le_mul_right _ hm
          _ = (2 ^ 23 + 0) * 2 ^ (e + 1) := by ring
  induction n, h using Nat.le_induction with
  | base => exact le_rfl
  | succ n _ ih => exact le_trans ih (hs n)

theorem unitsOf_pos {m : Nat} (h : 0 < m) : 0 < unitsOf m := by
  have := unitsOf_mono (show 1 ≤ m from h)
  have h1 : unitsOf 1 = 1 := by decide
  omega

theorem magnitude_eq_zero_iff (w : Word) : magnitude w = 0 ↔ w.toNat % 2 ^ 31 = 0 := by
  rw [magnitude_eq_unitsOf]
  constructor
  · intro h
    by_contra h0
    have := unitsOf_pos (Nat.pos_of_ne_zero h0)
    omega
  · intro h; rw [h]; decide

/-- The value of a rounded result. -/
theorem signedValue_withSign (neg : Bool) {m : Nat} (h : m < 2 ^ 31) :
    signedValue (withSign neg m) = if neg then -(unitsOf m : Int) else (unitsOf m : Int) := by
  rw [signedValue, signOf_withSign neg h, magnitude_withSign neg h]

/-! ### Comparisons and levels -/

theorem isNaN_fZero : isNaN fZero = false := by decide
theorem signedValue_fZero : signedValue fZero = 0 := by decide

theorem fge_zero_iff (w : Word) : fge w fZero = true ↔ isNaN w = false ∧ 0 ≤ signedValue w := by
  simp [fge, isNaN_fZero, signedValue_fZero]

theorem signedValue_eq_zero_iff (w : Word) : signedValue w = 0 ↔ magnitude w = 0 := by
  simp only [signedValue]
  split <;> omega

/-- `Q255` stays in `0 .. 255` (00_scope.md R13, 41_tone_mapper_lut.md R132). -/
theorem q255_lt (nan : NanChoice) (v : Word) : q255 nan v < 256 := by
  simp only [q255]
  split
  · omega
  · split
    · omega
    · next h0 h1 =>
      have h0' : fge (fmul nan v f255) fZero = true := by simpa using h0
      have hn := ((fge_zero_iff _).mp h0').1
      have h255n : isNaN f255 = false := by decide
      have h255 : signedValue f255 = 255 * 2 ^ 149 := by decide
      simp only [fge, hn, h255n, h255, Bool.not_false, Bool.true_and, decide_eq_true_eq] at h1
      simp only [floorInt]
      have : signedValue (fmul nan v f255) / 2 ^ 149 < 255 := by
        rw [Int.ediv_lt_iff_lt_mul (by positivity)]
        omega
      omega

/-! ### Zeros -/

/-- A finite number times a zero is a zero. -/
theorem fmul_zero_right (nan : NanChoice) {a b : Word} (ha : isFinite a = true) (hb : b.toNat % 2 ^ 31 = 0) :
    fmul nan a b = withSign (signOf a != signOf b) 0 := by
  have hb' : magnitude b = 0 := (magnitude_eq_zero_iff b).mpr hb
  have hbf : isFinite b = true := by
    simp only [isFinite, exponentOf, bne_iff_ne]; omega
  simp [fmul, isNaN_of_isFinite ha, isNaN_of_isFinite hbf, isInf_of_isFinite ha, isInf_of_isFinite hbf, hb',
    roundUnits_zero]

/-- A zero times a finite number is a zero. -/
theorem fmul_zero_left (nan : NanChoice) {a b : Word} (ha : a.toNat % 2 ^ 31 = 0) (hb : isFinite b = true) :
    fmul nan a b = withSign (signOf a != signOf b) 0 := by
  have ha' : magnitude a = 0 := (magnitude_eq_zero_iff a).mpr ha
  have haf : isFinite a = true := by
    simp only [isFinite, exponentOf, bne_iff_ne]; omega
  simp [fmul, isNaN_of_isFinite haf, isNaN_of_isFinite hb, isInf_of_isFinite haf, isInf_of_isFinite hb, ha',
    roundUnits_zero]

/-- Adding a zero of either sign to a number that is not negative and not a NaN gives the number. -/
theorem fadd_zero_right (nan : NanChoice) {v : Word} (hn : isNaN v = false) (hs : signOf v = false)
    (neg : Bool) : fadd nan v (withSign neg 0) = v := by
  have hz : isNaN (withSign neg 0) = false := isNaN_withSign neg (Nat.zero_le _)
  have hzi : isInf (withSign neg 0) = false := by cases neg <;> decide
  have hzv : signedValue (withSign neg 0) = 0 := by cases neg <;> decide
  simp only [fadd, hn, hz, Bool.or_self, Bool.false_eq_true, if_false, addNumbers, hzi, Bool.false_and,
    hzv, Int.add_zero]
  split
  · rfl
  · next hi =>
    have hfin : isFinite v = true := by
      simp only [isNaN, Bool.and_eq_false_iff, beq_eq_false_iff_ne, bne_eq_false_iff_eq] at hn
      simp only [isInf, Bool.and_eq_true, beq_iff_eq, not_and] at hi
      simp only [isFinite, bne_iff_ne]
      omega
    have hbits := bits_lt_of_isFinite hfin
    have hparts := withSign_parts v
    rw [hs] at hparts
    split
    · next h0 =>
      have := (magnitude_eq_zero_iff v).mp ((signedValue_eq_zero_iff v).mp h0)
      rw [this] at hparts
      simpa [hs] using hparts
    · next h0 =>
      have hval : signedValue v = (unitsOf (v.toNat % 2 ^ 31) : Int) := by
        rw [signedValue, hs, magnitude_eq_unitsOf]; rfl
      rw [hval]
      have hneg : decide ((unitsOf (v.toNat % 2 ^ 31) : Int) < 0) = false := by simp
      rw [hneg, Int.natAbs_natCast, roundUnits_unitsOf hbits, hparts]

/-! ### The deviation of `NOISE.S` (45_noise_adder_prng.md R175) -/

/-- The sum of a number and a finite number is not negative when the exact sum is not. -/
theorem fge_fadd_zero (nan : NanChoice) {p b : Word} (hp : isFinite p = true) (hb : isFinite b = true)
    (h : 0 ≤ signedValue p + signedValue b) : fge (fadd nan p b) fZero = true := by
  rw [fge_zero_iff]
  simp only [fadd, isNaN_of_isFinite hp, isNaN_of_isFinite hb, Bool.or_self, Bool.false_eq_true, if_false,
    addNumbers, isInf_of_isFinite hp, isInf_of_isFinite hb]
  split
  · constructor
    · exact isNaN_withSign _ (Nat.zero_le _)
    · rw [signedValue_withSign _ (by decide)]
      split <;> simp [unitsOf]
  · have hle := roundUnits_le (signedValue p + signedValue b).natAbs 1
    have hneg : decide (signedValue p + signedValue b < 0) = false := by simp; omega
    rw [hneg]
    refine ⟨isNaN_withSign _ hle, ?_⟩
    rw [signedValue_withSign _ (by simp only [infMagnitude] at hle; omega)]
    simp

/-- And negative when the exact sum is. -/
theorem not_fge_fadd_zero (nan : NanChoice) {p b : Word} (hp : isFinite p = true) (hb : isFinite b = true)
    (h : signedValue p + signedValue b < 0) : fge (fadd nan p b) fZero = false := by
  rw [Bool.eq_false_iff, Ne, fge_zero_iff, not_and]
  intro _
  simp only [fadd, isNaN_of_isFinite hp, isNaN_of_isFinite hb, Bool.or_self, Bool.false_eq_true, if_false,
    addNumbers, isInf_of_isFinite hp, isInf_of_isFinite hb]
  have hle := roundUnits_le (signedValue p + signedValue b).natAbs 1
  have hpos := roundUnits_pos (show 0 < (signedValue p + signedValue b).natAbs by omega)
  have hd : decide (signedValue p + signedValue b < 0) = true := by simpa using h
  rw [if_neg (by omega), hd, signedValue_withSign _ (by simp only [infMagnitude] at hle; omega)]
  have := unitsOf_pos hpos
  simp
  omega

/-- The root of a number that is not negative is a number. -/
theorem isNaN_fsqrt_of_fge (nan : NanChoice) {v : Word} (h : fge v fZero = true) :
    isNaN (fsqrt nan v) = false := by
  obtain ⟨hn, hv⟩ := (fge_zero_iff v).mp h
  simp only [fsqrt, hn, Bool.false_eq_true, if_false]
  split
  · exact hn
  · next h0 =>
    split
    · next hs =>
      exfalso
      simp only [signedValue, hs, if_true] at hv
      omega
    · split
      · exact hn
      · exact isNaN_withSign _ (roundUnits_le _ _)

/-! ### Results that do not depend on the choice of NaN -/

theorem isNaN_nanResult (nan : NanChoice) (op : FloatOp) (a b : Word) : isNaN (nanResult nan op a b) = true :=
  isNaN_toNaN _

/-- A quotient that is a number does not depend on the choice of NaN. -/
theorem fdiv_congr_nan (nan nan' : NanChoice) {a b : Word} (h : isNaN (fdiv nan' a b) = false) :
    fdiv nan a b = fdiv nan' a b := by
  revert h
  simp only [fdiv]
  split <;> (try split) <;> (try split) <;> (try split) <;> (try split) <;> simp [isNaN_nanResult]

/-- A product that is a number does not depend on the choice of NaN. -/
theorem fmul_congr_nan (nan nan' : NanChoice) {a b : Word} (h : isNaN (fmul nan' a b) = false) :
    fmul nan a b = fmul nan' a b := by
  revert h
  simp only [fmul]
  split <;> (try split) <;> (try split) <;> simp [isNaN_nanResult]

/-- A level of a sample whose product with 255.0 is a number does not depend on the choice of NaN. -/
theorem q255_congr_nan (nan nan' : NanChoice) {v : Word} (h : isNaN (fmul nan' v f255) = false) :
    q255 nan v = q255 nan' v := by
  rw [q255, q255, fmul_congr_nan nan nan' h]

/-- A fixed choice of NaN, to compute with where the choice does not matter. -/
def someNan : NanChoice := fun _ a _ => a

theorem levels_table : ∀ x : Fin 256,
    isNaN (fdiv someNan (u2f x.val) f255) = false ∧
    isNaN (fmul someNan (fdiv someNan (u2f x.val) f255) f255) = false ∧
    q255 someNan (fdiv someNan (u2f x.val) f255) = x.val ∧
    outOfRange (fdiv someNan (u2f x.val) f255) = false ∧
    isFinite (fdiv someNan (u2f x.val) f255) = true := by decide +kernel

theorem fdiv_level (nan : NanChoice) {x : Nat} (h : x < 256) :
    fdiv nan (u2f x) f255 = fdiv someNan (u2f x) f255 :=
  fdiv_congr_nan _ _ (levels_table ⟨x, h⟩).1

/-- The quantiser undoes the scaler on every level (40_scaler.md R125). -/
theorem q255_fdiv_level (nan : NanChoice) {x : Nat} (h : x < 256) : q255 nan (fdiv nan (u2f x) f255) = x := by
  rw [fdiv_level nan h, q255_congr_nan nan someNan (levels_table ⟨x, h⟩).2.1]
  exact (levels_table ⟨x, h⟩).2.2.1

theorem outOfRange_level (nan : NanChoice) {x : Nat} (h : x < 256) :
    outOfRange (fdiv nan (u2f x) f255) = false := by
  rw [fdiv_level nan h]; exact (levels_table ⟨x, h⟩).2.2.2.1

end Sys2Proof.Machine
end

