-- ==== Sys2Proof/Laws/HostPort.lean ====
section
/-! SUPPORT. The host port: each host operation said once, and everything a step can do. -/

namespace Sys2Proof.Machine

/-- Every command ends in a next state (46_control.md R194). -/
theorem exec_next (i : Instr) (s : State) : ∃ t, exec i s = .next t := by
  by_cases h : i = .srst
  · subst h; exact ⟨_, rfl⟩
  · exact ⟨_, exec_eq_runCommand h s⟩

/-- What a write of any word to `CMD` can do: it runs the command, or it faults, or nothing. -/
theorem runWord_cases {w : Word} {s t : State} (h : runWord w s = .next t) :
    (∃ i, decode w = .command i ∧ exec i s = .next t) ∨
    (∃ why, decode w = .illegal why ∧ s.err = false ∧ t = takeFault .illCmd w s) ∨
    (∃ why, decode w = .illegal why ∧ s.err = true ∧ t = s) := by
  simp only [runWord] at h
  split at h
  · next i hi => exact .inl ⟨i, hi, h⟩
  · next why hw =>
    cases he : s.err
    · rw [he] at h
      cases h
      exact .inr (.inl ⟨why, hw, rfl, rfl⟩)
    · rw [he] at h
      cases h
      exact .inr (.inr ⟨why, hw, rfl, rfl⟩)

theorem runWord_next (w : Word) (s : State) : ∃ t, runWord w s = .next t := by
  simp only [runWord]
  split
  · exact exec_next _ s
  · split <;> exact ⟨_, rfl⟩

theorem step_of_host {s : State} {op : HostOp} {rest : List HostOp} (h : s.host = op :: rest) :
    step s = hostStep op { s with host := rest } := by
  simp [step, h, dropOp]

theorem step_of_idle {s : State} (h : s.host = []) : step s = .next s := by
  simp [step, h]

/-- A step that writes a word to `CMD`. -/
theorem hostStep_cmd (w : Word) (s : State) : hostStep (.write32 cmdAddr w) s = runWord w (answer .ok s) := rfl

/-- Every host operation ends in a next state. -/
theorem hostStep_next (op : HostOp) (s : State) : ∃ t, hostStep op s = .next t := by
  cases op with
  | write32 a v =>
    simp only [hostStep]
    split
    · exact runWord_next _ _
    · exact ⟨_, rfl⟩
  | _ => exact ⟨_, rfl⟩

/-- What a read can leave: the answer, and nothing else (20_memory.md R72). -/
theorem hostRead32_answer (P : Params) (a : Word) (s : State) : ∃ r, hostRead32 P a s = answer r s := by
  simp only [hostRead32]
  split
  · exact ⟨_, rfl⟩
  · split <;> exact ⟨_, rfl⟩
  · exact ⟨_, rfl⟩

theorem hostRead8_answer (P : Params) (a : Word) (s : State) : ∃ r, hostRead8 P a s = answer r s := by
  simp only [hostRead8]
  split <;> exact ⟨_, rfl⟩

/-- Which region an accepted access reaches, and its offset is mapped (20_memory.md R76). -/
theorem accessRegion_eq_some {P : Params} {addr : Word} {n : Nat} {r : Region}
    (h : accessRegion P addr n = some r) :
    Region.ofNumber (addr.toNat / 2 ^ 28) = some r ∧ addr.toNat % 2 ^ 28 < r.extent P ∧ n = r.width ∧
      addr.toNat % n = 0 := by
  simp only [accessRegion] at h
  split at h
  · cases h
  · next r' hr =>
    split at h
    · cases h
    · split at h
      · cases h
      · split at h
        · cases h
        · next h1 h2 h3 =>
          cases h
          exact ⟨hr, by omega, by simpa using h2, by simpa using h3⟩

/-- What a 4-byte write that is not a command can do: nothing, a register, or a memory element with its
`VALID` bit. -/
theorem hostWrite32_cases (P : Params) (a v : Word) (s : State) :
    hostWrite32 P a v s = answer .busError s ∨
    (∃ r, hostWrite32 P a v s = answer .ok (writeReg r v s)) ∨
    (∃ r, r ≠ Region.csr ∧ accessRegion P a 4 = some r ∧ hostWrite32 P a v s =
      answer .ok { s.setWord a.toNat v with valid := s.valid.afterRegionWrite s.cur r }) := by
  cases hr : accessRegion P a 4 with
  | none => exact .inl (by simp [hostWrite32, hr])
  | some r =>
    by_cases hc : r = .csr
    · subst hc
      cases ho : Reg.ofOffset (a.toNat % 2 ^ 28) with
      | none => exact .inl (by simp only [hostWrite32, hr, ho])
      | some g => exact .inr (.inl ⟨g, by simp only [hostWrite32, hr, ho]⟩)
    · refine .inr (.inr ⟨r, hc, rfl, ?_⟩)
      cases r <;> first | exact absurd rfl hc | simp only [hostWrite32, hr]

theorem hostWrite8_cases (P : Params) (a : Word) (v : Byte) (s : State) :
    hostWrite8 P a v s = answer .busError s ∨
    (∃ r, r ≠ Region.csr ∧ accessRegion P a 1 = some r ∧ hostWrite8 P a v s =
      answer .ok { s.setByte a.toNat v with valid := s.valid.afterRegionWrite s.cur r }) := by
  simp only [hostWrite8]
  split
  · exact .inl rfl
  · next r hr =>
    refine .inr ⟨r, ?_, hr, rfl⟩
    rintro rfl
    have := (accessRegion_eq_some hr).2.2.1
    simp [Region.width] at this

/-- Everything a step can do. -/
theorem step_cases {s t : State} (h : step s = .next t) :
    (s.host = [] ∧ t = s) ∨
    (∃ rest, s.host = .reset :: rest ∧ t = answer .ok (hardReset { s with host := rest })) ∨
    (∃ op rest r, (∃ a, op = .read8 a ∨ op = .read32 a) ∧ s.host = op :: rest ∧
      t = answer r { s with host := rest }) ∨
    (∃ a v rest, s.host = .write8 a v :: rest ∧ t = hostWrite8 ipa a v { s with host := rest }) ∨
    (∃ a v rest, s.host = .write32 a v :: rest ∧ a ≠ cmdAddr ∧
      t = hostWrite32 ipa a v { s with host := rest }) ∨
    (∃ w rest, s.host = .write32 cmdAddr w :: rest ∧
      runWord w (answer .ok { s with host := rest }) = .next t) := by
  cases hh : s.host with
  | nil => rw [step_of_idle hh] at h; cases h; exact .inl ⟨rfl, rfl⟩
  | cons op rest =>
    rw [step_of_host hh] at h
    right
    cases op with
    | reset => cases h; exact .inl ⟨rest, rfl, rfl⟩
    | read8 a =>
      cases h
      obtain ⟨r, hr⟩ := hostRead8_answer ipa a { s with host := rest }
      exact .inr (.inl ⟨_, rest, r, ⟨a, .inl rfl⟩, rfl, hr⟩)
    | read32 a =>
      cases h
      obtain ⟨r, hr⟩ := hostRead32_answer ipa a { s with host := rest }
      exact .inr (.inl ⟨_, rest, r, ⟨a, .inr rfl⟩, rfl, hr⟩)
    | write8 a v => cases h; exact .inr (.inr (.inl ⟨a, v, rest, rfl, rfl⟩))
    | write32 a v =>
      by_cases ha : a = cmdAddr
      · subst ha; exact .inr (.inr (.inr (.inr ⟨v, rest, rfl, h⟩)))
      · simp only [hostStep, if_neg ha] at h
        cases h
        exact .inr (.inr (.inr (.inl ⟨a, v, rest, rfl, ha, rfl⟩)))

end Sys2Proof.Machine
end

