-- ==== Sys2Proof/Laws/Mapped.lean ====
section
/-! SUPPORT. Only mapped bytes are ever listed: the memory operations and the stores of a command keep
the second part of the invariant (20_memory.md R76, R79). -/

namespace Sys2Proof.Machine

/-- Every listed byte is a mapped one, the second part of the invariant. -/
def AllMapped (m : Memory) : Prop := ∀ a b, memGet m a = some b → mappedByte ipa a = true

theorem allMapped_nil : AllMapped [] := by intro a b h; cases h

theorem allMapped_memSet {m : Memory} {a : Nat} (b : Byte) (h : AllMapped m) (ha : mappedByte ipa a = true) :
    AllMapped (memSet m a b) := by
  intro x c hx
  rw [memGet_memSet] at hx
  split at hx
  · next he => rw [he]; exact ha
  · exact h x c hx

theorem allMapped_memSetWord {m : Memory} {a : Nat} (w : Word) (h : AllMapped m)
    (ha : ∀ i, i < 4 → mappedByte ipa (a + i) = true) : AllMapped (memSetWord m a w) :=
  allMapped_memSet _ (allMapped_memSet _ (allMapped_memSet _ (allMapped_memSet _ h (ha 0 (by decide)))
    (ha 1 (by decide))) (ha 2 (by decide))) (ha 3 (by decide))

theorem allMapped_memSetWords {m : Memory} {a : Nat} (ws : List Word) (h : AllMapped m)
    (ha : ∀ x, a ≤ x → x < a + 4 * ws.length → mappedByte ipa x = true) : AllMapped (memSetWords m a ws) := by
  induction ws generalizing m a with
  | nil => exact h
  | cons w ws ih =>
    rw [List.length_cons] at ha
    exact ih (allMapped_memSetWord w h fun i hi => ha _ (by omega) (by omega))
      fun x h1 h2 => ha x (by omega) (by omega)

theorem allMapped_memSetBytes {m : Memory} {a : Nat} (bs : List Byte) (h : AllMapped m)
    (ha : ∀ x, a ≤ x → x < a + bs.length → mappedByte ipa x = true) : AllMapped (memSetBytes m a bs) := by
  induction bs generalizing m a with
  | nil => exact h
  | cons b bs ih =>
    rw [List.length_cons] at ha
    exact ih (allMapped_memSet b h (ha _ (Nat.le_refl _) (by omega)))
      fun x h1 h2 => ha x (by omega) (by omega)

/-- The bytes of a region's mapped offsets are mapped. -/
theorem mappedByte_base (r : Region) (hr : r ≠ .csr) {k : Nat} (hk : k < r.extent ipa) (hk' : k < 2 ^ 28) :
    mappedByte ipa (r.base + k) = true := by
  have h1 : (r.base + k) / 2 ^ 28 = r.number := by simp only [Region.base]; omega
  have h2 : (r.base + k) % 2 ^ 28 = k := by simp only [Region.base]; omega
  cases r <;> first | exact absurd rfl hr | simp_all [mappedByte, Region.number, Region.ofNumber]

/-- An accepted access to a memory region reaches mapped bytes only (20_memory.md R73, R76). -/
theorem mappedByte_of_access {addr : Word} {n : Nat} {r : Region} (hr : r ≠ .csr)
    (h : accessRegion ipa addr n = some r) {i : Nat} (hi : i < n) : mappedByte ipa (addr.toNat + i) = true := by
  obtain ⟨hn, hx, hw, ha⟩ := accessRegion_eq_some h
  have hd : n ∣ r.extent ipa := by
    subst hw; cases r <;> simp [Region.width, Region.extent] <;> omega
  have hn4 : n = 1 ∨ n = 4 := by subst hw; cases r <;> simp [Region.width]
  have hlt : addr.toNat % 2 ^ 28 + i < r.extent ipa := by
    obtain ⟨q, hq⟩ := hd
    rcases hn4 with rfl | rfl <;> omega
  have h28 : addr.toNat % 2 ^ 28 + i < 2 ^ 28 := by
    rcases hn4 with rfl | rfl <;> omega
  have hnum : addr.toNat / 2 ^ 28 = r.number := by
    have : addr.toNat / 2 ^ 28 < 16 := by have := addr.isLt; omega
    generalize addr.toNat / 2 ^ 28 = k at hn this
    interval_cases k <;> simp_all [Region.ofNumber] <;> subst hn <;> rfl
  have := mappedByte_base r hr hlt h28
  rwa [show r.base + (addr.toNat % 2 ^ 28 + i) = addr.toNat + i by simp only [Region.base]; omega] at this

/-- The image's elements of a float buffer are mapped when the shape check passes (20_memory.md R79). -/
theorem allMapped_storeFloats {s : State} (b : Buf) (f : Nat → Word) (hs : ShapeOk s) (h : AllMapped s.mem) :
    AllMapped (s.storeFloats b f).mem := by
  refine allMapped_memSetWords _ h fun x h1 h2 => ?_
  rw [List.length_map, List.length_range] at h2
  have hel := elements_le hs
  have hx : 4 * s.elements ≤ 12 * Config.pixMax := by
    have := hs.2
    simp only [State.elements, State.pixels]; omega
  have hm : x - b.base < b.region.extent ipa := by
    cases b <;> (show _ < 12 * Config.pixMax; omega)
  have := mappedByte_base b.region (by cases b <;> decide) hm (by omega)
  rwa [show b.region.base + (x - b.base) = x from Nat.add_sub_cancel' h1] at this

theorem allMapped_storeBytes {s : State} (f : Nat → Byte) (hs : ShapeOk s) (h : AllMapped s.mem) :
    AllMapped (s.storeBytes f).mem := by
  refine allMapped_memSetBytes _ h fun x h1 h2 => ?_
  rw [List.length_map, List.length_range] at h2
  have hel := elements_le hs
  have hm : x - Region.u8out.base < Region.u8out.extent ipa := by
    have := hs.2
    show _ < 3 * Config.pixMax
    simp only [State.elements, State.pixels] at h2; omega
  have := mappedByte_base .u8out (by decide) hm (by omega)
  rwa [show Region.u8out.base + (x - Region.u8out.base) = x from Nat.add_sub_cancel' h1] at this

/-- The memory parts of the invariant. -/
def MemoryOk (s : State) : Prop := s.mem.wf = true ∧ AllMapped s.mem

/-- A stage command that passes its checks has a shape in bounds. -/
theorem shapeOk_of_pass {i : Instr} {s : State} (hi : i ≠ .srst) (hn : i ≠ .nop)
    (h : entryCheck ipa i s = none) : ShapeOk s :=
  (shapeBad_eq_false_iff s).mp ((entryCheck_eq_none_iff ipa s hn hi).mp h).1

/-- The store of a stage keeps the memory in form; the bodies' registers do not matter. -/
theorem memoryOk_float {s : State} (b : Buf) (f : Nat → Word) (h : MemoryOk s)
    (hs : ShapeOk s) : MemoryOk (s.storeFloats b f) :=
  ⟨wf_memSetWords _ _ h.1, allMapped_storeFloats b f hs h.2⟩
theorem memoryOk_scale {s : State} (hs : ShapeOk s) (h : MemoryOk s) : MemoryOk (scaleBody ipa s) :=
  memoryOk_float s.cur.other (scaleElem ipa s) h hs
theorem memoryOk_tone {s : State} (hs : ShapeOk s) (h : MemoryOk s) : MemoryOk (toneBody ipa s) :=
  memoryOk_float s.cur.other (toneElem ipa s) h hs
theorem memoryOk_gamut {s : State} (hs : ShapeOk s) (h : MemoryOk s) : MemoryOk (gamutBody ipa s) :=
  memoryOk_float s.cur.other (gamutElem ipa s) h hs
theorem memoryOk_cmat {s : State} (hs : ShapeOk s) (h : MemoryOk s) : MemoryOk (cmatBody ipa s) :=
  memoryOk_float s.cur.other (cmatElem ipa s) h hs
theorem memoryOk_remosaic {s : State} (hs : ShapeOk s) (h : MemoryOk s) : MemoryOk (remosaicBody ipa s) :=
  memoryOk_float s.cur.other (remosaicElem ipa s) h hs
theorem memoryOk_noiseU {s : State} (hs : ShapeOk s) (h : MemoryOk s) : MemoryOk (noiseUBody ipa s) :=
  memoryOk_float s.cur.other (noiseUElem ipa s) h hs
theorem memoryOk_noiseS {s : State} (hs : ShapeOk s) (h : MemoryOk s) : MemoryOk (noiseSBody ipa s) :=
  memoryOk_float s.cur.other (noiseSElem ipa s) h hs
theorem memoryOk_descale {s : State} (hs : ShapeOk s) (h : MemoryOk s) : MemoryOk (descaleBody ipa s) :=
  ⟨wf_memSetBytes _ _ h.1, allMapped_storeBytes (descaleElem ipa s) hs h.2⟩
theorem memoryOk_front {s : State} (hs : ShapeOk s) (h : MemoryOk s) : MemoryOk (frontStages ipa s) := by
  have s1 := sameSetup_scale ipa s
  have s2 := s1.trans (sameSetup_tone ipa _)
  have s3 := s2.trans (sameSetup_gamut ipa _)
  exact memoryOk_cmat (s3.shapeOk hs) (memoryOk_gamut (s2.shapeOk hs)
    (memoryOk_tone (s1.shapeOk hs) (memoryOk_scale hs h)))
theorem memoryOk_back {s : State} (hs : ShapeOk s) (h : MemoryOk s) : MemoryOk (backStages ipa s) :=
  memoryOk_descale ((sameSetup_remosaic ipa s).shapeOk hs) (memoryOk_remosaic hs h)

/-- Every body keeps the memory parts of the invariant. -/
theorem memoryOk_bodyOf {i : Instr} (hi : i ≠ .srst) {s : State} (h : MemoryOk s)
    (hs : i = .nop ∨ ShapeOk s) : MemoryOk (bodyOf ipa i s) :=
  by
  rcases hs with rfl | hs
  · exact h
  have hf := (sameSetup_front ipa s).shapeOk hs
  cases i with
  | srst => exact absurd rfl hi
  | nop => exact h
  | scale => exact memoryOk_scale hs h
  | tone => exact memoryOk_tone hs h
  | gamut => exact memoryOk_gamut hs h
  | cmat => exact memoryOk_cmat hs h
  | noiseU => exact memoryOk_noiseU hs h
  | noiseS => exact memoryOk_noiseS hs h
  | remosaic => exact memoryOk_remosaic hs h
  | descale => exact memoryOk_descale hs h
  | pipe => exact memoryOk_back hf (memoryOk_front hs h)
  | pipeU => exact memoryOk_back ((sameSetup_noiseU ipa _).shapeOk hf) (memoryOk_noiseU hf (memoryOk_front hs h))
  | pipeS => exact memoryOk_back ((sameSetup_noiseS ipa _).shapeOk hf) (memoryOk_noiseS hf (memoryOk_front hs h))

end Sys2Proof.Machine
end

