-- ==== Sys2Proof/Laws/PerInstr.lean ====
section
/-! SUPPORT. Statements made instruction by instruction, one lemma per constructor. -/

namespace Sys2Proof.Laws

/-- What the encoding of an instruction is made of: its fields are legal (30_encoding.md R102 to R104), its
word has exactly those fields at the places of R100, and the reserved bits of the word are zero. -/
def Encoded.Statement (i : Instr) : Prop :=
  i.wellFormed = true ∧ fieldsOf (encode i) = i.fields ∧ encode i = packFields i.fields ∧
    (encode i).extractLsb' 6 26 = 0

theorem Encoded.nop : Encoded.Statement .nop := by unfold Encoded.Statement; decide
theorem Encoded.scale : Encoded.Statement .scale := by unfold Encoded.Statement; decide
theorem Encoded.tone : Encoded.Statement .tone := by unfold Encoded.Statement; decide
theorem Encoded.gamut : Encoded.Statement .gamut := by unfold Encoded.Statement; decide
theorem Encoded.cmat : Encoded.Statement .cmat := by unfold Encoded.Statement; decide
theorem Encoded.noiseU : Encoded.Statement .noiseU := by unfold Encoded.Statement; decide
theorem Encoded.noiseS : Encoded.Statement .noiseS := by unfold Encoded.Statement; decide
theorem Encoded.remosaic : Encoded.Statement .remosaic := by unfold Encoded.Statement; decide
theorem Encoded.descale : Encoded.Statement .descale := by unfold Encoded.Statement; decide
theorem Encoded.pipe : Encoded.Statement .pipe := by unfold Encoded.Statement; decide
theorem Encoded.pipeU : Encoded.Statement .pipeU := by unfold Encoded.Statement; decide
theorem Encoded.pipeS : Encoded.Statement .pipeS := by unfold Encoded.Statement; decide
theorem Encoded.srst : Encoded.Statement .srst := by unfold Encoded.Statement; decide

end Sys2Proof.Laws
end

