-- ==== Sys2Proof/Tests/Slice0.lean ====
section
/-! SUPPORT. Tests against the spec's own vectors (95_test_vectors.md, cited at each), the smoke tests of
WellFormed, and a witness for the hypotheses of every statement that has some. -/

namespace Sys2Proof.Tests

open Sys2Proof Sys2Proof.Machine

/-! ### WellFormed: one ill-formed term for each check -/

theorem test_reserved_bits_refused :
    (CmdFields.mk 1 0 0x6).reservedZero = false ∧ (CmdFields.mk 1 0 0x6).wellFormed = false ∧
    (CmdFields.mk 0 0 0x6).wellFormed = true := by decide

theorem test_unassigned_op_refused :
    (CmdFields.mk 0 0 0x9).opAssigned = false ∧ (CmdFields.mk 0 0 0x9).wellFormed = false ∧
    (CmdFields.mk 0 0 0xE).wellFormed = false ∧ (CmdFields.mk 0 0 0xF).wellFormed = true := by decide

theorem test_variant_refused :
    (CmdFields.mk 0 0 0x5).variantAllowed = false ∧ (CmdFields.mk 0 3 0x8).wellFormed = false ∧
    (CmdFields.mk 0 1 0x1).wellFormed = false ∧ (CmdFields.mk 0 2 0x8).wellFormed = true := by decide

/-! ### Decoding: the words of 30_encoding.md R105, bit by bit, and V10 -/

theorem test_decode_nop : decode 0b00000000000000000000000000000000#32 = .command .nop := by decide
theorem test_decode_scale : decode 0b00000000000000000000000000000001#32 = .command .scale := by decide
theorem test_decode_tone : decode 0b00000000000000000000000000000010#32 = .command .tone := by decide
theorem test_decode_gamut : decode 0b00000000000000000000000000000011#32 = .command .gamut := by decide
theorem test_decode_cmat : decode 0b00000000000000000000000000000100#32 = .command .cmat := by decide
theorem test_decode_noiseU : decode 0b00000000000000000000000000010101#32 = .command .noiseU := by decide
theorem test_decode_noiseS : decode 0b00000000000000000000000000100101#32 = .command .noiseS := by decide
theorem test_decode_remosaic : decode 0b00000000000000000000000000000110#32 = .command .remosaic := by decide
theorem test_decode_descale : decode 0b00000000000000000000000000000111#32 = .command .descale := by decide
theorem test_decode_pipe : decode 0b00000000000000000000000000001000#32 = .command .pipe := by decide
theorem test_decode_pipeU : decode 0b00000000000000000000000000011000#32 = .command .pipeU := by decide
theorem test_decode_pipeS : decode 0b00000000000000000000000000101000#32 = .command .pipeS := by decide
theorem test_decode_srst : decode 0b00000000000000000000000000001111#32 = .command .srst := by decide

/-- V10, the illegal rows. -/
theorem test_decode_illegal :
    [0x35#32, 0x05#32, 0x38#32, 0x11#32, 0x16#32, 0x1F#32, 0x10#32].map decode =
      List.replicate 7 (.illegal .variantNotAllowed) ∧
    [0x9#32, 0xA#32, 0xB#32, 0xC#32, 0xD#32, 0xE#32].map decode =
      List.replicate 6 (.illegal .unassignedOp) ∧
    [0x40#32, 0x106#32, 0x80000000#32, 0xFFFFFFFF#32].map decode =
      List.replicate 4 (.illegal .reservedBits) := by decide

/-- A command is one 32-bit datum, lowest byte first (30_encoding.md R107, 20_memory.md R77). -/
theorem test_decode_bytes :
    decodeBytes [0x15, 0x00, 0x00, 0x00] = .command .noiseU ∧
    decodeBytes [0x00, 0x00, 0x00, 0x15] = .illegal .reservedBits ∧
    decodeBytes [0x15, 0x00, 0x00] = .illegal .notOneWord := by decide

theorem test_decode_table_word :
    decodeTableWord 32 0x28 = some .pipeS ∧ decodeTableWord 32 0x48 = none := by decide

/-! ### One step from reset -/

/-- 46_control.md R185, its example. -/
theorem test_step_nop :
    step (State.reset.withFetchWord 32 0x0) = .next { State.reset with done := true, resp := some .ok } := rfl

/-- V11's first row: from fresh, `SCALE` faults with `ERR_SHAPE`. -/
theorem test_step_scale_faults : step (State.reset.withFetchWord 32 0x1) = .next { State.reset with
    err := true, errInfo := 2, errCmd := 0x1, resp := some .ok } := rfl

/-- V10, last line: from fresh, `WR32 CMD, 0x00000106`. -/
theorem test_step_illegal : step (State.reset.withFetchWord 32 0x106) = .next { State.reset with
    err := true, errInfo := 1, errCmd := 0x106, resp := some .ok } := rfl

/-- 70_reset_and_hazards.md R230: after reset the engine executes nothing until the host acts. -/
theorem test_step_idle : step State.reset = .next State.reset := rfl

/-! ### A small machine for the vectors: `PIXMAX` 16, `NMAX` 4, `GAUSS_T` (95_test_vectors.md) -/

/-- `GAUSS_T`: the deviate is the two low bits less 1, the state counts up. The other parameters are any:
no test's expected value rests on them. -/
def testP : Params where
  pixMax  := 16
  nMax    := 4
  gauss g := ([0xBF800000, 0x00000000, 0x3F800000, 0x40000000].getD (g.toNat % 4) 0, g + 1)
  nan     := fun _ _ _ => 0x7FC00000
  powerOn := fun _ _ => 0xA5
  rbfEval := rbfReference fun _ _ _ => 0x7FC00000

/-- A command on the small machine. -/
def run (i : Instr) (s : State) : State := runCommand testP i (bodyOf testP i) s

/-- A fresh state with shape `h` by `w`, `VALID` and the elements of some regions written. -/
def fresh (h w : Nat) (valid : Word) (parts : List (Nat × List Word)) : State :=
  { State.reset with
    imgH := BitVec.ofNat 32 h
    imgW := BitVec.ofNat 32 w
    imgC := 3
    valid := Valid.ofWord valid
    mem := parts.foldl (fun m p => memSetWords m p.1 p.2) [] }

/-- With the first bytes of `U8IN`. -/
def withBytes (bs : List Byte) (s : State) : State := { s with mem := memSetBytes s.mem 0x60000000 bs }

/-- What the tests look at: the first `n` words from `a` up, `STATUS`, `VALID`, `CUR`, `RNG_STATE`. -/
def view (a n : Nat) (s : State) : List Word × Word × Word × Word × Word :=
  ((List.range n).map fun e => s.wordAt testP (a + 4 * e), s.statusWord, s.valid.word, s.cur.word, s.rngState)

/-- The same with bytes of `U8OUT`. -/
def viewBytes (n : Nat) (s : State) : List Byte × Word × Word × Word × Word :=
  ((List.range n).map (s.u8outElem testP), s.statusWord, s.valid.word, s.cur.word, s.rngState)

/-- V1. -/
theorem test_scale : view 0x90000000 3 (run .scale (withBytes [1, 128, 255] (fresh 1 1 0x10 []))) =
    ([0x3B808081, 0x3F008081, 0x3F800000], 1, 0x30, 1, 0) := by decide +kernel

/-- V4. -/
theorem test_descale : viewBytes 6 (run .descale (fresh 1 2 0x20 [(0x80000000,
      [0x3F000000, 0x3FC00000, 0xBE800000, 0x3F800000, 0x80000000, 0x3F7FBE77])])) =
    ([127, 255, 0, 255, 0, 254], 5, 0x60, 0, 0) := by decide +kernel

/-- V5, table B: rows 255, 127 and 128. -/
theorem test_tone : view 0x90000000 6 (run .tone (fresh 1 2 0x21
      [(0x10000000 + 12 * 127, [0x3F008081, 0x3EFEFEFF, 0x3E800000, 0x3EFEFEFF, 0x3F008081, 0x3F400000]),
       (0x10000000 + 12 * 255, [0x00000000, 0x3F800000, 0x3F400000]),
       (0x80000000, [0x3F800000, 0x3F000000, 0x3EFEFEFF, 0x3FC00000, 0x3F800000, 0x3F008081])])) =
    ([0x00000000, 0x3EFEFEFF, 0x3E800000, 0x00000000, 0x3F800000, 0x3F400000], 5, 0x21, 1, 0) := by
  decide +kernel

/-- V6 row 2. -/
theorem test_gamut : view 0x90000000 3 (run .gamut { fresh 1 1 0x26
      [(0x20000000, [0, 0, 0, 0x40400000, 0x40800000, 0x41400000]),
       (0x30000000, [0x3F000000, 0x3E800000, 0x40000000, 0x3F800000, 0, 0xBF800000]),
       (0x40000000, [0x3F800000, 0x3F800000, 0x3F800000, 0x3F800000, 0, 0, 0, 0x3F800000, 0, 0, 0, 0x3F800000]),
       (0x80000000, [0x40400000, 0x40800000, 0])] with nCp := 2, nW := 2 }) =
    ([0x41940000, 0x40C80000, 0xBF800000], 1, 0x26, 1, 0) := by decide +kernel

/-- V6 row 5, the order of the additions. -/
theorem test_gamut_order : view 0x90000000 3 (run .gamut { fresh 1 1 0x26
      [(0x20000000, [0, 0, 0]), (0x30000000, [0x4B800000, 0, 0]),
       (0x40000000, [0x3F800000, 0, 0, 0x3F800000, 0, 0, 0, 0, 0, 0, 0, 0]),
       (0x80000000, [0x3F800000, 0, 0])] with nCp := 1, nW := 1 }) =
    ([0x4B800000, 0, 0], 1, 0x26, 1, 0) := by decide +kernel

/-- V7 row 4: no upper clamp, the floor at zero, rows not columns. -/
theorem test_cmat : view 0x90000000 3 (run .cmat (fresh 1 1 0x28
      [(0x50000000, [0x3F000000, 0x3E800000, 0x3E000000, 0x40000000, 0xBF800000, 0, 0xBF800000, 0xBF800000,
        0x40800000]),
       (0x80000000, [0x3F800000, 0x3F000000, 0x3E800000])])) =
    ([0x3F280000, 0x3FC00000, 0x00000000], 1, 0x28, 1, 0) := by decide +kernel

/-- V7 row 7: an infinite entry is `ERR_SINGULAR`. -/
theorem test_cmat_singular :
    let s := fresh 1 1 0x28 [(0x50000000, [0x3F800000, 0, 0, 0, 0x7F800000, 0, 0, 0, 0x3F800000])]
    run .cmat s = { s with err := true, errInfo := 5, errCmd := 0x4 } := by decide +kernel

/-- P1. -/
theorem test_remosaic : view 0x90000000 12 (run .remosaic (fresh 2 2 0x20
      [(0x80000000, List.replicate 12 0x3F800000)])) =
    ([0, 0x3F000000, 0, 0x3F800000, 0, 0, 0, 0, 0x3F800000, 0, 0x3F000000, 0], 1, 0x20, 1, 0) := by
  decide +kernel

/-- P6. -/
theorem test_remosaic_special : view 0x80000000 9 (run .remosaic { fresh 1 3 0x20
      [(0x90000000, [0x7FC00000, 0x00000003, 0xFF800000, 0xC0490FDB, 0x7F800000, 0x7FC00000, 0x3F800000,
        0xBF800000, 0x3F800000])] with cur := .f1 }) =
    ([0, 0x00000002, 0, 0xC0490FDB, 0, 0, 0, 0xBF000000, 0], 1, 0x20, 0, 0) := by decide +kernel

/-- V9 (a). -/
theorem test_noiseU : view 0x90000000 3 (run .noiseU { fresh 1 1 0x20
      [(0x80000000, List.replicate 3 0x3F000000)] with noiseVar := 0x3D800000, rngState := 3 }) =
    ([0x3F800000, 0x3E800000, 0x3F000000], 1, 0x20, 1, 6) := by decide +kernel

/-- V9 (e), first row. -/
theorem test_noiseU_negative_variance :
    let s := { fresh 0 0 0x20 [] with noiseVar := 0xBF800000 }
    run .noiseU s = { s with err := true, errInfo := 6, errCmd := 0x15 } := by decide +kernel

/-- V9 (c). -/
theorem test_noiseS : view 0x90000000 6 (run .noiseS { fresh 1 2 0x20
      [(0x80000000, List.replicate 6 0x3F008081)] with
        noiseA0 := 0x3F000000, noiseB0 := 0x42100000, noiseB1 := 0x40800000,
        noiseA2 := 0xBE000000, noiseB2 := 0x42000000 }) =
    ([0x3EECECED, 0x3F008081, 0x3F048485, 0x3F149495, 0x3EFCFCFD, 0x3F008081], 1, 0x20, 1, 6) := by
  decide +kernel

/-- V9 (b): quantisation, `DOMW`, the generator past 0xFFFFFFFF. -/
theorem test_noiseS_quantises : view 0x90000000 6 (run .noiseS { fresh 1 2 0x20
      [(0x80000000, [0x3F000000, 0x3F008081, 0x3FC00000, 0xBE800000, 0x7FC00000, 0x3DCCCCCD])] with
        rngState := 0xFFFFFFFE }) =
    ([0x3EFEFEFF, 0x3F008081, 0x3F800000, 0, 0, 0x3DC8C8C9], 5, 0x20, 1, 4) := by decide +kernel

/-- Tables of P5, as far as its pixel (0,2) reads them, and that pixel as a 1 by 1 image: its place has the
parities of (0,0), and a pixel's result depends on no other pixel (00_scope.md R16). -/
def mixed : State :=
  withBytes [51, 102, 204] { fresh 1 1 0x1F
      [(0x10000000 + 12 * 51, [0x3F4CCCCD, 0x3E4CCCCD, 0x3E800000]),
       (0x10000000 + 12 * 102, [0x3F19999A, 0x3ECCCCCD, 0x3E800000]),
       (0x10000000 + 12 * 204, [0x3E4CCCCD, 0x3F4CCCCD, 0x3F400000]),
       (0x20000000, [0, 0, 0]), (0x30000000, [0, 0x3E000000, 0]),
       (0x40000000, [0, 0, 0, 0x3F800000, 0, 0, 0, 0x3F800000, 0, 0, 0, 0x3F800000]),
       (0x50000000, [0x3F800000, 0, 0, 0xBF000000, 0x3F800000, 0, 0, 0, 0x3F000000])] with
      nCp := 1, nW := 1 }

/-- P5, pixel (0,2). -/
theorem test_pipe : viewBytes 3 (run .pipe mixed) = ([0, 18, 0], 1, 0x7F, 1, 0) := by decide +kernel

/-- P2's pixel (0,0): white through identity tables (row 255 of the tone table is the one read). -/
def white : State :=
  withBytes [0xFF, 0xFF, 0xFF] { fresh 1 1 0x1F
      [(0x10000000 + 12 * 255, [0x3F800000, 0x3F800000, 0x3F800000]),
       (0x20000000, [0, 0, 0]), (0x30000000, [0, 0, 0]),
       (0x40000000, [0, 0, 0, 0x3F800000, 0, 0, 0, 0x3F800000, 0, 0, 0, 0x3F800000]),
       (0x50000000, [0x3F800000, 0, 0, 0, 0x3F800000, 0, 0, 0, 0x3F800000])] with
      nCp := 1, nW := 1, rngState := 100 }

/-- P2's continuation: six swaps, three draws from 100. -/
theorem test_pipeU : viewBytes 3 (run .pipeU white) = ([0, 127, 0], 1, 0x7F, 0, 103) := by decide +kernel

theorem test_pipeS : viewBytes 3 (run .pipeS white) = ([0, 127, 0], 1, 0x7F, 0, 103) := by decide +kernel

/-- P3: the fault, then an ignored `NOP`. -/
theorem test_gamut_counts_differ :
    let s := { fresh 1 1 0x26 [(0x80000000, List.replicate 3 0x3F000000)] with nCp := 2, nW := 1 }
    run .gamut s = { s with err := true, errInfo := 4, errCmd := 0x3 } ∧
    run .nop (run .gamut s) = run .gamut s := by decide +kernel

/-- P3: `SRST` leaves the error state and keeps memory. -/
theorem test_srst : softReset { fresh 1 1 0x26 [(0x80000000, [0x3F000000])] with
      err := true, errInfo := 4, errCmd := 0x3, rngState := 7, noiseA1 := 9 } =
    { State.reset with mem := memSetWord [] 0x80000000 0x3F000000 } := by decide

/-- V11: 20 pixels are above `PIXMAX` 16, and `2^32` pixels do not wrap to 0. -/
theorem test_shape_priority :
    entryCheck testP .remosaic (fresh 5 4 0x20 []) = some .shape ∧
    entryCheck testP .remosaic (fresh 0x10000 0x10000 0x20 []) = some .shape ∧
    entryCheck testP .remosaic (fresh 4 4 0x20 []) = none ∧
    entryCheck testP .pipe (fresh 2 2 0x00 []) = some .seq ∧
    entryCheck testP .pipe (fresh 2 2 0x10 []) = some .calib := by decide +kernel

/-! ### Host accesses: V12 and V13 -/

theorem test_valid_auto_clear :
    let s := { State.reset with valid := Valid.ofWord 0x7F }
    ([0x10000000#32, 0x20000000, 0x20, 0x30000000, 0x40000000, 0x24, 0x50000000, 0x80000000, 0x90000000,
      0x2C, 0x18, 0x0C].map fun a => (hostWrite32 testP a 0 s).valid.word) =
      [0x7E, 0x7D, 0x7D, 0x7B, 0x7B, 0x7B, 0x77, 0x5F, 0x7F, 0x5F, 0x0F, 0x7F] ∧
    (hostWrite8 testP 0x60000000 0 s).valid.word = 0x6F ∧ (hostWrite8 testP 0x70000000 0 s).valid.word = 0x3F ∧
    (hostWrite32 testP 0x28 0xFFFFFFFF s).valid.word = 0x7F := by decide +kernel

theorem test_host_writes_answered :
    ([0x00000000#32, 0x10000BFC, 0x2000002C, 0x4000002C, 0x50000020, 0x800000BC].all fun a =>
      (hostWrite32 testP a 1 State.reset).resp == some .ok) = true ∧
    ([0x10000C00#32, 0x20000030, 0x40000030, 0x50000024, 0x800000C0, 0xF0000000, 0x60000000, 0x00000002,
      0x00000050, 0x0FFFFFFC].all fun a => hostWrite32 testP a 1 State.reset ==
        { State.reset with resp := some .busError }) = true ∧
    (hostWrite8 testP 0x6000002F 1 State.reset).resp = some .ok ∧
    (hostWrite8 testP 0x60000030 1 State.reset).resp = some .busError ∧
    (hostWrite8 testP 0x00000004 1 State.reset).resp = some .busError := by decide +kernel

theorem test_host_reads :
    (hostRead32 testP 0x00000000 State.reset).resp = some (.data32 0x43415641) ∧
    (hostRead32 testP 0x00000004 State.reset).resp = some (.data32 0) ∧
    (hostRead32 testP 0x00000050 State.reset).resp = some .busError ∧
    (hostRead32 testP 0x60000000 State.reset).resp = some .busError ∧
    (hostRead8 testP 0x00000008 State.reset).resp = some .busError ∧
    (hostRead32 testP 0xA0000000 State.reset).resp = some .busError := by decide +kernel

theorem test_status_and_cur_writes :
    let s := { State.reset with done := true, domw := true }
    (hostWrite32 testP 0x08 7 s).statusWord = 1 ∧ (hostWrite32 testP 0x08 3 s).statusWord = 5 ∧
    (hostWrite32 testP 0x2C 0xFFFFFFFF s).cur.word = 1 := by decide +kernel

/-! ### Witnesses: states that meet the hypotheses of the statements, clause by clause

`ready` is a 1 by 1 image with everything declared and an identity matrix, zero control points and zero
noise parameters: every check of every command passes. The others fail one check each. -/

def ready : State := fresh 1 1 0x7F
  [(0x50000000, [0x3F800000, 0, 0, 0, 0x3F800000, 0, 0, 0, 0x3F800000])]

/-- A 1 by 1 image is in bounds on every machine. -/
theorem one_pixel {s : State} (h : s.imgH = 1) (w : s.imgW = 1) (c : s.imgC = 3) : ShapeOk s :=
  ⟨c, by rw [h, w]; exact pixMax_pos⟩

theorem ready_shape : ShapeOk ready := one_pixel rfl rfl rfl

/-- The greatest shape that passes has exactly `PIXMAX` pixels, one more does not pass. -/
def tall (n : Nat) : State := { ready with imgH := BitVec.ofNat 32 n }

theorem pixels_tall {n : Nat} (h : n < 2 ^ 32) : (tall n).imgH.toNat * (tall n).imgW.toNat = n := by
  show n % 2 ^ 32 * 1 = n
  omega

theorem tall_shape : ShapeOk (tall Config.pixMax) ∧ ¬ShapeOk (tall (Config.pixMax + 1)) := by
  have := pixMax_le
  constructor
  · exact ⟨by decide, by rw [pixels_tall (by omega)]⟩
  · intro h
    have h2 := h.2
    rw [pixels_tall (by omega)] at h2
    omega

theorem ready_gamut : GamutTablesOk ready := ⟨by decide, by decide, by decide, Nat.zero_le _⟩

/-- The greatest count of control points that passes is `NMAX`. -/
def rows (n : Nat) : State := { ready with nCp := BitVec.ofNat 32 n, nW := BitVec.ofNat 32 n }

theorem rows_gamut : GamutTablesOk (rows Config.nMax) ∧ ¬GamutTablesOk (rows (Config.nMax + 1)) := by
  have := nMax_le
  constructor
  · refine ⟨by decide, by decide, rfl, ?_⟩
    show Config.nMax % 2 ^ 32 ≤ Config.nMax
    omega
  · rintro ⟨_, _, _, h⟩
    change (Config.nMax + 1) % 2 ^ 32 ≤ Config.nMax at h
    omega

theorem ready_matrix : MatrixFinite ready := by
  intro j i hj hi
  have h : ∀ e : Fin 9, isFinite (ready.wordAt ipa (0x50000000 + 4 * e.val)) = true := by decide +kernel
  exact h ⟨j * 3 + i, by omega⟩

theorem ready_variance : VarianceOk ready := by unfold VarianceOk; decide

theorem ready_pairs : PairsOk ready := by
  have h : ∀ c : Fin 3, isFinite (ready.noiseA c.val) = true ∧ isFinite (ready.noiseB c.val) = true ∧
      fge (ready.noiseB c.val) fZero = true ∧
      fge (fadd ipa.nan (fmul ipa.nan (ready.noiseA c.val) f255) (ready.noiseB c.val)) fZero = true := by
    decide +kernel
  exact fun c hc => h ⟨c, hc⟩

theorem ready_tables : PipeTablesOk ready := ⟨by decide, ready_gamut, by decide⟩

theorem ready_pipe : PipeReady ready := ⟨ready_shape, by decide, ready_tables, ready_matrix⟩

theorem ready_image : InImage ready 0 0 0 ∧ InImage ready 0 0 2 := by unfold InImage; decide

/-- With other bits of `VALID`. -/
def without (valid : Word) : State := { ready with valid := Valid.ofWord valid }

theorem without_shape (valid : Word) : ShapeOk (without valid) := one_pixel rfl rfl rfl

theorem rows_shape (n : Nat) : ShapeOk (rows n) := one_pixel rfl rfl rfl

/-- With an infinite matrix entry, the last one. -/
def badMatrix : State := ready.setWord 0x50000020 0x7F800000

theorem badMatrix_shape : ShapeOk badMatrix := one_pixel rfl rfl rfl

theorem badMatrix_entry : (badMatrix.tableElem ipa .cmat 2 2).extractLsb' 23 8 = 0xFF := by decide +kernel

theorem badMatrix_not : ¬MatrixFinite badMatrix := by
  intro h
  have h2 := h 2 2 (by decide) (by decide)
  revert h2
  decide +kernel

/-- With a variance of -1.0; `-0.0` passes. -/
def badVariance : State := { ready with noiseVar := 0xBF800000 }

theorem variance_boundary : ¬VarianceOk badVariance ∧ VarianceOk { ready with noiseVar := 0x80000000 } := by
  unfold VarianceOk; decide

/-- V9 (e): `a` -1.0 with `b` 200.0 fails at level 255. -/
def badPair : State := { ready with noiseA2 := 0xBF800000, noiseB2 := 0x43480000 }

theorem badPair_value :
    fge (fadd ipa.nan (fmul ipa.nan (badPair.noiseA 2) f255) (badPair.noiseB 2)) fZero = false := by
  decide +kernel

theorem badPair_not : ¬PairsOk badPair := by
  intro h
  have h2 := (h 2 (by decide)).2.2.2
  rw [badPair_value] at h2
  cases h2

/-- A host that next writes `w` to `CMD`. -/
def about (w : Word) (s : State) : State := { s with host := [.write32 0x00000004 w, .read32 0x08] }

theorem witness_CommandWordsAreExactlyTheTable : Instr.scale.wellFormed = true := by decide

theorem witness_StepRunsTheDecodedCommand :
    (about 0x6 ready).host = .write32 0x00000004 0x6 :: [.read32 0x08] ∧ decode 0x6 = .command .remosaic :=
  ⟨rfl, by decide⟩

theorem witness_IllegalWordFaultsOutsideTheErrorState :
    (about 0x9 ready).host = .write32 0x00000004 0x9 :: [.read32 0x08] ∧
    decode 0x9 = .illegal .unassignedOp ∧ (about 0x9 ready).err = false ∧
    (about 0x9 { ready with err := true }).err = true := ⟨rfl, by decide, rfl, rfl⟩

theorem witness_ErrorStateIgnoresEveryOtherCommand :
    Instr.scale ≠ .srst ∧ ({ ready with err := true } : State).err = true := ⟨by decide, rfl⟩

/-- Each of the six faults, with the host about to write the word that raises it. -/
theorem witness_FaultWritesFourFieldsOnly :
    (about 0x40 ready).err = false ∧ decode 0x40 = .illegal .reservedBits ∧
    decode 0x1 = .command .scale ∧
    entryCheck ipa .scale (about 0x1 (tall (Config.pixMax + 1))) = some .shape ∧
    entryCheck ipa .scale (about 0x1 (without 0)) = some .seq ∧
    decode 0x2 = .command .tone ∧ entryCheck ipa .tone (about 0x2 (without 0x7E)) = some .calib ∧
    decode 0x4 = .command .cmat ∧ entryCheck ipa .cmat (about 0x4 badMatrix) = some .singular ∧
    decode 0x15 = .command .noiseU ∧ entryCheck ipa .noiseU (about 0x15 badVariance) = some .noise := by
  refine ⟨rfl, by decide, by decide, ?_, ?_, by decide, ?_, by decide, ?_, by decide, ?_⟩
  · exact check_fails_shape (by decide) (by decide) tall_shape.2
  · exact check_fails_seq (by decide) (by decide) (one_pixel rfl rfl rfl) (by decide)
  · exact check_fails_calib (by decide) (by decide) (one_pixel rfl rfl rfl) (by decide) (by decide)
  · refine check_fails_singular (by decide) (by decide) (one_pixel rfl rfl rfl) (by decide) (by decide) ?_
    have h : cmatNotFinite ipa badMatrix = true := by
      rw [← Bool.not_eq_false, cmatNotFinite_eq_false_iff]; exact badMatrix_not
    simp only [singularBad, beq_self_eq_true, Bool.true_or, Bool.true_and]
    exact h
  · exact check_fails_noise (by decide) (by decide) (one_pixel rfl rfl rfl) (by decide) (by decide)
      (by decide) (by decide)

/-- Both sides of the equivalence: `PIXMAX` pixels and one more; 3 channels and 4; no pixel at all. -/
theorem witness_ShapeFaultExactly :
    Instr.scale ≠ .nop ∧ Instr.scale ≠ .srst ∧ ready.err = false ∧
    Config.pixMax < (tall (Config.pixMax + 1)).imgH.toNat * (tall (Config.pixMax + 1)).imgW.toNat ∧
    (tall Config.pixMax).imgH.toNat * (tall Config.pixMax).imgW.toNat ≤ Config.pixMax ∧
    ({ ready with imgC := 4 } : State).imgC ≠ 3 ∧ ShapeOk (tall 0) := by
  refine ⟨by decide, by decide, rfl, ?_, tall_shape.1.2, by decide, by decide, Nat.zero_le _⟩
  have := pixMax_le
  rw [pixels_tall (by omega)]
  omega

theorem witness_SequenceFaultExactly :
    (without 0x6F).err = false ∧ ShapeOk (without 0x6F) ∧ (without 0x6F).valid.inV = false ∧
    ShapeOk (without 0x5F) ∧ (without 0x5F).valid.fV = false ∧ ready.valid.inV = true ∧
    ready.valid.fV = true :=
  ⟨rfl, without_shape _, by decide, without_shape _, by decide, by decide, by decide⟩

theorem witness_CalibrationFaultExactly :
    ready.err = false ∧ ShapeOk ready ∧ ready.valid.inV = true ∧ ready.valid.fV = true ∧
    (without 0x7E).valid.toneV = false ∧ (without 0x7D).valid.cpV = false ∧
    (without 0x7B).valid.wtV = false ∧ (without 0x77).valid.cmatV = false ∧
    ({ ready with nCp := 2, nW := 1 } : State).nCp ≠ ({ ready with nCp := 2, nW := 1 } : State).nW ∧
    ¬GamutTablesOk (rows (Config.nMax + 1)) ∧ GamutTablesOk (rows Config.nMax) :=
  ⟨rfl, ready_shape, by decide, by decide, by decide, by decide, by decide, by decide, by decide,
    rows_gamut.2, rows_gamut.1⟩

theorem witness_SingularFaultExactly :
    ready.err = false ∧ ShapeOk ready ∧ ready.valid.fV = true ∧ ready.valid.cmatV = true ∧
    ready.valid.inV = true ∧ PipeTablesOk ready ∧ MatrixFinite ready ∧ ShapeOk badMatrix ∧
    badMatrix.valid.fV = true ∧ badMatrix.valid.cmatV = true ∧
    (badMatrix.tableElem ipa .cmat 2 2).extractLsb' 23 8 = 0xFF :=
  ⟨rfl, ready_shape, by decide, by decide, by decide, ready_tables, ready_matrix, badMatrix_shape,
    by decide, by decide, badMatrix_entry⟩

theorem witness_NoiseFaultExactly :
    ready.err = false ∧ ShapeOk ready ∧ ready.valid.fV = true ∧ PipeReady ready ∧ VarianceOk ready ∧
    PairsOk ready ∧ fge badVariance.noiseVar fZero = false ∧
    fge (fadd ipa.nan (fmul ipa.nan (badPair.noiseA 2) f255) (badPair.noiseB 2)) fZero = false :=
  ⟨rfl, ready_shape, by decide, ready_pipe, ready_variance, ready_pairs, by decide, badPair_value⟩

theorem witness_NopSetsDoneOnly :
    ready.err = false ∧ ({ ready with err := true } : State).err = true ∧ State.reset.Inv ipa := by
  refine ⟨rfl, rfl, by decide, allMapped_nil, fun _ => ⟨rfl, rfl⟩, fun h => ?_⟩
  cases h

theorem witness_SrstClearsEveryRegister :
    (0x1F#32).extractLsb' 0 4 = 0xF#4 ∧ (0x1F#32) ≠ 0x0000000F#32 ∧
    (0xFFFFFFFF#32).extractLsb' 0 4 = 0xF#4 := by decide

/-- One state for each clause: too many pixels, nothing declared, and one that runs, with its first and last sample. -/
theorem witness_ScaleWritesEveryQuotient :
    ready.err = false ∧ ¬ShapeOk (tall (Config.pixMax + 1)) ∧ (tall (Config.pixMax + 1)).err = false ∧
    ShapeOk (without 0x6F) ∧ (without 0x6F).valid.inV = false ∧ ShapeOk ready ∧ ready.valid.inV = true ∧
    InImage ready 0 0 0 ∧ InImage ready 0 0 2 ∧ ShapeOk (tall Config.pixMax) ∧
    (tall Config.pixMax).valid.inV = true :=
  ⟨rfl, tall_shape.2, rfl, without_shape _, by decide, ready_shape, by decide, ready_image.1,
    ready_image.2, tall_shape.1, by decide⟩

theorem witness_DescaleWritesEveryLevel :
    ready.err = false ∧ ¬ShapeOk (tall (Config.pixMax + 1)) ∧ ShapeOk (without 0x5F) ∧
    (without 0x5F).valid.fV = false ∧ ShapeOk ready ∧ ready.valid.fV = true ∧ InImage ready 0 0 2 :=
  ⟨rfl, tall_shape.2, without_shape _, by decide, ready_shape, by decide, ready_image.2⟩

theorem witness_ToneCopiesTableElements :
    ready.err = false ∧ ¬ShapeOk (tall (Config.pixMax + 1)) ∧ ShapeOk (without 0x5F) ∧
    (without 0x5F).valid.fV = false ∧ ShapeOk (without 0x7E) ∧ (without 0x7E).valid.fV = true ∧
    (without 0x7E).valid.toneV = false ∧ ShapeOk ready ∧ ready.valid.fV = true ∧ ready.valid.toneV = true ∧
    InImage ready 0 0 2 :=
  ⟨rfl, tall_shape.2, without_shape _, by decide, without_shape _, by decide, by decide,
    ready_shape, by decide, by decide, ready_image.2⟩

theorem witness_GamutEvaluatesTheRadialSum :
    ready.err = false ∧ ¬ShapeOk (tall (Config.pixMax + 1)) ∧ ShapeOk (without 0x5F) ∧
    (without 0x5F).valid.fV = false ∧ ShapeOk (rows (Config.nMax + 1)) ∧
    (rows (Config.nMax + 1)).valid.fV = true ∧ ¬GamutTablesOk (rows (Config.nMax + 1)) ∧
    ShapeOk (rows Config.nMax) ∧ (rows Config.nMax).valid.fV = true ∧ GamutTablesOk (rows Config.nMax) ∧
    InImage (rows Config.nMax) 0 0 2 :=
  ⟨rfl, tall_shape.2, without_shape _, by decide, rows_shape _, by decide, rows_gamut.2,
    rows_shape _, by decide, rows_gamut.1, by unfold InImage; decide⟩

theorem witness_CmatMultipliesAndFloors :
    ready.err = false ∧ ¬ShapeOk (tall (Config.pixMax + 1)) ∧ ShapeOk (without 0x5F) ∧
    (without 0x5F).valid.fV = false ∧ ShapeOk (without 0x77) ∧ (without 0x77).valid.fV = true ∧
    (without 0x77).valid.cmatV = false ∧ ShapeOk badMatrix ∧ badMatrix.valid.fV = true ∧
    badMatrix.valid.cmatV = true ∧ ¬MatrixFinite badMatrix ∧ ShapeOk ready ∧ ready.valid.cmatV = true ∧
    MatrixFinite ready ∧ InImage ready 0 0 2 :=
  ⟨rfl, tall_shape.2, without_shape _, by decide, without_shape _, by decide, by decide,
    badMatrix_shape, by decide, by decide, badMatrix_not, ready_shape, by decide, ready_matrix,
    ready_image.2⟩

/-- A 1 by 1 image has the (even, even) sample; a 2 by 2 image, where `PIXMAX` allows it, has all four parities. -/
theorem witness_RemosaicImposesTheBayerPattern :
    ready.err = false ∧ ¬ShapeOk (tall (Config.pixMax + 1)) ∧ ShapeOk (without 0x5F) ∧
    (without 0x5F).valid.fV = false ∧ ShapeOk ready ∧ ready.valid.fV = true ∧ 0 < ready.imgH.toNat ∧
    0 < ready.imgW.toNat ∧ (4 ≤ Config.pixMax → ShapeOk (fresh 2 2 0x7F []) ∧
      1 < (fresh 2 2 0x7F []).imgH.toNat ∧ 1 < (fresh 2 2 0x7F []).imgW.toNat) :=
  ⟨rfl, tall_shape.2, without_shape _, by decide, ready_shape, by decide, by decide, by decide,
    fun h => ⟨⟨by decide, h⟩, by decide, by decide⟩⟩

theorem witness_NoiseUAddsOneDrawPerSample :
    ready.err = false ∧ ¬ShapeOk (tall (Config.pixMax + 1)) ∧ ShapeOk (without 0x5F) ∧
    (without 0x5F).valid.fV = false ∧ ShapeOk badVariance ∧ badVariance.valid.fV = true ∧
    ¬VarianceOk badVariance ∧ ShapeOk ready ∧ ready.valid.fV = true ∧ VarianceOk ready ∧
    VarianceOk { ready with noiseVar := 0x80000000 } ∧ InImage ready 0 0 2 :=
  ⟨rfl, tall_shape.2, without_shape _, by decide, one_pixel rfl rfl rfl, by decide,
    variance_boundary.1, ready_shape, by decide, ready_variance, variance_boundary.2, ready_image.2⟩

theorem witness_NoiseSAddsSignalDependentNoise :
    ready.err = false ∧ ¬ShapeOk (tall (Config.pixMax + 1)) ∧ ShapeOk (without 0x5F) ∧
    (without 0x5F).valid.fV = false ∧ ShapeOk badPair ∧ badPair.valid.fV = true ∧ ¬PairsOk badPair ∧
    ShapeOk ready ∧ ready.valid.fV = true ∧ PairsOk ready ∧ InImage ready 0 0 2 :=
  ⟨rfl, tall_shape.2, without_shape _, by decide, one_pixel rfl rfl rfl, by decide, badPair_not,
    ready_shape, by decide, ready_pairs, ready_image.2⟩

theorem noTone : ¬PipeTablesOk (without 0x7E) := fun h => absurd h.1 (by decide)

theorem badMatrix_tables : PipeTablesOk badMatrix :=
  ⟨by decide, ⟨by decide, by decide, by decide, Nat.zero_le _⟩, by decide⟩

theorem badVariance_pipe : PipeReady badVariance :=
  ⟨one_pixel rfl rfl rfl, by decide,
    ⟨by decide, ⟨by decide, by decide, by decide, Nat.zero_le _⟩, by decide⟩, ready_matrix⟩

theorem badPair_pipe : PipeReady badPair :=
  ⟨one_pixel rfl rfl rfl, by decide,
    ⟨by decide, ⟨by decide, by decide, by decide, Nat.zero_le _⟩, by decide⟩, ready_matrix⟩

theorem witness_PipeCompletesAndSwapsOnce :
    ready.err = false ∧ ¬ShapeOk (tall (Config.pixMax + 1)) ∧ ShapeOk (without 0x6F) ∧
    (without 0x6F).valid.inV = false ∧ ShapeOk (without 0x7E) ∧ (without 0x7E).valid.inV = true ∧
    ¬PipeTablesOk (without 0x7E) ∧ ShapeOk badMatrix ∧ badMatrix.valid.inV = true ∧
    PipeTablesOk badMatrix ∧ ¬MatrixFinite badMatrix ∧ PipeReady ready :=
  ⟨rfl, tall_shape.2, without_shape _, by decide, without_shape _, by decide, noTone,
    badMatrix_shape, by decide, badMatrix_tables, badMatrix_not, ready_pipe⟩

theorem witness_PipeUCompletesAndAdvancesTheGenerator :
    badVariance.err = false ∧ PipeReady badVariance ∧ ¬VarianceOk badVariance ∧ PipeReady ready ∧
    VarianceOk ready :=
  ⟨rfl, badVariance_pipe, variance_boundary.1, ready_pipe, ready_variance⟩

theorem witness_PipeSCompletesAndAdvancesTheGenerator :
    badPair.err = false ∧ PipeReady badPair ∧ ¬PairsOk badPair ∧ PipeReady ready ∧ PairsOk ready :=
  ⟨rfl, badPair_pipe, badPair_not, ready_pipe, ready_pairs⟩

theorem witness_PipeCommandsAreTheirParts :
    ready.err = false ∧ PipeReady ready ∧ VarianceOk ready ∧ PairsOk ready :=
  ⟨rfl, ready_pipe, ready_variance, ready_pairs⟩

theorem witness_ScaleThenDescaleIsTheIdentity :
    ready.err = false ∧ ShapeOk ready ∧ ready.valid.inV = true ∧ InImage ready 0 0 2 :=
  ⟨rfl, ready_shape, rfl, ready_image.2⟩

/-- The 768 entries `x/255`, three alike for each level. -/
def levels : List Word := (List.range 768).map fun e => fdiv someNan (u2f (e / 3)) f255

theorem levels_length : levels.length = 768 := by simp [levels]

/-- What `fresh` lists of its last part, whatever was listed before. -/
theorem wordAt_last_part {s : State} {m : Memory} {a e : Nat} {ws : List Word} (h : s.mem = memSetWords m a ws)
    (he : e < ws.length) : s.wordAt ipa (a + 4 * e) = ws[e] :=
  wordAt_of_bytes ipa fun i hi => by rw [h]; exact memGet_memSetWords_in m a e i ws he hi

/-- A tone table whose every entry is `x/255`, over samples that are three of its values. -/
def identityTable : State := fresh 1 1 0x7F
  [(0x80000000, [0x3F008081, 0x3F800000, 0x00000000]), (0x10000000, levels)]

theorem fresh_mem (h w : Nat) (v : Word) (a b : Nat) (us ws : List Word) :
    (fresh h w v [(a, us), (b, ws)]).mem = memSetWords (memSetWords [] a us) b ws := rfl

theorem identityTable_mem : identityTable.mem =
    memSetWords (memSetWords [] 0x80000000 [0x3F008081, 0x3F800000, 0x00000000]) 0x10000000 levels :=
  fresh_mem 1 1 0x7F _ _ _ _

theorem identityTable_entries (x c : Nat) (hx : x < 256) (hc : c < 3) :
    identityTable.tableElem ipa .tone x c = fdiv ipa.nan (u2f x) f255 := by
  have he : x * 3 + c < levels.length := by rw [levels_length]; omega
  refine (wordAt_last_part identityTable_mem he).trans ?_
  rw [fdiv_level ipa.nan hx]
  simp only [levels, List.getElem_map, List.getElem_range, show (x * 3 + c) / 3 = x by omega]

theorem identityTable_sample : identityTable.wordAt ipa 0x80000000 = 0x3F008081 := by
  refine wordAt_of_bytes ipa fun i hi => ?_
  rw [identityTable_mem, memGet_memSetWords_outside _ _ _ _ (by rw [levels_length]; omega)]
  exact memGet_memSetWords_in [] 0x80000000 0 i [0x3F008081, 0x3F800000, 0x00000000] (Nat.zero_lt_succ _) hi

theorem level_128 : fdiv someNan (u2f 128) f255 = 0x3F008081 := by decide +kernel

theorem witness_IdentityTableQuantisesOnly :
    identityTable.err = false ∧ ShapeOk identityTable ∧ identityTable.valid.fV = true ∧
    identityTable.valid.toneV = true ∧
    (∀ x c, x < 256 → c < 3 → identityTable.tableElem ipa .tone x c = fdiv ipa.nan (u2f x) f255) ∧
    InImage identityTable 0 0 0 ∧
    identityTable.sample ipa identityTable.cur 0 0 0 = fdiv ipa.nan (u2f 128) f255 := by
  refine ⟨rfl, one_pixel rfl rfl rfl, rfl, rfl, identityTable_entries, ?_, ?_⟩
  · exact ⟨(by decide : 0 < (1#32).toNat), (by decide : 0 < (1#32).toNat), (by decide : 0 < 3)⟩
  · rw [fdiv_level ipa.nan (show 128 < 256 by omega), level_128]
    exact identityTable_sample

/-- Two control points with weights of both zeros, and a pixel at finite distances from them. -/
def zeroWeights : State := { fresh 1 1 0x7F
  [(0x20000000, [0, 0, 0, 0x3F800000, 0x3F000000, 0x40000000]),
   (0x30000000, [0, 0x80000000, 0, 0x80000000, 0, 0]),
   (0x80000000, [0x3F000000, 0xBF800000, 0x3E800000])] with nCp := 2, nW := 2 }

theorem witness_ZeroWeightsLeaveTheAffineTerm :
    zeroWeights.err = false ∧ ShapeOk zeroWeights ∧ zeroWeights.valid.fV = true ∧
    (2 ≤ Config.nMax → GamutTablesOk zeroWeights) ∧ GamutTablesOk { zeroWeights with nCp := 1, nW := 1 } ∧
    (∀ k : Fin 2, ∀ j : Fin 3, zeroWeights.tableElem ipa .gwt k.val j.val = 0x00000000#32 ∨
      zeroWeights.tableElem ipa .gwt k.val j.val = 0x80000000#32) ∧
    (∀ k : Fin 2, isFinite (Claim.dist zeroWeights (zeroWeights.sample ipa zeroWeights.cur 0 0) k.val) = true) ∧
    InImage zeroWeights 0 0 2 := by
  refine ⟨rfl, one_pixel rfl rfl rfl, by decide, fun h => ⟨by decide, by decide, rfl, h⟩,
    ⟨by decide, by decide, rfl, nMax_pos⟩, by decide +kernel, by decide +kernel, by unfold InImage; decide⟩

theorem witness_CmatOutputIsNeverNegative :
    ready.err = false ∧ ShapeOk ready ∧ ready.valid.fV = true ∧ ready.valid.cmatV = true ∧
    MatrixFinite ready ∧ InImage ready 0 0 2 :=
  ⟨rfl, ready_shape, by decide, by decide, ready_matrix, ready_image.2⟩

/-- Kept green at (0,0), a discarded channel there; the other parities where two rows or columns fit. -/
theorem witness_SecondRemosaicHalvesGreenAgain :
    ready.err = false ∧ ShapeOk ready ∧ ready.valid.fV = true ∧ InImage ready 0 0 1 ∧ InImage ready 0 0 2 ∧
    (4 ≤ Config.pixMax → ShapeOk (fresh 2 2 0x7F []) ∧ InImage (fresh 2 2 0x7F []) 1 0 2 ∧
      InImage (fresh 2 2 0x7F []) 0 1 0) :=
  ⟨rfl, ready_shape, by decide, by unfold InImage; decide, ready_image.2,
    fun h => ⟨⟨by decide, h⟩, by unfold InImage; decide, by unfold InImage; decide⟩⟩

/-- The same image in the other buffer, with other flags; and a pair of states whose checks fail. -/
def inF0 : State := fresh 1 1 0x7F [(0x80000000, [0x3F000000, 0x3F800000, 0])]
def inF1 : State := { fresh 1 1 0x20 [(0x90000000, [0x3F000000, 0x3F800000, 0])] with cur := .f1, nCp := 5 }

theorem witness_NoiseIsReproducible :
    inF0.err = false ∧ inF1.err = false ∧ ShapeOk inF0 ∧ ShapeOk inF1 ∧ inF0.valid.fV = true ∧
    inF1.valid.fV = true ∧ inF1.imgH = inF0.imgH ∧ inF1.imgW = inF0.imgW ∧
    inF1.rngState = inF0.rngState ∧ inF1.noiseVar = inF0.noiseVar ∧
    (∀ c, c < 3 → inF1.noiseA c = inF0.noiseA c ∧ inF1.noiseB c = inF0.noiseB c) ∧
    (∀ r c ch, InImage inF0 r c ch → inF1.sample ipa inF1.cur r c ch = inF0.sample ipa inF0.cur r c ch) ∧
    VarianceOk inF0 := by
  refine ⟨rfl, rfl, one_pixel rfl rfl rfl, one_pixel rfl rfl rfl, by decide, by decide, rfl, rfl, rfl, rfl,
    fun c _ => ⟨?_, ?_⟩, ?_, by unfold VarianceOk; decide⟩
  · rcases c with _ | _ | c <;> rfl
  · rcases c with _ | _ | c <;> rfl
  · intro r c ch h
    have h0 : r = 0 := Nat.lt_one_iff.mp h.1
    have h1 : c = 0 := Nat.lt_one_iff.mp h.2.1
    subst h0 h1
    have h3 : ∀ ch : Fin 3, inF1.sample ipa inF1.cur 0 0 ch.val = inF0.sample ipa inF0.cur 0 0 ch.val := by
      decide +kernel
    exact h3 ⟨ch, h.2.2⟩

/-- Both ends of the levels, every channel. -/
theorem witness_SignalDeviationIsNeverNaN :
    PairsOk ready ∧ (0 < 3 ∧ 0 ≤ 255) ∧ (2 < 3 ∧ 255 ≤ 255) := ⟨ready_pairs, by decide, by decide⟩

theorem witness_ZeroVariancePipeUWritesWhatPipeWrites :
    ready.err = false ∧ PipeReady ready ∧ ready.noiseVar = 0x00000000 ∧ InImage ready 0 0 2 :=
  ⟨rfl, ready_pipe, rfl, ready_image.2⟩

/-- A state with a written element and a recorded fault, about to take an operation. -/
def recorded : State := { State.reset with
  err := true, errInfo := 4, errCmd := 0x3, mem := memSetWord [] 0x8FFFFFFC 0, host := [.read32 0x08] }

theorem witness_EveryStepKeepsTheInvariant :
    ({ recorded with mem := memSetWord [] 0x80000000 0x3F800000 } : State).Inv ipa ∧
    ({ State.reset with done := true, host := [.write32 0x04 0x0] } : State).Inv ipa := by
  refine ⟨⟨by decide, ?_, ⟨fun h => (by cases h), fun _ => ⟨rfl, .calib, rfl, by decide⟩⟩⟩,
    ⟨by decide, allMapped_nil, ⟨fun _ => ⟨rfl, rfl⟩, fun h => (by cases h)⟩⟩⟩
  refine allMapped_memSetWord _ allMapped_nil fun i hi => ?_
  have := pixMax_pos
  exact mappedByte_base .f0 (by decide) (k := i) (by show i < 12 * Config.pixMax; omega) (by omega)

/-- Every command answers a next state somewhere; here, one that runs and one that faults. -/
theorem witness_CommandsWriteImageElementsOnly :
    (∃ t, exec .nop ready = .next t) ∧ (∃ t, exec .scale ready = .next t) ∧
    (∃ t, exec .pipeS badPair = .next t) := ⟨exec_next _ _, exec_next _ _, exec_next _ _⟩

theorem witness_CommandsKeepTheConfiguration :
    Instr.noiseU ≠ .srst ∧ (∃ t, exec .noiseU ready = .next t) ∧
    Instr.cmat ∉ [Instr.noiseU, .noiseS, .pipeU, .pipeS] ∧ (∃ t, exec .cmat ready = .next t) :=
  ⟨by decide, exec_next _ _, by decide, exec_next _ _⟩

theorem witness_CommandsNeverClearFlags :
    Instr.scale ≠ .srst ∧ (∃ t, exec .scale { ready with domw := true } = .next t) ∧
    ({ ready with domw := true } : State).domw = true ∧ ready.valid.fV = true ∧ ready.valid.outV = true :=
  ⟨by decide, exec_next _ _, rfl, by decide, by decide⟩

theorem witness_DoneTellsWhetherTheCommandRan :
    Instr.scale ≠ .srst ∧ ready.err = false ∧ (∃ t, exec .scale ready = .next t) ∧
    (∃ t, exec .scale (without 0) = .next t) := ⟨by decide, rfl, exec_next _ _, exec_next _ _⟩

theorem witness_ErrorRecordStaysUntilReset :
    recorded.err = true ∧ (∃ t, step recorded = .next t) ∧ (∀ rest, recorded.host ≠ .reset :: rest) ∧
    (∀ rest, recorded.host ≠ .write32 0x00000004 0x0000000F :: rest) :=
  ⟨rfl, ⟨_, rfl⟩, fun rest h => (by cases h), fun rest h => (by cases h)⟩

theorem witness_ResetStateInFull :
    ({ ready with host := [.reset, .read32 0x08] } : State).host = .reset :: [.read32 0x08] := rfl

theorem witness_ReadsChangeNothing :
    (∃ a, HostOp.read32 0x08 = .read8 a ∨ HostOp.read32 0x08 = .read32 a) ∧
    (∃ a, HostOp.read8 0x60000000 = .read8 a ∨ HostOp.read8 0x60000000 = .read32 a) ∧
    recorded.host = .read32 0x08 :: [] := ⟨⟨_, .inr rfl⟩, ⟨_, .inl rfl⟩, rfl⟩

/-- Accepted and refused accesses at the edges of the rule's four cases. -/
theorem access_edges :
    Claim.refused 0xA0000000 4 ∧ Claim.refused 0xFFFFFFFF 1 ∧ ¬Claim.refused 0x0000004C 4 ∧
    Claim.refused 0x00000050 4 ∧ ¬Claim.refused 0x10000BFC 4 ∧ Claim.refused 0x10000C00 4 ∧
    Claim.refused 0x00000008 1 ∧ Claim.refused 0x60000000 4 ∧ Claim.refused 0x00000002 4 ∧
    ¬Claim.refused 0x10000000 4 ∧ ¬Claim.refused 0x4000002C 4 ∧ ¬Claim.refused 0x50000020 4 := by
  refine ⟨.inl (by decide), .inl (by decide), ?_, .inr (.inl (by decide)), ?_, .inr (.inl (by decide)),
    .inr (.inr (.inl (by decide))), .inr (.inr (.inl (by decide))), .inr (.inr (.inr (by decide))), ?_, ?_, ?_⟩ <;>
    (unfold Claim.refused; decide)

/-- The first element of each region whose extent a parameter gives is accepted. -/
theorem access_bases :
    ¬Claim.refused 0x20000000 4 ∧ ¬Claim.refused 0x30000000 4 ∧ ¬Claim.refused 0x60000000 1 ∧
    ¬Claim.refused 0x70000000 1 ∧ ¬Claim.refused 0x80000000 4 ∧ ¬Claim.refused 0x90000000 4 := by
  refine ⟨?_, ?_, ?_, ?_, ?_, ?_⟩ <;> rintro (h | h | h | h) <;> exact absurd h (by decide)

/-- A host about to do one operation. -/
def about1 (op : HostOp) : State := { ready with host := [op] }

theorem witness_BusErrorInExactlyTheFourCases :
    (about1 (.read32 0xA0000000)).host = .read32 0xA0000000 :: [] ∧ Claim.refused 0xA0000000 4 ∧
    (about1 (.write32 0x0000004C 7)).host = .write32 0x0000004C 7 :: [] ∧ ¬Claim.refused 0x0000004C 4 ∧
    (about1 (.read8 0x60000000)).host = .read8 0x60000000 :: [] ∧ ¬Claim.refused 0x60000000 1 ∧
    (about1 (.write8 0x00000008 7)).host = .write8 0x00000008 7 :: [] ∧ Claim.refused 0x00000008 1 :=
  ⟨rfl, access_edges.1, rfl, access_edges.2.2.1, rfl, access_bases.2.2.1, rfl, access_edges.2.2.2.2.2.2.1⟩

theorem witness_MemoryReadsGiveTheElement :
    0x10000000 ≤ (0x10000000#32).toNat ∧ ¬Claim.refused 0x10000000 4 ∧
    (about1 (.read32 0x10000000)).host = .read32 0x10000000 :: [] ∧
    0x10000000 ≤ (0x60000000#32).toNat ∧ ¬Claim.refused 0x60000000 1 ∧
    (about1 (.read8 0x60000000)).host = .read8 0x60000000 :: [] :=
  ⟨by decide, access_edges.2.2.2.2.2.2.2.2.2.1, rfl, by decide, access_bases.2.2.1, rfl⟩

/-- An accepted address in each region that takes words, `F0` being current and `F1` not. -/
theorem witness_WordWritesSetTheElementAndClearItsValidBit :
    (about1 (.write32 0x10000BFC 5)).host = .write32 0x10000BFC 5 :: [] ∧
    0x10000000 ≤ (0x10000BFC#32).toNat ∧ ¬Claim.refused 0x10000BFC 4 ∧ ¬Claim.refused 0x20000000 4 ∧
    ¬Claim.refused 0x30000000 4 ∧ ¬Claim.refused 0x4000002C 4 ∧ ¬Claim.refused 0x50000020 4 ∧
    ¬Claim.refused 0x80000000 4 ∧ ¬Claim.refused 0x90000000 4 ∧ ready.cur = .f0 ∧
    [0x10000BFC#32, 0x20000000, 0x30000000, 0x4000002C, 0x50000020, 0x80000000, 0x90000000].map
      (fun a => a.toNat / 2 ^ 28) = [1, 2, 3, 4, 5, 8, 9] :=
  ⟨rfl, by decide, access_edges.2.2.2.2.1, access_bases.1, access_bases.2.1,
    access_edges.2.2.2.2.2.2.2.2.2.2.1, access_edges.2.2.2.2.2.2.2.2.2.2.2, access_bases.2.2.2.2.1,
    access_bases.2.2.2.2.2, rfl, by decide⟩

theorem witness_ByteWritesSetTheElementAndClearItsValidBit :
    (about1 (.write8 0x60000000 5)).host = .write8 0x60000000 5 :: [] ∧ ¬Claim.refused 0x60000000 1 ∧
    (about1 (.write8 0x70000000 5)).host = .write8 0x70000000 5 :: [] ∧ ¬Claim.refused 0x70000000 1 ∧
    (0x60000000#32).toNat / 2 ^ 28 = 6 ∧ (0x70000000#32).toNat / 2 ^ 28 = 7 :=
  ⟨rfl, access_bases.2.2.1, rfl, access_bases.2.2.2.1, by decide, by decide⟩

/-- Two neighbouring elements. -/
theorem witness_AReadReturnsTheLatestWrite :
    0x10000000 ≤ (0x10000000#32).toNat ∧ ¬Claim.refused 0x10000000 4 ∧
    0x10000000 ≤ (0x10000BFC#32).toNat ∧ ¬Claim.refused 0x10000BFC 4 ∧ (0x10000000#32) ≠ 0x10000BFC#32 ∧
    ({ ready with host := [.write32 0x10000000 1, .write32 0x10000BFC 2, .read32 0x10000000] } : State).host =
      .write32 0x10000000 1 :: .write32 0x10000BFC 2 :: .read32 0x10000000 :: [] :=
  ⟨by decide, access_edges.2.2.2.2.2.2.2.2.2.1, by decide, access_edges.2.2.2.2.1, by decide, rfl⟩

/-- The row conditions of the tone index: a sample for row 255, row 0, and a row between. -/
theorem witness_TheRoundedProductDecidesTheTableRow :
    (0 < 1 ∧ 1 < 255) ∧ (0 < 254 ∧ 254 < 255) ∧ q255 someNan 0x3B808081 = 1 ∧
    q255 someNan 0x3B808080 = 0 ∧ q255 someNan 0x3F7FBE77 = 254 ∧ q255 someNan 0x3F800000 = 255 := by
  decide +kernel

/-- Levels at both ends. -/
theorem witness_ScaleValuesLieInTheUnitRange :
    (0 < (1#8).toNat ∧ (1#8).toNat < 255) ∧ (0 < (254#8).toNat ∧ (254#8).toNat < 255) := by decide

end Sys2Proof.Tests
end

section
/-! PROOFS of the family 10_state.md: the error record, what a command leaves in the registers, the
invariant of the machine, and the host's view of the twenty registers. -/

namespace Sys2Proof.Machine

/-! ### A command word and its instruction -/

/-- The decoder reads each row of the table back (30_encoding.md R105). -/
theorem decode_encode (i : Instr) : decode (encode i) = .command i := by
  cases i <;> decide

/-- A word that decodes to an instruction is that instruction's word. -/
theorem eq_encode_of_decode {w : Word} {i : Instr} (h : decode w = .command i) : w = encode i := by
  rw [encode_eq_packFields, ← fieldsOf_of_decode h, packFields_fieldsOf]

/-- The only word of `SRST` (30_encoding.md R105). -/
theorem eq_srstWord_of_decode {w : Word} (h : decode w = .command .srst) : w = 0x0000000F :=
  eq_encode_of_decode h

/-! ### What a command can do -/

/-- Everything a command but `SRST` can do (46_control.md R191): nothing in the error state; outside it a
fault or the command's body. -/
theorem exec_cases {i : Instr} {s t : State} (hi : i ≠ .srst) (h : exec i s = .next t) :
    (s.err = true ∧ t = s) ∨
    (s.err = false ∧ ∃ f, entryCheck ipa i s = some f ∧ t = takeFault f (encode i) s) ∨
    (s.err = false ∧ entryCheck ipa i s = none ∧ t = bodyOf ipa i s) := by
  rw [exec_eq_runCommand hi] at h
  cases h
  exact runCommand_cases ipa i (bodyOf ipa i) s

/-- A body but `SRST`'s ends with `DONE` set (10_state.md R26). -/
theorem bodyOf_done (P : Params) {i : Instr} (hi : i ≠ .srst) (s : State) : (bodyOf P i s).done = true := by
  cases i with
  | srst => exact absurd rfl hi
  | _ => rfl

/-- A body that is no noise stage and holds none draws nothing from the generator (10_state.md R42). -/
theorem bodyOf_rngState (P : Params) {i : Instr} (hi : i ≠ .srst)
    (hn : i ∉ [Instr.noiseU, .noiseS, .pipeU, .pipeS]) (s : State) :
    (bodyOf P i s).rngState = s.rngState := by
  cases i with
  | srst => exact absurd rfl hi
  | noiseU | noiseS | pipeU | pipeS => exact absurd (by decide) hn
  | _ => rfl

/-- No body but `SRST`'s clears a flag (10_state.md R29, R37). -/
theorem keepsFlags_bodyOf (P : Params) {i : Instr} (hi : i ≠ .srst) (s : State) :
    KeepsFlags s (bodyOf P i s) := by
  cases i with
  | srst => exact absurd rfl hi
  | nop => exact ⟨id, id, id⟩
  | scale => exact keepsFlags_scale P s
  | tone => exact keepsFlags_tone P s
  | gamut => exact keepsFlags_gamut P s
  | cmat => exact keepsFlags_cmat P s
  | noiseU => exact keepsFlags_noiseU P s
  | noiseS => exact keepsFlags_noiseS P s
  | remosaic => exact keepsFlags_remosaic P s
  | descale => exact keepsFlags_descale P s
  | pipe => exact (keepsFlags_front P s).trans (keepsFlags_back P _)
  | pipeU => exact ((keepsFlags_front P s).trans (keepsFlags_noiseU P _)).trans (keepsFlags_back P _)
  | pipeS => exact ((keepsFlags_front P s).trans (keepsFlags_noiseS P _)).trans (keepsFlags_back P _)

/-! ### Which command raises which fault -/

/-- A failing entry check names its condition (60_exceptions.md R205). -/
theorem entryCheck_eq_some {P : Params} {i : Instr} {s : State} {f : ErrCode}
    (h : entryCheck P i s = some f) :
    (i ≠ .nop ∧ i ≠ .srst) ∧
    ((f = .shape ∧ shapeBad P s = true) ∨ (f = .seq ∧ inputMissing i s = true) ∨
      (f = .calib ∧ calibBad P i s = true) ∨ (f = .singular ∧ singularBad P i s = true) ∨
      (f = .noise ∧ noiseBad P i s = true)) := by
  simp only [entryCheck] at h
  split_ifs at h with hi hshape hinput htables hmatrix hnoise
  all_goals cases h
  all_goals refine ⟨by simpa using hi, ?_⟩
  · exact .inl ⟨rfl, hshape⟩
  · exact .inr (.inl ⟨rfl, hinput⟩)
  · exact .inr (.inr (.inl ⟨rfl, htables⟩))
  · exact .inr (.inr (.inr (.inl ⟨rfl, hmatrix⟩)))
  · exact .inr (.inr (.inr (.inr ⟨rfl, hnoise⟩)))

theorem canRaise_calib_of_calibBad {P : Params} {i : Instr} {s : State} (h : calibBad P i s = true) :
    canRaise .calib (.command i) = true := by
  simp only [calibBad, Bool.or_eq_true, Bool.and_eq_true] at h
  simp only [canRaise, Bool.or_eq_true]
  tauto

theorem canRaise_singular_of_singularBad {P : Params} {i : Instr} {s : State} (h : singularBad P i s = true) :
    canRaise .singular (.command i) = true :=
  (Bool.and_eq_true_iff.mp h).1

theorem canRaise_noise_of_noiseBad {P : Params} {i : Instr} {s : State} (h : noiseBad P i s = true) :
    canRaise .noise (.command i) = true := by
  simp only [noiseBad, Bool.or_eq_true, Bool.and_eq_true] at h
  simp only [canRaise, Bool.or_eq_true]
  tauto

/-- The fault of a failing check is one that 60_exceptions.md R201 lists for the command. -/
theorem canRaise_of_entryCheck {P : Params} {i : Instr} {s : State} {f : ErrCode}
    (h : entryCheck P i s = some f) : canRaise f (.command i) = true := by
  obtain ⟨⟨hn, hs⟩, hf⟩ := entryCheck_eq_some h
  have stage : (i != .nop && i != .srst) = true := by simp [hn, hs]
  rcases hf with ⟨rfl, -⟩ | ⟨rfl, -⟩ | ⟨rfl, hc⟩ | ⟨rfl, hm⟩ | ⟨rfl, hv⟩
  · exact stage
  · exact stage
  · exact canRaise_calib_of_calibBad hc
  · exact canRaise_singular_of_singularBad hm
  · exact canRaise_noise_of_noiseBad hv

/-! ### The error record -/

/-- The error registers of two states agree, and `DONE` does where the error state binds it. -/
structure SameErrorRecord (s t : State) : Prop where
  err     : t.err = s.err
  errInfo : t.errInfo = s.errInfo
  errCmd  : t.errCmd = s.errCmd
  done    : s.err = true → t.done = s.done

theorem SameErrorRecord.refl (s : State) : SameErrorRecord s s := ⟨rfl, rfl, rfl, fun _ => rfl⟩

theorem SameErrorRecord.trans {s t u : State} (h : SameErrorRecord s t) (g : SameErrorRecord t u) :
    SameErrorRecord s u :=
  ⟨g.err.trans h.err, g.errInfo.trans h.errInfo, g.errCmd.trans h.errCmd,
    fun he => (g.done (h.err.trans he)).trans (h.done he)⟩

theorem sameErrorRecord_withHost (s : State) (ops : List HostOp) :
    SameErrorRecord s { s with host := ops } :=
  ⟨rfl, rfl, rfl, fun _ => rfl⟩

theorem sameErrorRecord_answer (r : Resp) (s : State) : SameErrorRecord s (answer r s) :=
  ⟨rfl, rfl, rfl, fun _ => rfl⟩

theorem errorRecordOk_of_same {s t : State} (h : SameErrorRecord s t) (hs : errorRecordOk s) :
    errorRecordOk t := by
  obtain ⟨quiet, faulted⟩ := hs
  rw [errorRecordOk, h.err, h.errInfo, h.errCmd]
  exact ⟨quiet, fun he => by rw [h.done he]; exact faulted he⟩

/-- A fault that the recorded word can raise leaves a consistent record (60_exceptions.md R206). -/
theorem errorRecordOk_takeFault {f : ErrCode} {w : Word} (hf : canRaise f (decode w) = true) (s : State) :
    errorRecordOk (takeFault f w s) :=
  ⟨fun h => absurd h (by simp), fun _ => ⟨rfl, f, rfl, hf⟩⟩

/-- Both resets clear the record (10_state.md R30). -/
theorem errorRecordOk_of_cleared {s : State} (he : s.err = false) (hi : s.errInfo = 0)
    (hc : s.errCmd = 0) : errorRecordOk s :=
  ⟨fun _ => ⟨hi, hc⟩, fun h => by simp [he] at h⟩

/-- A body runs outside the error state, where `DONE` is not bound, and leaves the other three alone. -/
theorem sameErrorRecord_bodyOf {i : Instr} (hi : i ≠ .srst) {s : State} (he : s.err = false) :
    SameErrorRecord s (bodyOf ipa i s) := by
  have hdone : s.err = true → (bodyOf ipa i s).done = s.done := fun h => by simp [he] at h
  cases i with
  | srst => exact absurd rfl hi
  | _ => exact ⟨rfl, rfl, rfl, hdone⟩

/-- No register that the host can write is one of the error record (10_state.md R44). -/
theorem sameErrorRecord_writeReg (r : Reg) (v : Word) (s : State) : SameErrorRecord s (writeReg r v s) := by
  cases r <;> exact ⟨rfl, rfl, rfl, fun _ => rfl⟩

theorem sameErrorRecord_hostWrite8 (P : Params) (a : Word) (v : Byte) (s : State) :
    SameErrorRecord s (hostWrite8 P a v s) := by
  rcases hostWrite8_cases P a v s with h | ⟨r, -, -, h⟩ <;> rw [h]
  · exact sameErrorRecord_answer _ s
  · exact ⟨rfl, rfl, rfl, fun _ => rfl⟩

theorem sameErrorRecord_hostWrite32 (P : Params) (a v : Word) (s : State) :
    SameErrorRecord s (hostWrite32 P a v s) := by
  rcases hostWrite32_cases P a v s with h | ⟨r, h⟩ | ⟨r, -, -, h⟩ <;> rw [h]
  · exact sameErrorRecord_answer _ s
  · exact (sameErrorRecord_writeReg r v s).trans (sameErrorRecord_answer _ _)
  · exact ⟨rfl, rfl, rfl, fun _ => rfl⟩

/-! ### The memory parts of the invariant under the host's writes -/

@[simp] theorem writeReg_mem (r : Reg) (v : Word) (s : State) : (writeReg r v s).mem = s.mem := by
  cases r <;> rfl

theorem memoryOk_hostWrite8 {a : Word} {v : Byte} {s : State} (h : MemoryOk s) :
    MemoryOk (hostWrite8 ipa a v s) := by
  obtain ⟨hwf, hmap⟩ := h
  rcases hostWrite8_cases ipa a v s with hw | ⟨r, hr, hacc, hw⟩ <;> rw [hw]
  · exact ⟨hwf, hmap⟩
  · exact ⟨wf_memSet _ _ hwf, allMapped_memSet v hmap (mappedByte_of_access hr hacc Nat.one_pos)⟩

theorem memoryOk_hostWrite32 {a v : Word} {s : State} (h : MemoryOk s) :
    MemoryOk (hostWrite32 ipa a v s) := by
  obtain ⟨hwf, hmap⟩ := h
  rcases hostWrite32_cases ipa a v s with hw | ⟨r, hw⟩ | ⟨r, hr, hacc, hw⟩ <;> rw [hw]
  · exact ⟨hwf, hmap⟩
  · rw [MemoryOk, answer_mem, writeReg_mem]
    exact ⟨hwf, hmap⟩
  · exact ⟨wf_memSetWord _ _ hwf, allMapped_memSetWord v hmap fun i => mappedByte_of_access hr hacc⟩

/-! ### The invariant -/

theorem inv_iff (s : State) : s.Inv ipa ↔ MemoryOk s ∧ errorRecordOk s :=
  ⟨fun ⟨hwf, hmap, herr⟩ => ⟨⟨hwf, hmap⟩, herr⟩, fun ⟨⟨hwf, hmap⟩, herr⟩ => ⟨hwf, hmap, herr⟩⟩

/-- The host's list is no part of the invariant. -/
theorem inv_withHost {s : State} (h : s.Inv ipa) (ops : List HostOp) : ({ s with host := ops }).Inv ipa :=
  ⟨h.memWf, h.memMapped, h.errorOk⟩

/-- The answer is no part of the invariant. -/
theorem inv_answer {s : State} (h : s.Inv ipa) (r : Resp) : (answer r s).Inv ipa :=
  ⟨h.memWf, h.memMapped, h.errorOk⟩

theorem inv_hardReset (s : State) : (hardReset s).Inv ipa :=
  (inv_iff _).mpr ⟨⟨rfl, allMapped_nil⟩, errorRecordOk_of_cleared rfl rfl rfl⟩

theorem inv_softReset {s : State} (h : s.Inv ipa) : (softReset s).Inv ipa :=
  ⟨h.memWf, h.memMapped, errorRecordOk_of_cleared rfl rfl rfl⟩

theorem inv_takeFault {s : State} {f : ErrCode} {w : Word} (h : s.Inv ipa)
    (hf : canRaise f (decode w) = true) : (takeFault f w s).Inv ipa :=
  ⟨h.memWf, h.memMapped, errorRecordOk_takeFault hf s⟩

/-- A body that runs with its checks passed keeps the invariant. -/
theorem inv_bodyOf {i : Instr} {s : State} (hi : i ≠ .srst) (h : s.Inv ipa) (he : s.err = false)
    (hc : entryCheck ipa i s = none) : (bodyOf ipa i s).Inv ipa := by
  obtain ⟨hm, hr⟩ := (inv_iff s).mp h
  have hshape : i = .nop ∨ ShapeOk s := or_iff_not_imp_left.mpr fun hn => shapeOk_of_pass hi hn hc
  exact (inv_iff _).mpr ⟨memoryOk_bodyOf hi hm hshape, errorRecordOk_of_same (sameErrorRecord_bodyOf hi he) hr⟩

/-- Every command keeps the invariant. -/
theorem inv_exec {i : Instr} {s t : State} (h : s.Inv ipa) (ht : exec i s = .next t) : t.Inv ipa := by
  by_cases hi : i = .srst
  · subst hi
    cases ht
    exact inv_softReset h
  · rcases exec_cases hi ht with ⟨-, rfl⟩ | ⟨-, f, hf, rfl⟩ | ⟨he, hc, rfl⟩
    · exact h
    · exact inv_takeFault h (by rw [decode_encode]; exact canRaise_of_entryCheck hf)
    · exact inv_bodyOf hi h he hc

/-- Every word written to `CMD` keeps the invariant. -/
theorem inv_runWord {w : Word} {s t : State} (h : s.Inv ipa) (ht : runWord w s = .next t) : t.Inv ipa := by
  rcases runWord_cases ht with ⟨i, -, hx⟩ | ⟨why, hw, -, rfl⟩ | ⟨-, -, -, rfl⟩
  · exact inv_exec h hx
  · exact inv_takeFault h (by rw [hw]; rfl)
  · exact h

theorem inv_hostWrite8 {a : Word} {v : Byte} {s : State} (h : s.Inv ipa) : (hostWrite8 ipa a v s).Inv ipa := by
  obtain ⟨hm, hr⟩ := (inv_iff s).mp h
  exact (inv_iff _).mpr ⟨memoryOk_hostWrite8 hm, errorRecordOk_of_same (sameErrorRecord_hostWrite8 ipa a v s) hr⟩

theorem inv_hostWrite32 {a v : Word} {s : State} (h : s.Inv ipa) : (hostWrite32 ipa a v s).Inv ipa := by
  obtain ⟨hm, hr⟩ := (inv_iff s).mp h
  exact (inv_iff _).mpr ⟨memoryOk_hostWrite32 hm, errorRecordOk_of_same (sameErrorRecord_hostWrite32 ipa a v s) hr⟩

/-- Settles O37, by cases over what the host's next operation can do. -/
theorem everyStepKeepsTheInvariant : Obligations.EveryStepKeepsTheInvariant := by
  intro s t h hstep
  rcases step_cases hstep with ⟨-, rfl⟩ | ⟨rest, -, rfl⟩ | ⟨-, rest, r, -, -, rfl⟩ |
    ⟨a, v, rest, -, rfl⟩ | ⟨a, v, rest, -, -, rfl⟩ | ⟨w, rest, -, hw⟩
  · exact h
  · exact inv_answer (inv_hardReset _) .ok
  · exact inv_answer (inv_withHost h rest) r
  · exact inv_hostWrite8 (inv_withHost h rest)
  · exact inv_hostWrite32 (inv_withHost h rest)
  · exact inv_runWord (inv_answer (inv_withHost h rest) .ok) hw

/-! ### What every command leaves in the registers -/

/-- Settles O40: a fault and the error state leave these registers, and so does every body. -/
theorem commandsKeepTheConfiguration : Obligations.CommandsKeepTheConfiguration := by
  intro i s t hi h
  rcases exec_cases hi h with ⟨-, rfl⟩ | ⟨-, f, -, rfl⟩ | ⟨-, -, rfl⟩
  · simp
  · exact ⟨rfl, rfl, rfl, rfl, rfl, rfl, rfl, rfl, rfl, rfl, rfl, fun _ => ⟨rfl, rfl⟩, fun _ => rfl⟩
  · obtain ⟨hH, hW, hC, hCp, hNw, hTone, hCpV, hWt, hCmat, hIn, hVar, hPairs, -⟩ := sameSetup_bodyOf ipa hi s
    exact ⟨hH, hW, hC, hCp, hNw, hTone, hCpV, hWt, hCmat, hIn, hVar, hPairs,
      fun hn => bodyOf_rngState ipa hi hn s⟩

/-- No command but `SRST` clears a flag. -/
theorem keepsFlags_exec {i : Instr} {s t : State} (hi : i ≠ .srst) (h : exec i s = .next t) :
    KeepsFlags s t := by
  rcases exec_cases hi h with ⟨-, rfl⟩ | ⟨-, f, -, rfl⟩ | ⟨-, -, rfl⟩
  · exact KeepsFlags.refl t
  · exact ⟨id, id, id⟩
  · exact keepsFlags_bodyOf ipa hi s

/-- Settles O41, from what a command does to the flags. -/
theorem commandsNeverClearFlags : Obligations.CommandsNeverClearFlags := by
  intro i s t hi h
  obtain ⟨hdomw, hfV, houtV⟩ := keepsFlags_exec hi h
  exact ⟨hdomw, hfV, houtV⟩

/-- Settles O42: a fault clears `DONE` and sets `ERR`; a body sets `DONE` and leaves `ERR` at 0. -/
theorem doneTellsWhetherTheCommandRan : Obligations.DoneTellsWhetherTheCommandRan := by
  intro i s t hi he h
  rcases exec_cases hi h with ⟨he', -⟩ | ⟨-, f, -, rfl⟩ | ⟨-, -, rfl⟩
  · simp [he] at he'
  · simp
  · simp [bodyOf_done ipa hi s, (sameSetup_bodyOf ipa hi s).err, he]

/-! ### The error state lasts -/

/-- In the error state every word but `SRST`'s is ignored (60_exceptions.md R208, R209). -/
theorem runWord_of_err {w : Word} {s t : State} (he : s.err = true) (hw : w ≠ 0x0000000F)
    (h : runWord w s = .next t) : t = s := by
  rcases runWord_cases h with ⟨i, hi, hx⟩ | ⟨-, -, he', -⟩ | ⟨-, -, -, ht⟩
  · have hsrst : i ≠ .srst := by rintro rfl; exact hw (eq_srstWord_of_decode hi)
    rw [exec_eq_runCommand hsrst, runCommand_of_err ipa i _ he] at hx
    cases hx
    rfl
  · simp [he] at he'
  · exact ht

/-- From the error state a step keeps the record, unless it is `Reset()` or writes `SRST` to `CMD`. -/
theorem sameErrorRecord_step {s t : State} (he : s.err = true) (h : step s = .next t)
    (hreset : ∀ rest, s.host ≠ .reset :: rest)
    (hsrst : ∀ rest, s.host ≠ .write32 0x00000004 0x0000000F :: rest) : SameErrorRecord s t := by
  rcases step_cases h with ⟨-, rfl⟩ | ⟨rest, hh, -⟩ | ⟨-, rest, r, -, -, rfl⟩ |
    ⟨a, v, rest, -, rfl⟩ | ⟨a, v, rest, -, -, rfl⟩ | ⟨w, rest, hh, hrun⟩
  · exact .refl t
  · exact absurd hh (hreset rest)
  · exact (sameErrorRecord_withHost s rest).trans (sameErrorRecord_answer r _)
  · exact (sameErrorRecord_withHost s rest).trans (sameErrorRecord_hostWrite8 ipa a v _)
  · exact (sameErrorRecord_withHost s rest).trans (sameErrorRecord_hostWrite32 ipa a v _)
  · have hw : w ≠ 0x0000000F := by rintro rfl; exact hsrst rest hh
    have ht : t = answer .ok { s with host := rest } := runWord_of_err he hw hrun
    rw [ht]
    exact (sameErrorRecord_withHost s rest).trans (sameErrorRecord_answer .ok _)

/-- Settles O43: a step from the error state keeps the record unless it is one of the two resets. -/
theorem errorRecordStaysUntilReset : Obligations.ErrorRecordStaysUntilReset := by
  intro s t he h hreset hsrst
  have same := sameErrorRecord_step he h hreset hsrst
  exact ⟨same.err.trans he, same.errInfo, same.errCmd⟩

/-! ### The step that runs a command -/

/-- Settles O3: the step is the host operation, which is the word's run, which is the command. -/
theorem stepRunsTheDecodedCommand : Obligations.StepRunsTheDecodedCommand := by
  intro s w rest i hh hi
  calc step s = hostStep (.write32 cmdAddr w) { s with host := rest } := step_of_host hh
    _ = runWord w (answer .ok { s with host := rest }) := hostStep_cmd w _
    _ = exec i { s with host := rest, resp := some .ok } := by rw [runWord, hi]; rfl

/-! ### The registers of region `CSR` -/

/-- The address of each control register, the column of offsets of 10_state.md R22. -/
def Reg.addr : Reg → Word
  | .id       => 0x00
  | .cmd      => 0x04
  | .status   => 0x08
  | .errInfo  => 0x0C
  | .errCmd   => 0x10
  | .imgH     => 0x14
  | .imgW     => 0x18
  | .imgC     => 0x1C
  | .nCp      => 0x20
  | .nW       => 0x24
  | .valid    => 0x28
  | .cur      => 0x2C
  | .noiseVar => 0x30
  | .noiseA0  => 0x34
  | .noiseB0  => 0x38
  | .noiseA1  => 0x3C
  | .noiseB1  => 0x40
  | .noiseA2  => 0x44
  | .noiseB2  => 0x48
  | .rngState => 0x4C

theorem accessRegion_regAddr (P : Params) (r : Reg) : accessRegion P r.addr 4 = some .csr := by
  cases r <;> rfl

theorem regOfOffset_regAddr (r : Reg) : Reg.ofOffset (r.addr.toNat % 2 ^ 28) = some r := by
  cases r <;> rfl

theorem hostRead32_regAddr (P : Params) (r : Reg) (s : State) :
    hostRead32 P r.addr s = answer (.data32 (s.readReg r)) s := by
  simp only [hostRead32, accessRegion_regAddr, regOfOffset_regAddr]

theorem hostWrite32_regAddr (P : Params) (r : Reg) (v : Word) (s : State) :
    hostWrite32 P r.addr v s = answer .ok (writeReg r v s) := by
  simp only [hostWrite32, accessRegion_regAddr, regOfOffset_regAddr]

theorem regAddr_ne_cmdAddr {r : Reg} (h : r ≠ .cmd) : r.addr ≠ cmdAddr := by
  cases r with
  | cmd => exact absurd rfl h
  | _ => decide

/-- No register holds the host's list. -/
theorem readReg_withHost (r : Reg) (s : State) (ops : List HostOp) :
    ({ s with host := ops }).readReg r = s.readReg r := by
  cases r <;> rfl

/-- No register write sees the host's list. -/
theorem writeReg_withHost (r : Reg) (v : Word) (s : State) (ops : List HostOp) :
    writeReg r v { s with host := ops } = { writeReg r v s with host := ops } := by
  cases r <;> rfl

/-- A step that reads a register (20_memory.md R72). -/
theorem step_readReg (r : Reg) (s : State) (rest : List HostOp) :
    step { s with host := .read32 r.addr :: rest } =
      .next { s with host := rest, resp := some (.data32 (s.readReg r)) } := by
  rw [step_of_host rfl, hostStep, hostRead32_regAddr, readReg_withHost, readReg_withHost]
  rfl

/-- A step that writes a register other than `CMD` (20_memory.md R74). -/
theorem step_writeReg {r : Reg} (h : r ≠ .cmd) (v : Word) (s : State) (rest : List HostOp) :
    step { s with host := .write32 r.addr v :: rest } =
      .next { writeReg r v s with host := rest, resp := some .ok } := by
  rw [step_of_host rfl, hostStep, if_neg (regAddr_ne_cmdAddr h), hostWrite32_regAddr, writeReg_withHost,
    writeReg_withHost]
  rfl

/-- `STATUS` bit by bit (10_state.md R25). -/
theorem statusWord_eq_append (s : State) : s.statusWord =
    ((0#29 ++ BitVec.ofBool s.domw ++ BitVec.ofBool s.err ++ BitVec.ofBool s.done :
      BitVec (29 + 1 + 1 + 1))) := by
  rw [State.statusWord]
  cases s.done <;> cases s.err <;> cases s.domw <;> rfl

/-- `ERRINFO` below its reserved bits (10_state.md R30). -/
theorem zeroExtend_eq_append (x : BitVec 4) : x.zeroExtend 32 = (0#28 ++ x : BitVec (28 + 4)) := by
  revert x
  decide

/-- `VALID` bit by bit (10_state.md R36). -/
theorem validWord_eq_append (v : Valid) : v.word =
    ((0#25 ++ BitVec.ofBool v.outV ++ BitVec.ofBool v.fV ++ BitVec.ofBool v.inV ++ BitVec.ofBool v.cmatV
      ++ BitVec.ofBool v.wtV ++ BitVec.ofBool v.cpV ++ BitVec.ofBool v.toneV :
      BitVec (25 + 1 + 1 + 1 + 1 + 1 + 1 + 1))) := by
  obtain ⟨tone, cp, wt, cmat, inp, f, out⟩ := v
  revert tone cp wt cmat inp f out
  decide

theorem bufWord_eq_ite (b : Buf) : b.word = if b = .f1 then 1 else 0 := by
  cases b <;> rfl

/-- Settles O46: the read of each register, then the layouts of the four that have fields. -/
theorem registerReads : Obligations.RegisterReads := by
  intro s rest reads
  have read (r : Reg) : reads r.addr (s.readReg r) := step_readReg r s rest
  have readAs {r : Reg} {v : Word} (h : s.readReg r = v) : reads r.addr v := h ▸ read r
  exact ⟨read .id, read .cmd, readAs (r := .status) (statusWord_eq_append s),
    readAs (r := .errInfo) (zeroExtend_eq_append s.errInfo), read .errCmd, read .imgH, read .imgW,
    read .imgC, read .nCp, read .nW, readAs (r := .valid) (validWord_eq_append s.valid),
    readAs (r := .cur) (bufWord_eq_ite s.cur), read .noiseVar, read .noiseA0, read .noiseB0,
    read .noiseA1, read .noiseB1, read .noiseA2, read .noiseB2, read .rngState⟩

/-- `DOMW` is cleared exactly where bit 2 is written 1 (10_state.md R28). -/
theorem writeReg_status (v : Word) (s : State) :
    writeReg .status v s = if v.getLsbD 2 = true then { s with domw := false } else s := by
  simp only [writeReg]
  cases v.getLsbD 2
  · rw [Bool.not_false, Bool.and_true]; rfl
  · rw [Bool.not_true, Bool.and_false]; rfl

/-- Settles O47: a write puts the word in the register, with the `VALID` bits it clears. -/
theorem registerWrites : Obligations.RegisterWrites := by
  intro s v rest writes shape
  have write (r : Reg) (h : r ≠ .cmd := by decide) : writes r.addr (writeReg r v s) :=
    step_writeReg h v s rest
  exact ⟨write .id, writeReg_status v s ▸ write .status, write .errInfo, write .errCmd, write .imgH,
    write .imgW, write .imgC, write .nCp, write .nW, write .valid, write .cur, write .noiseVar,
    write .noiseA0, write .noiseB0, write .noiseA1, write .noiseB1, write .noiseA2, write .noiseB2,
    write .rngState⟩

end Sys2Proof.Machine
end

section
/-! PROOFS of the family 20_memory.md: which host accesses are refused, what an accepted access reads or
writes, and that a command writes nothing but the image's elements. -/

namespace Sys2Proof.Machine

/-! ### The map of regions -/

/-- The selector of 20_memory.md R70 inverts the numbering. -/
theorem ofNumber_eq_some_iff {k : Nat} {r : Region} : Region.ofNumber k = some r ↔ k = r.number := by
  constructor
  · intro h
    simp only [Region.ofNumber] at h
    split at h <;> cases h <;> rfl
  · rintro rfl
    cases r <;> rfl

theorem number_lt (r : Region) : r.number < 10 := by
  cases r <;> decide

/-- The selectors 0xA to 0xF name no region (20_memory.md R70). -/
theorem ofNumber_eq_none_iff {k : Nat} : Region.ofNumber k = none ↔ 10 ≤ k := by
  constructor
  · intro h
    by_contra hk
    interval_cases k <;> cases h
  · intro h
    cases hk : Region.ofNumber k with
    | none => rfl
    | some r =>
      rw [ofNumber_eq_some_iff.mp hk] at h
      exact absurd (number_lt r) (Nat.not_lt.mpr h)

theorem mappedBytes_number (r : Region) : Claim.mappedBytes r.number = r.extent ipa := by
  cases r <;> rfl

theorem width_eq_ite_number (r : Region) : r.width = if r.number = 6 ∨ r.number = 7 then 1 else 4 := by
  cases r <;> rfl

theorem number_injective {q r : Region} (h : q.number = r.number) : q = r :=
  Option.some.inj ((ofNumber_eq_some_iff.mpr rfl).symm.trans (ofNumber_eq_some_iff.mpr h))

/-- The model refuses what 20_memory.md R76 does, at both widths there are. -/
theorem accessRegion_eq_none_iff {addr : Word} {n : Nat} (hn : n = 1 ∨ n = 4) :
    accessRegion ipa addr n = none ↔ Claim.refused addr n := by
  cases hr : Region.ofNumber (addr.toNat / 2 ^ 28) with
  | none => simp only [accessRegion, hr, Claim.refused, ofNumber_eq_none_iff.mp hr, true_or]
  | some r =>
    have hlow : ¬10 ≤ r.number := Nat.not_le.mpr (number_lt r)
    have halign : addr.toNat % n ≠ 0 ↔ n = 4 ∧ addr.toNat % 4 ≠ 0 := by
      rcases hn with rfl | rfl <;> omega
    rw [accessRegion, hr]
    simp only [Claim.refused, ofNumber_eq_some_iff.mp hr, mappedBytes_number, ← width_eq_ite_number,
      ← halign, hlow, false_or]
    split_ifs <;> tauto

/-- An access that is not refused reaches a region. -/
theorem accessRegion_of_accepted {addr : Word} {n : Nat} (hn : n = 1 ∨ n = 4) (h : ¬Claim.refused addr n) :
    ∃ r, accessRegion ipa addr n = some r :=
  Option.ne_none_iff_exists'.mp (mt (accessRegion_eq_none_iff hn).mp h)

theorem number_of_access {P : Params} {addr : Word} {n : Nat} {r : Region}
    (h : accessRegion P addr n = some r) : addr.toNat / 2 ^ 28 = r.number :=
  ofNumber_eq_some_iff.mp (accessRegion_eq_some h).1

/-- No register is one byte wide, so a byte access reaches memory. -/
theorem ne_csr_of_byte_access {P : Params} {addr : Word} {r : Region}
    (h : accessRegion P addr 1 = some r) : r ≠ .csr := by
  rintro rfl
  exact absurd (accessRegion_eq_some h).2.2.1 (by decide)

/-- From `2^28` up an access reaches memory (20_memory.md R70). -/
theorem ne_csr_of_le {P : Params} {addr : Word} {n : Nat} {r : Region} (hle : 0x10000000 ≤ addr.toNat)
    (h : accessRegion P addr n = some r) : r ≠ .csr := by
  rintro rfl
  have : addr.toNat / 2 ^ 28 = 0 := number_of_access h
  omega

/-- Every aligned offset that region `CSR` maps holds a register (10_state.md R22). -/
theorem ofOffset_of_access {P : Params} {addr : Word} (h : accessRegion P addr 4 = some .csr) :
    ∃ g, Reg.ofOffset (addr.toNat % 2 ^ 28) = some g := by
  obtain ⟨-, hoff, -, halign⟩ := accessRegion_eq_some h
  have every : ∀ k < 20, (Reg.ofOffset (4 * k)).isSome = true := by decide
  have hk : addr.toNat % 2 ^ 28 = 4 * (addr.toNat % 2 ^ 28 / 4) := by omega
  have hlt : addr.toNat % 2 ^ 28 < 0x50 := hoff
  rw [hk]
  exact Option.isSome_iff_exists.mp (every _ (by omega))

/-- `CMD` is always accessible as a word (10_state.md R24). -/
theorem accessRegion_cmdAddr (P : Params) : accessRegion P cmdAddr 4 = some .csr :=
  accessRegion_regAddr P .cmd

/-! ### What the host port does with an accepted access -/

theorem hostRead8_of_access {P : Params} {addr : Word} {r : Region} (h : accessRegion P addr 1 = some r)
    (s : State) : hostRead8 P addr s = answer (.data8 (s.byteAt P addr.toNat)) s := by
  simp only [hostRead8, h]

theorem hostRead32_of_memory {P : Params} {addr : Word} {r : Region} (hr : r ≠ .csr)
    (h : accessRegion P addr 4 = some r) (s : State) :
    hostRead32 P addr s = answer (.data32 (s.wordAt P addr.toNat)) s := by
  cases r with
  | csr => exact absurd rfl hr
  | _ => simp only [hostRead32, h]

theorem hostWrite8_of_access {P : Params} {addr : Word} {r : Region} (h : accessRegion P addr 1 = some r)
    (v : Byte) (s : State) : hostWrite8 P addr v s =
      answer .ok { s.setByte addr.toNat v with valid := s.valid.afterRegionWrite s.cur r } := by
  simp only [hostWrite8, h]

theorem hostWrite32_of_memory {P : Params} {addr : Word} {r : Region} (hr : r ≠ .csr)
    (h : accessRegion P addr 4 = some r) (v : Word) (s : State) : hostWrite32 P addr v s =
      answer .ok { s.setWord addr.toNat v with valid := s.valid.afterRegionWrite s.cur r } := by
  cases r with
  | csr => exact absurd rfl hr
  | _ => simp only [hostWrite32, h]

/-- An accepted word read answers data, from a register or from memory (20_memory.md R72). -/
theorem hostRead32_of_access {P : Params} {addr : Word} {r : Region} (h : accessRegion P addr 4 = some r)
    (s : State) : ∃ w, hostRead32 P addr s = answer (.data32 w) s := by
  by_cases hr : r = .csr
  · subst hr
    obtain ⟨g, hg⟩ := ofOffset_of_access h
    exact ⟨s.readReg g, by simp only [hostRead32, h, hg]⟩
  · exact ⟨_, hostRead32_of_memory hr h s⟩

/-- An accepted word write is answered `OK` (20_memory.md R74). -/
theorem hostWrite32_resp_of_access {P : Params} {addr : Word} {r : Region}
    (h : accessRegion P addr 4 = some r) (v : Word) (s : State) :
    (hostWrite32 P addr v s).resp = some .ok := by
  by_cases hr : r = .csr
  · subst hr
    obtain ⟨g, hg⟩ := ofOffset_of_access h
    simp only [hostWrite32, h, hg, answer_resp]
  · rw [hostWrite32_of_memory hr h, answer_resp]

/-! ### The answer of a command word -/

theorem bodyOf_resp (P : Params) (i : Instr) (s : State) : (bodyOf P i s).resp = s.resp := by
  cases i <;> rfl

/-- No command changes the answer to the write that ran it. -/
theorem exec_resp {i : Instr} {s t : State} (h : exec i s = .next t) : t.resp = s.resp := by
  by_cases hi : i = .srst
  · subst hi
    cases h
    rfl
  · rcases exec_cases hi h with ⟨-, rfl⟩ | ⟨-, f, -, rfl⟩ | ⟨-, -, rfl⟩
    · rfl
    · rfl
    · exact bodyOf_resp ipa i s

theorem runWord_resp {w : Word} {s t : State} (h : runWord w s = .next t) : t.resp = s.resp := by
  rcases runWord_cases h with ⟨i, -, hx⟩ | ⟨-, -, -, rfl⟩ | ⟨-, -, -, rfl⟩
  · exact exec_resp hx
  · rfl
  · rfl

/-! ### Refused and accepted accesses -/

/-- The address and the width of a host access; `Reset()` is none (20_memory.md R72, R74). -/
def HostOp.access : HostOp → Option (Word × Nat)
  | .read8 a     => some (a, 1)
  | .read32 a    => some (a, 4)
  | .write8 a _  => some (a, 1)
  | .write32 a _ => some (a, 4)
  | .reset       => none

theorem width_of_access {op : HostOp} {addr : Word} {n : Nat} (h : op.access = some (addr, n)) :
    n = 1 ∨ n = 4 := by
  cases op <;> cases h <;> decide

/-- A refused access changes nothing but the answer (20_memory.md R76). -/
theorem hostStep_of_refused {op : HostOp} {addr : Word} {n : Nat} (ho : op.access = some (addr, n))
    (h : accessRegion ipa addr n = none) (s : State) : hostStep op s = .next (answer .busError s) := by
  cases op with
  | reset => cases ho
  | read8 a => cases ho; simp only [hostStep, hostRead8, h]
  | read32 a => cases ho; simp only [hostStep, hostRead32, h]
  | write8 a v => cases ho; simp only [hostStep, hostWrite8, h]
  | write32 a v =>
    cases ho
    have hcmd : addr ≠ cmdAddr := by
      rintro rfl
      rw [accessRegion_cmdAddr] at h
      cases h
    simp only [hostStep, if_neg hcmd, hostWrite32, h]

/-- An accepted access is answered with data or `OK`, a write to `CMD` too (20_memory.md R72, R74). -/
theorem hostStep_resp_of_access {op : HostOp} {addr : Word} {n : Nat} {r : Region} {s t : State}
    (ho : op.access = some (addr, n)) (h : accessRegion ipa addr n = some r)
    (hs : hostStep op s = .next t) : t.resp ≠ some .busError := by
  cases op with
  | reset => cases ho
  | read8 a =>
    cases ho
    cases hs
    simp [hostRead8_of_access h]
  | read32 a =>
    cases ho
    cases hs
    obtain ⟨w, hw⟩ := hostRead32_of_access h s
    simp [hw]
  | write8 a v =>
    cases ho
    cases hs
    simp [hostWrite8_of_access h]
  | write32 a v =>
    cases ho
    by_cases hcmd : addr = cmdAddr
    · rw [hostStep, if_pos hcmd] at hs
      simp [runWord_resp hs]
    · rw [hostStep, if_neg hcmd] at hs
      cases hs
      simp [hostWrite32_resp_of_access h]

/-- Settles O48: the rule's four cases are the model's refusal, which is answered `BusError` alone, and
no accepted access is. -/
theorem busErrorInExactlyTheFourCases : Obligations.BusErrorInExactlyTheFourCases := by
  intro s op rest addr n hop hh
  have ho : op.access = some (addr, n) := by
    rcases hop with ⟨rfl, rfl | ⟨v, rfl⟩⟩ | ⟨rfl, rfl | ⟨v, rfl⟩⟩ <;> rfl
  have hnone := accessRegion_eq_none_iff (addr := addr) (width_of_access ho)
  have refusal (h : Claim.refused addr n) : step s = .next { s with host := rest, resp := some .busError } :=
    (step_of_host hh).trans (hostStep_of_refused ho (hnone.mpr h) _)
  refine ⟨⟨?_, fun h => ⟨_, refusal h, rfl⟩⟩, refusal⟩
  rintro ⟨t, ht, hresp⟩
  by_contra hacc
  obtain ⟨r, hr⟩ := accessRegion_of_accepted (width_of_access ho) hacc
  rw [step_of_host hh] at ht
  exact hostStep_resp_of_access ho hr ht hresp

/-! ### Reads -/

/-- Settles O45: a read of either width changes the answer alone. -/
theorem readsChangeNothing : Obligations.ReadsChangeNothing := by
  rintro s op rest ⟨a, rfl | rfl⟩ hh
  · obtain ⟨r, hr⟩ := hostRead8_answer ipa a { s with host := rest }
    exact ⟨r, by rw [step_of_host hh, hostStep, hr]; rfl⟩
  · obtain ⟨r, hr⟩ := hostRead32_answer ipa a { s with host := rest }
    exact ⟨r, by rw [step_of_host hh, hostStep, hr]; rfl⟩

/-- Settles O49: an accepted read from `2^28` up reaches memory and answers the element. -/
theorem memoryReadsGiveTheElement : Obligations.MemoryReadsGiveTheElement := by
  refine fun s rest addr hle => ⟨fun hacc hh => ?_, fun hacc hh => ?_⟩
  · obtain ⟨r, hr⟩ := accessRegion_of_accepted (.inr rfl) hacc
    rw [step_of_host hh, hostStep, hostRead32_of_memory (ne_csr_of_le hle hr) hr]
    rfl
  · obtain ⟨r, hr⟩ := accessRegion_of_accepted (.inl rfl) hacc
    rw [step_of_host hh, hostStep, hostRead8_of_access hr]
    rfl

/-! ### Writes -/

/-- An accepted write clears the bit of the region that the address selects (10_state.md R38). -/
theorem afterRegionWrite_of_number {P : Params} {addr : Word} {n : Nat} {r : Region}
    (h : accessRegion P addr n = some r) (v : Valid) (cur : Buf) (q : Region)
    (hq : addr.toNat / 2 ^ 28 = q.number) : v.afterRegionWrite cur r = v.afterRegionWrite cur q := by
  rw [number_injective ((number_of_access h).symm.trans hq)]

/-- A step that writes a word to memory (20_memory.md R74). -/
theorem step_write32_memory {s : State} {rest : List HostOp} {addr v : Word} {r : Region}
    (hh : s.host = .write32 addr v :: rest) (hr : r ≠ .csr) (h : accessRegion ipa addr 4 = some r) :
    step s = .next { s.setWord addr.toNat v with
      host := rest, resp := some .ok, valid := s.valid.afterRegionWrite s.cur r } := by
  have hcmd : addr ≠ cmdAddr := by
    rintro rfl
    exact hr (Option.some.inj (h.symm.trans (accessRegion_cmdAddr ipa)))
  rw [step_of_host hh, hostStep, if_neg hcmd, hostWrite32_of_memory hr h]
  rfl

/-- A step that writes a byte to memory (20_memory.md R74). -/
theorem step_write8_memory {s : State} {rest : List HostOp} {addr : Word} {v : Byte} {r : Region}
    (hh : s.host = .write8 addr v :: rest) (h : accessRegion ipa addr 1 = some r) :
    step s = .next { s.setByte addr.toNat v with
      host := rest, resp := some .ok, valid := s.valid.afterRegionWrite s.cur r } := by
  rw [step_of_host hh, hostStep, hostWrite8_of_access h]
  rfl

/-- Settles O50: the step stores the element and clears the bit of the address's region. -/
theorem wordWritesSetTheElementAndClearItsValidBit :
    Obligations.WordWritesSetTheElementAndClearItsValidBit := by
  intro s rest addr v hh hle hacc
  obtain ⟨r, hr⟩ := accessRegion_of_accepted (.inr rfl) hacc
  have clears := afterRegionWrite_of_number hr s.valid s.cur
  refine ⟨_, step_write32_memory hh (ne_csr_of_le hle hr) hr, rfl, wordAt_setWord ipa s addr.toNat v,
    fun x hx => byteAt_setWord_outside ipa s addr.toNat x v hx, ?_⟩
  exact ⟨clears .tone, clears .gcp, clears .gwt, clears .gcoef, clears .cmat, clears .f0, clears .f1⟩

/-- Settles O51: the step stores the byte and clears the bit of the address's region. -/
theorem byteWritesSetTheElementAndClearItsValidBit :
    Obligations.ByteWritesSetTheElementAndClearItsValidBit := by
  intro s rest addr v hh hacc
  obtain ⟨r, hr⟩ := accessRegion_of_accepted (.inl rfl) hacc
  have clears := afterRegionWrite_of_number hr s.valid s.cur
  refine ⟨_, step_write8_memory hh hr, rfl, (byteAt_setByte ipa s _ _ v).trans (if_pos rfl),
    fun x hx => (byteAt_setByte ipa s _ x v).trans (if_neg (by omega)), clears .u8in, clears .u8out⟩

/-! ### A read after two writes -/

theorem aligned_of_accepted {addr : Word} (h : ¬Claim.refused addr 4) : addr.toNat % 4 = 0 := by
  by_contra hn
  exact h (.inr (.inr (.inr ⟨rfl, hn⟩)))

/-- Two elements at different addresses share no byte. -/
theorem accepted_words_apart {a b : Word} (ha : ¬Claim.refused a 4) (hb : ¬Claim.refused b 4) (hab : a ≠ b)
    {i : Nat} (hi : i < 4) : ¬(b.toNat ≤ a.toNat + i ∧ a.toNat + i < b.toNat + 4) := by
  have hne : a.toNat ≠ b.toNat := fun h => hab (BitVec.eq_of_toNat_eq h)
  have := aligned_of_accepted ha
  have := aligned_of_accepted hb
  omega

/-- Settles O52: the second write leaves the first element's bytes, and the read gives the element. -/
theorem aReadReturnsTheLatestWrite : Obligations.AReadReturnsTheLatestWrite := by
  intro s rest a b v w hla ha hlb hb hab hh
  obtain ⟨t, hst, ht, hread, -⟩ := wordWritesSetTheElementAndClearItsValidBit s _ a v hh hla ha
  obtain ⟨u, htu, hu, -, hsame, -⟩ :=
    wordWritesSetTheElementAndClearItsValidBit t _ b w (congrArg State.host ht) hlb hb
  have hux := (memoryReadsGiveTheElement u rest a hla).1 ha (congrArg State.host hu)
  have hkept : u.wordAt ipa a.toNat = v :=
    (wordAt_congr ipa fun i hi => hsame _ (accepted_words_apart ha hb hab hi)).trans hread
  exact ⟨t, u, _, hst, htu, hux, by rw [hkept], rfl⟩

/-! ### What a command writes in memory -/

/-- What may change in memory between two states of one shape (20_memory.md R79). -/
structure OnlyImage (s t : State) : Prop where
  setup   : SameSetup s t
  buffers : Claim.onlyBuffersChange s t

theorem OnlyImage.trans {s t u : State} (h : OnlyImage s t) (g : OnlyImage t u) : OnlyImage s u := by
  refine ⟨h.setup.trans g.setup, fun a ho h0 h1 => ?_⟩
  have hg := g.buffers a
  rw [h.setup.imgH, h.setup.imgW] at hg
  exact (hg ho h0 h1).trans (h.buffers a ho h0 h1)

theorem onlyBuffersChange_of_same_memory {s t : State} (hm : t.mem = s.mem) (he : t.epoch = s.epoch) :
    Claim.onlyBuffersChange s t :=
  fun a _ _ _ => byteAt_same ipa hm he a

/-- A stage that stores into a float buffer, whichever of the two it is. -/
theorem onlyImage_of_store {s t : State} {b : Buf} {f : Nat → Word} (hs : SameSetup s t)
    (hm : t.mem = (s.storeFloats b f).mem) (he : t.epoch = s.epoch) : OnlyImage s t := by
  refine ⟨hs, fun a _ h0 h1 => byteAt_of_store ipa hm he ?_⟩
  simp only [State.elements, State.pixels]
  cases b <;> omega

theorem onlyImage_scale (s : State) : OnlyImage s (scaleBody ipa s) :=
  onlyImage_of_store (sameSetup_scale ipa s) rfl rfl

theorem onlyImage_tone (s : State) : OnlyImage s (toneBody ipa s) :=
  onlyImage_of_store (sameSetup_tone ipa s) rfl rfl

theorem onlyImage_gamut (s : State) : OnlyImage s (gamutBody ipa s) :=
  onlyImage_of_store (sameSetup_gamut ipa s) rfl rfl

theorem onlyImage_cmat (s : State) : OnlyImage s (cmatBody ipa s) :=
  onlyImage_of_store (sameSetup_cmat ipa s) rfl rfl

theorem onlyImage_noiseU (s : State) : OnlyImage s (noiseUBody ipa s) :=
  onlyImage_of_store (sameSetup_noiseU ipa s) rfl rfl

theorem onlyImage_noiseS (s : State) : OnlyImage s (noiseSBody ipa s) :=
  onlyImage_of_store (sameSetup_noiseS ipa s) rfl rfl

theorem onlyImage_remosaic (s : State) : OnlyImage s (remosaicBody ipa s) :=
  onlyImage_of_store (sameSetup_remosaic ipa s) rfl rfl

theorem onlyImage_descale (s : State) : OnlyImage s (descaleBody ipa s) := by
  refine ⟨sameSetup_descale ipa s, fun a ho _ _ => descaleBody_outside ipa s ?_⟩
  simp only [State.elements, State.pixels]
  exact ho

theorem onlyImage_front (s : State) : OnlyImage s (frontStages ipa s) :=
  ((onlyImage_scale s).trans (onlyImage_tone _)).trans ((onlyImage_gamut _).trans (onlyImage_cmat _))

theorem onlyImage_back (s : State) : OnlyImage s (backStages ipa s) :=
  (onlyImage_remosaic s).trans (onlyImage_descale _)

/-- Every body, stage by stage; that of `SRST` keeps all of memory (46_control.md R189). -/
theorem onlyBuffersChange_bodyOf (i : Instr) (s : State) : Claim.onlyBuffersChange s (bodyOf ipa i s) := by
  cases i with
  | nop | srst => exact onlyBuffersChange_of_same_memory rfl rfl
  | scale => exact (onlyImage_scale s).buffers
  | tone => exact (onlyImage_tone s).buffers
  | gamut => exact (onlyImage_gamut s).buffers
  | cmat => exact (onlyImage_cmat s).buffers
  | noiseU => exact (onlyImage_noiseU s).buffers
  | noiseS => exact (onlyImage_noiseS s).buffers
  | remosaic => exact (onlyImage_remosaic s).buffers
  | descale => exact (onlyImage_descale s).buffers
  | pipe => exact ((onlyImage_front s).trans (onlyImage_back _)).buffers
  | pipeU => exact (((onlyImage_front s).trans (onlyImage_noiseU _)).trans (onlyImage_back _)).buffers
  | pipeS => exact (((onlyImage_front s).trans (onlyImage_noiseS _)).trans (onlyImage_back _)).buffers

theorem onlyBuffersChange_exec {i : Instr} {s t : State} (h : exec i s = .next t) :
    Claim.onlyBuffersChange s t := by
  by_cases hi : i = .srst
  · subst hi
    cases h
    exact onlyBuffersChange_bodyOf .srst s
  · rcases exec_cases hi h with ⟨-, rfl⟩ | ⟨-, f, -, rfl⟩ | ⟨-, -, rfl⟩
    · exact onlyBuffersChange_of_same_memory rfl rfl
    · exact onlyBuffersChange_of_same_memory rfl rfl
    · exact onlyBuffersChange_bodyOf i s

/-- Settles O39: every stage stores into one buffer of the image, and all three buffers lie above the
tables and `U8IN`. -/
theorem commandsWriteImageElementsOnly : Obligations.CommandsWriteImageElementsOnly := by
  intro i s t h
  have hb := onlyBuffersChange_exec h
  refine ⟨hb, fun a ha => hb a ?_ ?_ ?_⟩
  · rw [base_u8out]; omega
  · rw [base_f0]; omega
  · rw [base_f1]; omega

end Sys2Proof.Machine
end

section
/-! PROOFS of the family 30_encoding.md: the thirteen command words, and why every other word is
illegal. -/

namespace Sys2Proof

/-! ### The words of the table -/

/-- Every instruction, in the order of the rows of 30_encoding.md R105. -/
def Instr.all : List Instr :=
  [.nop, .scale, .tone, .gamut, .cmat, .noiseU, .noiseS, .remosaic, .descale, .pipe, .pipeU, .pipeS,
    .srst]

theorem Instr.mem_all (i : Instr) : i ∈ Instr.all := by
  cases i <;> decide

/-- A word is a command exactly when it is that command's word: the decoder and the encoder agree. -/
theorem decode_eq_command_iff {w : Word} {i : Instr} : decode w = .command i ↔ w = encode i := by
  constructor
  · exact Machine.eq_encode_of_decode
  · rintro rfl
    exact Machine.decode_encode i

/-- The rows made from the encoder's words are the encoder's graph. -/
theorem mem_encodeRows_iff {w : Word} {i : Instr} :
    (i, w) ∈ Instr.all.map (fun j => (j, encode j)) ↔ w = encode i := by
  constructor
  · intro h
    obtain ⟨j, -, hj⟩ := List.mem_map.mp h
    cases hj
    rfl
  · rintro rfl
    exact List.mem_map_of_mem (Instr.mem_all i)

/-- Settles O1: the literal table lists the encoder's rows, and a word decodes to an instruction exactly
when it is that instruction's word. -/
theorem commandWordsAreExactlyTheTable : Obligations.CommandWordsAreExactlyTheTable :=
  ⟨fun i _ => Machine.decode_encode i, fun _ _ => decode_eq_command_iff.trans mem_encodeRows_iff.symm⟩

/-! ### The three causes of an illegal word -/

/-- The table of operations accepts only an assigned `OP` with an allowed `NV` (30_encoding.md R102,
R103). -/
theorem legal_of_decodeOp {f : CmdFields} {i : Instr}
    (h : decodeOp f.op.toNat f.nv.toNat = some i) : f.opAssigned = true ∧ f.variantAllowed = true := by
  have hlegal : i.fields.opAssigned = true ∧ i.fields.variantAllowed = true := by cases i <;> decide
  rw [decodeOp_eq_some h] at hlegal
  exact hlegal

theorem decodeOp_of_not_opAssigned {f : CmdFields} (h : f.opAssigned = false) :
    decodeOp f.op.toNat f.nv.toNat = none :=
  Option.eq_none_iff_forall_ne_some.mpr fun _ hi => by simp [legal_of_decodeOp hi] at h

theorem decodeOp_of_not_variantAllowed {f : CmdFields} (h : f.variantAllowed = false) :
    decodeOp f.op.toNat f.nv.toNat = none :=
  Option.eq_none_iff_forall_ne_some.mpr fun _ hi => by simp [legal_of_decodeOp hi] at h

/-- 30_encoding.md R104. -/
theorem decode_of_reserved {w : Word} (hr : (fieldsOf w).rsv ≠ 0) :
    decode w = .illegal .reservedBits := by
  simp only [decode, if_pos hr]

/-- 30_encoding.md R102. -/
theorem decode_of_unassigned {w : Word} (hr : (fieldsOf w).rsv = 0)
    (ha : (fieldsOf w).opAssigned = false) : decode w = .illegal .unassignedOp := by
  simp [decode, hr, decodeOp_of_not_opAssigned ha, ha]

/-- 30_encoding.md R103. -/
theorem decode_of_variant {w : Word} (hr : (fieldsOf w).rsv = 0)
    (ha : (fieldsOf w).opAssigned = true) (hv : (fieldsOf w).variantAllowed = false) :
    decode w = .illegal .variantNotAllowed := by
  simp [decode, hr, decodeOp_of_not_variantAllowed hv, ha]

/-- Settles O2: the first nine words are the encoder's; each of the others shows the cause of its
refusal in its fields. -/
theorem writtenOutWordsDecode : Obligations.WrittenOutWordsDecode := by
  refine ⟨Machine.decode_encode .scale, Machine.decode_encode .tone, Machine.decode_encode .gamut,
    Machine.decode_encode .cmat, Machine.decode_encode .noiseU, Machine.decode_encode .noiseS,
    Machine.decode_encode .remosaic, Machine.decode_encode .pipeS, Machine.decode_encode .srst,
    ?noVariant, ?variantThree, ?variantOfScale, ?opNine, ?bitSix, ?topBit, ?allOnes⟩
  case noVariant | variantThree | variantOfScale =>
    exact decode_of_variant (by decide) (by decide) (by decide)
  case opNine => exact decode_of_unassigned (by decide) (by decide)
  case bitSix | topBit | allOnes => exact decode_of_reserved (by decide)

end Sys2Proof
end

section
/-! PROOFS of the family 40_scaler.md: the entry faults every stage shares, what `SCALE` and `DESCALE`
leave in registers and memory, the 256 values of `SCALE`, and the round trip. -/

namespace Sys2Proof.Machine

/-! ### The entry faults of a stage -/

/-- 60_exceptions.md R202, for every command with entry checks. -/
theorem exec_shapeFault {i : Instr} {s : State} (hn : i ≠ .nop) (hr : i ≠ .srst) (he : s.err = false)
    (hs : ¬ShapeOk s) : exec i s = .next (faultState 2 i s) :=
  exec_of_fault hr he (check_fails_shape hn hr hs)

/-- 60_exceptions.md R204, for every command with entry checks. -/
theorem exec_seqFault {i : Instr} {s : State} (hn : i ≠ .nop) (hr : i ≠ .srst) (he : s.err = false)
    (hs : ShapeOk s) (hi : inputMissing i s = true) : exec i s = .next (faultState 3 i s) :=
  exec_of_fault hr he (check_fails_seq hn hr hs hi)

theorem inputMissing_scale (s : State) : inputMissing .scale s = !s.valid.inV := rfl

theorem inputMissing_descale (s : State) : inputMissing .descale s = !s.valid.fV := rfl

theorem exec_scale_of_pass {s : State} (he : s.err = false) (hs : ShapeOk s) (hv : s.valid.inV = true) :
    exec .scale s = .next (scaleBody ipa s) :=
  exec_of_pass (by decide) he (check_scale hs hv)

theorem exec_descale_of_pass {s : State} (he : s.err = false) (hs : ShapeOk s) (hv : s.valid.fV = true) :
    exec .descale s = .next (descaleBody ipa s) :=
  exec_of_pass (by decide) he (check_descale hs hv)

/-! ### The bytes of the image -/

/-- The image in a float buffer, in bytes (20_memory.md R79). -/
theorem four_mul_elements (s : State) : 4 * s.elements = 12 * (s.imgH.toNat * s.imgW.toNat) := by
  simp only [State.elements, State.pixels]; omega

/-- A stage that stores into a float buffer leaves every byte outside the image's alone. -/
theorem sameOutside_of_store {s t : State} {b : Buf} {f : Nat → Word}
    (hm : t.mem = (s.storeFloats b f).mem) (he : t.epoch = s.epoch) :
    SameOutside s t b.base (12 * (s.imgH.toNat * s.imgW.toNat)) := by
  rw [← four_mul_elements]
  exact fun a ha => byteAt_of_store ipa hm he ha

/-! ### The commands -/

/-- Settles O14: the two faults by the entry checks; the body stores the quotient at every element. -/
theorem scaleWritesEveryQuotient : Obligations.ScaleWritesEveryQuotient := by
  refine ⟨decode_encode .scale, fun s he => ⟨?shape, ?seq, ?runs⟩⟩
  case shape => exact exec_shapeFault (by decide) (by decide) he
  case seq =>
    intro hs hv
    exact exec_seqFault (by decide) (by decide) he hs (by rw [inputMissing_scale, hv]; rfl)
  case runs =>
    intro hs hv
    exact ⟨scaleBody ipa s, exec_scale_of_pass he hs hv, scaleBody_frame ipa s,
      fun r c ch hi => scaleBody_elem ipa s (elemIndex_lt hi), sameOutside_of_store rfl rfl⟩

/-- The level `DESCALE` writes fits its byte (40_scaler.md R124). -/
theorem toNat_descaleElem (P : Params) (s : State) (e : Nat) :
    (descaleElem P s e).toNat = q255 P.nan (s.floatElem P s.cur e) := by
  rw [descaleElem, BitVec.toNat_ofNat, Nat.mod_eq_of_lt (q255_lt _ _)]

theorem descaleBody_domw_iff (s : State) :
    (descaleBody ipa s).domw = true ↔ s.domw = true ∨ SomeOutOfRange s := by
  rw [← anyOutOfRange_iff, ← Bool.or_eq_true]
  exact Iff.rfl

/-- Settles O15: the two faults by the entry checks; the body stores the level at every element. -/
theorem descaleWritesEveryLevel : Obligations.DescaleWritesEveryLevel := by
  refine ⟨decode_encode .descale, fun s he => ⟨?shape, ?seq, ?runs⟩⟩
  case shape => exact exec_shapeFault (by decide) (by decide) he
  case seq =>
    intro hs hv
    exact exec_seqFault (by decide) (by decide) he hs (by rw [inputMissing_descale, hv]; rfl)
  case runs =>
    intro hs hv
    refine ⟨descaleBody ipa s, exec_descale_of_pass he hs hv, descaleBody_frame ipa s,
      descaleBody_domw_iff s, fun r c ch hi => ?_, fun a ha => descaleBody_outside ipa s ha⟩
    rw [descaleBody_elem ipa s (elemIndex_lt hi), toNat_descaleElem]
    rfl

/-! ### The values of `SCALE` -/

/-- A level is its own count of units: `u2f` is exact (00_scope.md R12). -/
theorem u2f_parts : ∀ x : Fin 256, signOf (u2f x.val) = false ∧ isFinite (u2f x.val) = true ∧
    magnitude (u2f x.val) = x.val * 2 ^ 149 := by decide +kernel

/-- A value of `SCALE` is the exact quotient, rounded once (40_scaler.md R122). -/
theorem fdiv_u2f_f255 (nan : NanChoice) {x : Nat} (hx : x < 256) :
    fdiv nan (u2f x) f255 = withSign false (roundUnits (x * 2 ^ 149 * 2 ^ 149) (255 * 2 ^ 149)) := by
  obtain ⟨hsign, hfin, hmag⟩ := u2f_parts ⟨x, hx⟩
  have hsign' : signOf f255 = false := by decide
  have hfin' : isFinite f255 = true := by decide
  have hmag' : magnitude f255 = 255 * 2 ^ 149 := by decide
  simp [fdiv, isNaN_of_isFinite, isInf_of_isFinite, hfin, hfin', hsign, hsign', hmag, hmag']

/-- Among encodings without a sign the greater bits are the greater number. -/
theorem fle_withSign {m n : Nat} (h : m ≤ n) (hn : n ≤ infMagnitude) :
    fle (withSign false m) (withSign false n) = true := by
  have hlt : infMagnitude < 2 ^ 31 := by decide
  simp only [fle, fge, isNaN_withSign false (h.trans hn), isNaN_withSign false hn,
    signedValue_withSign false (show m < 2 ^ 31 by omega), signedValue_withSign false (show n < 2 ^ 31 by omega)]
  simpa using unitsOf_mono h

/-- `SCALE` is monotone because rounding is. -/
theorem fle_fdiv_level (nan : NanChoice) {x y : Nat} (h : x ≤ y) (hy : y < 256) :
    fle (fdiv nan (u2f x) f255) (fdiv nan (u2f y) f255) = true := by
  rw [fdiv_u2f_f255 nan (by omega), fdiv_u2f_f255 nan hy]
  exact fle_withSign (roundUnits_mono _ (Nat.mul_le_mul_right _ (Nat.mul_le_mul_right _ h))) (roundUnits_le _ _)

theorem isFinite_level (nan : NanChoice) {x : Nat} (h : x < 256) :
    isFinite (fdiv nan (u2f x) f255) = true := by
  obtain ⟨-, -, -, -, hfin⟩ := levels_table ⟨x, h⟩
  rw [fdiv_level nan h]
  exact hfin

/-- No count of units is `x/255` between the ends: 255 is odd, so it would divide `x`. -/
theorem quotient_not_exact {x : Nat} (h0 : 0 < x) (h255 : x < 255) (m : Nat) : 255 * m ≠ x * 2 ^ 149 := by
  intro h
  have hcop : Nat.Coprime 255 (2 ^ 149) := Nat.Coprime.pow_right 149 (by decide)
  exact Nat.not_dvd_of_pos_of_lt h0 h255 (hcop.dvd_of_dvd_mul_right (Dvd.intro m h))

/-- Settles O27: the ends by their quotients, the range by the table of levels, the rest for every level by
monotone rounding and by divisibility. -/
theorem scaleValuesLieInTheUnitRange : Obligations.ScaleValuesLieInTheUnitRange := by
  refine ⟨?zero, ?one, fun x => ⟨isFinite_level _ x.isLt, outOfRange_level _ x.isLt,
    fun h => quotient_not_exact h.1 h.2 _, fun h => fle_fdiv_level _ (Nat.le_succ _) (by omega)⟩⟩
  case zero => rw [fdiv_u2f_f255 _ (by decide)]; decide
  case one => rw [fdiv_u2f_f255 _ (by decide)]; decide

/-! ### The round trip -/

/-- 40_scaler.md R125: the rounded quotient times 255 rounds back to the level. As in the spec, checked value
by value, here with one fixed choice of NaN. -/
theorem roundTrip_table : ∀ x : Fin 256,
    fmul someNan (fdiv someNan (u2f x.val) f255) f255 = u2f x.val := by decide +kernel

theorem fmul_fdiv_level (nan : NanChoice) {x : Nat} (h : x < 256) :
    fmul nan (fdiv nan (u2f x) f255) f255 = u2f x := by
  obtain ⟨-, hnum, -⟩ := levels_table ⟨x, h⟩
  rw [fdiv_level nan h, fmul_congr_nan nan someNan hnum]
  exact roundTrip_table ⟨x, h⟩

/-- `SCALE` leaves no sample out of range (40_scaler.md R122). -/
theorem scaleBody_inRange (P : Params) (s : State) :
    anyOutOfRange P (scaleBody P s) (scaleBody P s).cur = false := by
  simp only [anyOutOfRange, List.any_eq_false, List.mem_range]
  intro e he
  have helem : (scaleBody P s).floatElem P (scaleBody P s).cur e = scaleElem P s e := scaleBody_elem P s he
  rw [helem, scaleElem, outOfRange_level _ (s.u8inElem P e).isLt]
  decide

/-- The two bodies in a row give back the byte of `U8IN`. -/
theorem descaleBody_scaleBody_elem (P : Params) (s : State) {e : Nat} (h : e < s.elements) :
    (descaleBody P (scaleBody P s)).u8outElem P e = s.u8inElem P e := by
  have helem : (scaleBody P s).floatElem P (scaleBody P s).cur e = scaleElem P s e := scaleBody_elem P s h
  apply BitVec.eq_of_toNat_eq
  calc ((descaleBody P (scaleBody P s)).u8outElem P e).toNat
      = (descaleElem P (scaleBody P s) e).toNat := by rw [descaleBody_elem P (scaleBody P s) h]
    _ = q255 P.nan (scaleElem P s e) := by rw [toNat_descaleElem, helem]
    _ = (s.u8inElem P e).toNat := q255_fdiv_level _ (s.u8inElem P e).isLt

theorem descaleBody_scaleBody_domw (P : Params) (s : State) :
    (descaleBody P (scaleBody P s)).domw = s.domw := by
  calc (descaleBody P (scaleBody P s)).domw
      = (s.domw || anyOutOfRange P (scaleBody P s) (scaleBody P s).cur) := rfl
    _ = s.domw := by rw [scaleBody_inRange, Bool.or_false]

/-- Settles O26: the quantiser undoes the division at each level, and `SCALE` leaves a state in which
`DESCALE` passes its checks. -/
theorem scaleThenDescaleIsTheIdentity : Obligations.ScaleThenDescaleIsTheIdentity := by
  constructor
  · intro nan x hx
    have hlt : x < 256 := by omega
    exact ⟨fmul_fdiv_level nan hlt, q255_fdiv_level nan hlt⟩
  · intro s he hs hv
    exact ⟨scaleBody ipa s, descaleBody ipa (scaleBody ipa s), exec_scale_of_pass he hs hv,
      exec_descale_of_pass he ((sameSetup_scale ipa s).shapeOk hs) rfl, he, descaleBody_scaleBody_domw ipa s,
      fun r c ch hi => descaleBody_scaleBody_elem ipa s (elemIndex_lt hi)⟩

end Sys2Proof.Machine
end

section
/-! PROOFS of the family 41_tone_mapper_lut.md: what `TONE` leaves in registers and memory, which row of
the table a sample reads, and the identity table. -/

namespace Sys2Proof.Machine

/-! ### `TONE` -/

/-- 60_exceptions.md R203, for every command with entry checks. -/
theorem exec_calibFault {i : Instr} {s : State} (hn : i ≠ .nop) (hr : i ≠ .srst) (he : s.err = false)
    (hs : ShapeOk s) (hi : inputMissing i s = false) (hc : calibBad ipa i s = true) :
    exec i s = .next (faultState 4 i s) :=
  exec_of_fault hr he (check_fails_calib hn hr hs hi hc)

theorem inputMissing_tone (s : State) : inputMissing .tone s = !s.valid.fV := rfl

theorem calibBad_tone (P : Params) (s : State) : calibBad P .tone s = !s.valid.toneV :=
  (Bool.or_false _).trans (Bool.or_false _)

theorem exec_tone_of_pass {s : State} (he : s.err = false) (hs : ShapeOk s) (hv : s.valid.fV = true)
    (ht : s.valid.toneV = true) : exec .tone s = .next (toneBody ipa s) :=
  exec_of_pass (by decide) he (check_tone hs hv ht)

theorem toneBody_domw_iff (s : State) :
    (toneBody ipa s).domw = true ↔ s.domw = true ∨ SomeOutOfRange s := by
  rw [← anyOutOfRange_iff, ← Bool.or_eq_true]
  exact Iff.rfl

/-- Every sample of the new current buffer is the table element of its level and its channel
(41_tone_mapper_lut.md R131). -/
theorem toneBody_sample (P : Params) {s : State} {r c ch : Nat} (hi : InImage s r c ch) :
    (toneBody P s).sample P (toneBody P s).cur r c ch =
      s.tableElem P .tone (q255 P.nan (s.sample P s.cur r c ch)) ch := by
  have ⟨_, _, hch⟩ := hi
  calc (toneBody P s).sample P (toneBody P s).cur r c ch
      = toneElem P s (elemIndex s.imgW.toNat r c ch) := toneBody_elem P s (elemIndex_lt hi)
    _ = s.tableElem P .tone (q255 P.nan (s.sample P s.cur r c ch)) ch := by
      rw [toneElem, chanOf_elemIndex _ r c ch hch, State.sample]

/-- Settles O16: the three faults by the entry checks; the body stores the table element at every
element. -/
theorem toneCopiesTableElements : Obligations.ToneCopiesTableElements := by
  refine ⟨decode_encode .tone, fun s he => ⟨?shape, ?seq, ?calib, ?runs⟩⟩
  case shape => exact exec_shapeFault (by decide) (by decide) he
  case seq =>
    intro hs hv
    exact exec_seqFault (by decide) (by decide) he hs (by rw [inputMissing_tone, hv]; rfl)
  case calib =>
    intro hs hv ht
    exact exec_calibFault (by decide) (by decide) he hs (by rw [inputMissing_tone, hv]; rfl)
      (by rw [calibBad_tone, ht]; rfl)
  case runs =>
    intro hs hv ht
    exact ⟨toneBody ipa s, exec_tone_of_pass he hs hv ht, toneBody_frame ipa s, toneBody_domw_iff s,
      fun r c ch hi => toneBody_sample ipa hi, sameOutside_of_store rfl rfl⟩

/-! ### The row a sample reads -/

/-- Among numbers, to be at least a level is to have an integer part that is. -/
theorem fge_u2f_iff (w : Word) {k : Nat} (hk : k < 256) :
    fge w (u2f k) = true ↔ isNaN w = false ∧ (k : Int) ≤ floorInt w := by
  obtain ⟨hsign, hfin, hmag⟩ := u2f_parts ⟨k, hk⟩
  have hval : signedValue (u2f k) = k * 2 ^ 149 := by simp [signedValue, hsign, hmag]
  rw [floorInt, Int.le_ediv_iff_mul_le (by positivity), ← hval]
  simp [fge, isNaN_of_isFinite hfin]

theorem fZero_eq_u2f : fZero = u2f 0 := by decide

theorem fOne_eq_u2f : fOne = u2f 1 := by decide

theorem f255_eq_u2f : f255 = u2f 255 := by decide

/-- The row reaches level `k` exactly when the rounded product does (41_tone_mapper_lut.md R132): the one
fact that decides every row. -/
theorem le_q255_iff (nan : NanChoice) (v : Word) {k : Nat} (h0 : 0 < k) (hk : k ≤ 255) :
    k ≤ q255 nan v ↔ fge (fmul nan v f255) (u2f k) = true := by
  have hlevel := fge_u2f_iff (fmul nan v f255) (Nat.lt_succ_of_le hk)
  have hzero := fge_u2f_iff (fmul nan v f255) (k := 0) (by decide)
  have htop := fge_u2f_iff (fmul nan v f255) (k := 255) (by decide)
  rw [← fZero_eq_u2f] at hzero
  rw [← f255_eq_u2f] at htop
  simp only [q255]
  split_ifs with hneg hge
  · -- below zero or a NaN: row 0, and no level above 0 is reached
    rw [Bool.not_eq_true', ← Bool.not_eq_true, hzero] at hneg
    rw [hlevel]
    exact iff_of_false (by omega) fun ⟨hnum, hfloor⟩ => hneg ⟨hnum, by omega⟩
  · -- 255.0 or more: row 255, and every level is reached
    obtain ⟨hnum, hfloor⟩ := htop.mp hge
    rw [hlevel]
    exact iff_of_true hk ⟨hnum, by omega⟩
  · -- between: the row is the integer part
    rw [Bool.not_eq_true', Bool.not_eq_false, hzero] at hneg
    rw [hlevel]
    obtain ⟨hnum, -⟩ := hneg
    rw [and_iff_right hnum]
    omega

/-- Settles O28: each row by the levels the product reaches and those it does not. -/
theorem theRoundedProductDecidesTheTableRow : Obligations.TheRoundedProductDecidesTheTableRow := by
  intro nan v t
  have reach {k : Nat} (h0 : 0 < k) (hk : k ≤ 255) : k ≤ q255 nan v ↔ fge t (u2f k) = true :=
    le_q255_iff nan v h0 hk
  have hle : q255 nan v ≤ 255 := Nat.le_of_lt_succ (q255_lt nan v)
  refine ⟨hle, ?top, ?bottom, fun k h0 hk => ?between⟩
  case top =>
    rw [f255_eq_u2f, ← reach (by decide) le_rfl]
    omega
  case bottom =>
    rw [fOne_eq_u2f, ← Bool.not_eq_true, ← reach Nat.one_pos (by decide)]
    omega
  case between =>
    rw [← Bool.not_eq_true, ← reach h0 (by omega), ← reach (Nat.succ_pos k) (by omega)]
    omega

/-! ### The identity table -/

/-- Settles O29: the copied element is the quotient of the sample's level, and the level of a quotient is
its own (40_scaler.md R125). -/
theorem identityTableQuantisesOnly : Obligations.IdentityTableQuantisesOnly := by
  intro s he hs hv ht htable
  refine ⟨toneBody ipa s, exec_tone_of_pass he hs hv ht, fun r c ch hi => ?_⟩
  have ⟨_, _, hch⟩ := hi
  have hout : (toneBody ipa s).sample ipa (toneBody ipa s).cur r c ch =
      fdiv ipa.nan (u2f (q255 ipa.nan (s.sample ipa s.cur r c ch))) f255 :=
    (toneBody_sample ipa hi).trans (htable _ _ (q255_lt _ _) hch)
  exact ⟨hout, fun k hk hk' => by rw [hout, hk', q255_fdiv_level _ hk]⟩

end Sys2Proof.Machine
end

section
/-! PROOFS of the family 42_gamut_rbf_eval.md: what `GAMUT` leaves in registers and memory, and the zero
weights that leave the affine term. -/

namespace Sys2Proof.Machine

/-! ### The checks of `GAMUT` -/

theorem inputMissing_gamut (s : State) : inputMissing .gamut s = !s.valid.fV := rfl

theorem calibBad_gamut (P : Params) (s : State) : calibBad P .gamut s = gamutMissing P s :=
  Bool.or_false _

/-- 60_exceptions.md R203, the table row of `GAMUT`. -/
theorem calibBad_gamut_of_not_tablesOk {s : State} (h : ¬GamutTablesOk s) :
    calibBad ipa .gamut s = true := by
  rwa [calibBad_gamut, ← Bool.not_eq_false, gamutMissing_eq_false_iff]

theorem exec_gamut_of_pass {s : State} (he : s.err = false) (hs : ShapeOk s) (hv : s.valid.fV = true)
    (hg : GamutTablesOk s) : exec .gamut s = .next (gamutBody ipa s) :=
  exec_of_pass (by decide) he (check_gamut hs hv hg)

/-! ### The reference evaluator over the tables -/

/-- The accumulator over two tables listed by one index is a fold over that index, in its order
(42_gamut_rbf_eval.md R142). -/
theorem rbfSum_map (nan : NanChoice) (c : Rgb) (j : Nat) (cp wt : Nat → Rgb) (ks : List Nat) (acc : Word) :
    rbfSum nan c j acc (ks.map cp) (ks.map wt) =
      ks.foldl (fun a k => fadd nan a (fmul nan (rbfDistance nan c (cp k)) ((wt k).chan j))) acc := by
  induction ks generalizing acc with
  | nil => rfl
  | cons k ks ih => exact ih _

/-- The sum over rows `0 .. N-1` of `GCP` and `GWT`, element by element (42_gamut_rbf_eval.md R141). -/
theorem rbfSum_tableRows (s : State) (x : Nat → Word) {j : Nat} (hj : j < 3) (acc : Word) :
    rbfSum ipa.nan ⟨x 0, x 1, x 2⟩ j acc (s.tableRows ipa .gcp s.nCp.toNat)
        (s.tableRows ipa .gwt s.nCp.toNat) =
      (List.range s.nCp.toNat).foldl
        (fun a k => fadd ipa.nan a (fmul ipa.nan (Claim.dist s x k) (s.tableElem ipa .gwt k j))) acc := by
  rw [State.tableRows, State.tableRows, rbfSum_map]
  simp only [tableRow_chan ipa s .gwt _ hj]
  rfl

/-- The affine terms over the rows of `GCOEF`, element by element (42_gamut_rbf_eval.md R141). -/
theorem affineTerms_gamutCoef (s : State) (x : Nat → Word) {j : Nat} (hj : j < 3) (acc : Word) :
    affineTerms ipa.nan ⟨x 0, x 1, x 2⟩ (s.gamutCoef ipa) j acc = Claim.affine s x j acc := by
  simp only [affineTerms, State.gamutCoef, tableRow_chan ipa s .gcoef _ hj]
  rfl

/-- A channel of the reference evaluator is R141's formula for that channel. -/
theorem rbfEval_chan (s : State) (x : Nat → Word) {j : Nat} (hj : j < 3) :
    (ipa.rbfEval ⟨x 0, x 1, x 2⟩ (s.tableRows ipa .gcp s.nCp.toNat) (s.tableRows ipa .gwt s.nCp.toNat)
      (s.gamutCoef ipa)).chan j = Claim.gamut s x j := by
  calc _ = rbfChannel ipa.nan ⟨x 0, x 1, x 2⟩ (s.tableRows ipa .gcp s.nCp.toNat)
        (s.tableRows ipa .gwt s.nCp.toNat) (s.gamutCoef ipa) j := chan_samples (rbfChannel _ _ _ _ _) hj
    _ = Claim.gamut s x j := by
      rw [rbfChannel, rbfSum_tableRows s x hj, affineTerms_gamutCoef s x hj, Claim.gamut]

/-- Every sample of the new current buffer is R141's formula for its pixel and its channel. -/
theorem gamutBody_sample {s : State} {r c j : Nat} (hi : InImage s r c j) :
    (gamutBody ipa s).sample ipa (gamutBody ipa s).cur r c j =
      Claim.gamut s (s.sample ipa s.cur r c) j := by
  have ⟨_, _, hj⟩ := hi
  calc (gamutBody ipa s).sample ipa (gamutBody ipa s).cur r c j
      = gamutElem ipa s (elemIndex s.imgW.toNat r c j) := gamutBody_elem ipa s (elemIndex_lt hi)
    _ = Claim.gamut s (s.sample ipa s.cur r c) j := by
      rw [gamutElem, pixelOf_elemIndex ipa s s.cur r c j hj, chanOf_elemIndex _ r c j hj,
        rbfEval_chan s (s.sample ipa s.cur r c) hj]

/-- Settles O17: the three faults by the entry checks; the body stores R141's formula at every element. -/
theorem gamutEvaluatesTheRadialSum : Obligations.GamutEvaluatesTheRadialSum := by
  refine ⟨decode_encode .gamut, fun s he => ⟨?shape, ?seq, ?calib, ?runs⟩⟩
  case shape => exact exec_shapeFault (by decide) (by decide) he
  case seq =>
    intro hs hv
    exact exec_seqFault (by decide) (by decide) he hs (by rw [inputMissing_gamut, hv]; rfl)
  case calib =>
    intro hs hv hg
    exact exec_calibFault (by decide) (by decide) he hs (by rw [inputMissing_gamut, hv]; rfl)
      (calibBad_gamut_of_not_tablesOk hg)
  case runs =>
    intro hs hv hg
    exact ⟨gamutBody ipa s, exec_gamut_of_pass he hs hv hg, gamutBody_frame ipa s,
      fun r c j hi => gamutBody_sample hi, sameOutside_of_store rfl rfl⟩

/-! ### Zero weights -/

/-- A finite number times a zero, added to `+0.0`, leaves `+0.0` whatever the signs: the sum of two zeros
is `-0` only when both are (00_scope.md R12). -/
theorem fadd_fZero_fmul_zero (nan : NanChoice) {d w : Word} (hd : isFinite d = true)
    (hw : w = 0x00000000#32 ∨ w = 0x80000000#32) : fadd nan fZero (fmul nan d w) = fZero := by
  have hbits : w.toNat % 2 ^ 31 = 0 := by rcases hw with rfl | rfl <;> decide
  rw [fmul_zero_right nan hd hbits]
  exact fadd_zero_right nan isNaN_fZero (by decide) _

/-- With zero weights and finite distances the radial sum is still `+0.0` after the last control point
(42_gamut_rbf_eval.md R144). -/
theorem gamut_eq_affine_of_zeroWeights {s : State} {x : Nat → Word} {j : Nat}
    (hw : ∀ k, k < s.nCp.toNat →
      s.tableElem ipa .gwt k j = 0x00000000#32 ∨ s.tableElem ipa .gwt k j = 0x80000000#32)
    (hd : ∀ k, k < s.nCp.toNat → isFinite (Claim.dist s x k) = true) :
    Claim.gamut s x j = Claim.affine s x j fZero := by
  rw [Claim.gamut]
  congr 1
  refine List.foldlRecOn (motive := (· = fZero)) _ _ rfl ?_
  rintro _ rfl k hk
  rw [List.mem_range] at hk
  exact fadd_fZero_fmul_zero ipa.nan (hd k hk) (hw k hk)

/-- Settles O30: the formula of the stored sample starts its affine terms from the radial sum, which stays
`+0.0`. -/
theorem zeroWeightsLeaveTheAffineTerm : Obligations.ZeroWeightsLeaveTheAffineTerm := by
  intro s he hs hv hg hw
  refine ⟨gamutBody ipa s, exec_gamut_of_pass he hs hv hg, fun r c j hi hd => ?_⟩
  have ⟨_, _, hj⟩ := hi
  rw [gamutBody_sample hi]
  exact gamut_eq_affine_of_zeroWeights (fun k hk => hw k j hk hj) hd

end Sys2Proof.Machine
end

section
/-! PROOFS of the family 43_color_matrix_mult.md: what `CMAT` leaves in registers and memory, and the floor
that keeps its output from being negative or a NaN. -/

namespace Sys2Proof.Machine

/-! ### The checks of `CMAT` -/

/-- 60_exceptions.md R210, for every command with entry checks. -/
theorem exec_singularFault {i : Instr} {s : State} (hn : i ≠ .nop) (hr : i ≠ .srst) (he : s.err = false)
    (hs : ShapeOk s) (hi : inputMissing i s = false) (hc : calibBad ipa i s = false)
    (hm : singularBad ipa i s = true) : exec i s = .next (faultState 5 i s) :=
  exec_of_fault hr he (check_fails_singular hn hr hs hi hc hm)

theorem inputMissing_cmat (s : State) : inputMissing .cmat s = !s.valid.fV := rfl

theorem calibBad_cmat (P : Params) (s : State) : calibBad P .cmat s = !s.valid.cmatV := rfl

theorem singularBad_cmat (P : Params) (s : State) : singularBad P .cmat s = cmatNotFinite P s := rfl

/-- 60_exceptions.md R210, the row of `CMAT`. -/
theorem singularBad_cmat_of_not_matrixFinite {s : State} (h : ¬MatrixFinite s) :
    singularBad ipa .cmat s = true := by
  rwa [singularBad_cmat, ← Bool.not_eq_false, cmatNotFinite_eq_false_iff]

theorem exec_cmat_of_pass {s : State} (he : s.err = false) (hs : ShapeOk s) (hv : s.valid.fV = true)
    (hc : s.valid.cmatV = true) (hm : MatrixFinite s) : exec .cmat s = .next (cmatBody ipa s) :=
  exec_of_pass (by decide) he (check_cmat hs hv hc hm)

/-! ### The samples `CMAT` writes -/

/-- Every sample of the new current buffer is the floored sum of its pixel and its channel's row of the
matrix (43_color_matrix_mult.md R151). -/
theorem cmatBody_sample (P : Params) {s : State} {r c j : Nat} (hi : InImage s r c j) :
    (cmatBody P s).sample P (cmatBody P s).cur r c j =
      floorAtZero (colorSum P ⟨s.sample P s.cur r c 0, s.sample P s.cur r c 1, s.sample P s.cur r c 2⟩
        (s.tableRow P .cmat j)) := by
  have ⟨_, _, hj⟩ := hi
  have stored : (cmatBody P s).sample P (cmatBody P s).cur r c j =
      cmatElem P s (elemIndex s.imgW.toNat r c j) := cmatBody_elem P s (elemIndex_lt hi)
  rw [stored, cmatElem, pixelOf_elemIndex P s s.cur r c j hj, chanOf_elemIndex _ r c j hj]

/-- Settles O18: the four faults by the entry checks; the body stores the floored sum at every element. -/
theorem cmatMultipliesAndFloors : Obligations.CmatMultipliesAndFloors := by
  refine ⟨decode_encode .cmat, fun s he => ⟨?shape, ?seq, ?calib, ?singular, ?runs⟩⟩
  case shape => exact exec_shapeFault (by decide) (by decide) he
  case seq =>
    intro hs hv
    exact exec_seqFault (by decide) (by decide) he hs (by rw [inputMissing_cmat, hv]; rfl)
  case calib =>
    intro hs hv hc
    exact exec_calibFault (by decide) (by decide) he hs (by rw [inputMissing_cmat, hv]; rfl)
      (by rw [calibBad_cmat, hc]; rfl)
  case singular =>
    intro hs hv hc hm
    exact exec_singularFault (by decide) (by decide) he hs (by rw [inputMissing_cmat, hv]; rfl)
      (by rw [calibBad_cmat, hc]; rfl) (singularBad_cmat_of_not_matrixFinite hm)
  case runs =>
    intro hs hv hc hm
    exact ⟨cmatBody ipa s, exec_cmat_of_pass he hs hv hc hm, cmatBody_frame ipa s,
      fun r c j hi => cmatBody_sample ipa hi, sameOutside_of_store rfl rfl⟩

/-! ### The floor -/

theorem fgt_zero_iff (w : Word) : fgt w fZero = true ↔ isNaN w = false ∧ 0 < signedValue w := by
  simp [fgt, isNaN_fZero, signedValue_fZero]

theorem signOf_eq_msb (w : Word) : signOf w = w.msb := (BitVec.msb_eq_decide w).symm

/-- A value above zero has sign bit 0: with sign bit 1 it is the negative of a magnitude. -/
theorem signOf_of_signedValue_pos {w : Word} (h : 0 < signedValue w) : signOf w = false := by
  by_contra hs
  rw [Bool.not_eq_false] at hs
  rw [signedValue, if_pos hs] at h
  omega

/-- Either the sum passed the test `sum > +0.0`, or the floor is `+0.0` itself
(43_color_matrix_mult.md R152 (b)). -/
theorem floorAtZero_nonneg (sum : Word) :
    isNaN (floorAtZero sum) = false ∧ (floorAtZero sum).msb = false := by
  rw [floorAtZero]
  split
  · next h =>
    obtain ⟨hnan, hpos⟩ := (fgt_zero_iff sum).mp h
    exact ⟨hnan, by rw [← signOf_eq_msb, signOf_of_signedValue_pos hpos]⟩
  · exact ⟨isNaN_fZero, by decide⟩

/-- Settles O31: every sample written is a floored sum. -/
theorem cmatOutputIsNeverNegative : Obligations.CmatOutputIsNeverNegative := by
  intro s he hs hv hc hm
  refine ⟨cmatBody ipa s, exec_cmat_of_pass he hs hv hc hm, fun r c j hi => ?_⟩
  rw [cmatBody_sample ipa hi]
  exact floorAtZero_nonneg _

end Sys2Proof.Machine
end

section
/-! PROOFS of the family 44_bayer_remosaicer.md: the channel each parity keeps, what `REMOSAIC` leaves in
registers and memory, and the second `REMOSAIC`. -/

namespace Sys2Proof.Machine

/-! ### The checks of `REMOSAIC` -/

theorem inputMissing_remosaic (s : State) : inputMissing .remosaic s = !s.valid.fV := rfl

theorem exec_remosaic_of_pass {s : State} (he : s.err = false) (hs : ShapeOk s) (hv : s.valid.fV = true) :
    exec .remosaic s = .next (remosaicBody ipa s) :=
  exec_of_pass (by decide) he (check_remosaic hs hv)

/-! ### The kept channel (44_bayer_remosaicer.md R160) -/

theorem keep_of_same_parity {r c : Nat} (h : r % 2 = c % 2) : keep r c = 1 := by
  obtain hr | hr := Nat.mod_two_eq_zero_or_one r
  · simp [keep, hr, ← h]
  · simp [keep, hr, ← h]

theorem keep_of_even_odd {r c : Nat} (hr : r % 2 = 0) (hc : c % 2 = 1) : keep r c = 0 := by
  simp [keep, hr, hc]

theorem keep_of_odd_even {r c : Nat} (hr : r % 2 = 1) (hc : c % 2 = 0) : keep r c = 2 := by
  simp [keep, hr, hc]

theorem keep_eq_one_iff (r c : Nat) : keep r c = 1 ↔ r % 2 = c % 2 := by
  refine ⟨fun h => ?_, keep_of_same_parity⟩
  by_contra hne
  obtain hr | hr := Nat.mod_two_eq_zero_or_one r
  · rw [keep_of_even_odd hr (by omega)] at h
    exact absurd h (by decide)
  · rw [keep_of_odd_even hr (by omega)] at h
    exact absurd h (by decide)

/-! ### One element (44_bayer_remosaicer.md R161) -/

theorem bayerSample_discarded (P : Params) {r c ch : Nat} (v : Word) (h : ch ≠ keep r c) :
    bayerSample P r c ch v = fZero := if_pos h

theorem bayerSample_green (P : Params) {r c : Nat} (v : Word) (h : keep r c = 1) :
    bayerSample P r c 1 v = fmul P.nan v fHalf := by
  simp [bayerSample, h]

theorem bayerSample_copied (P : Params) {r c ch : Nat} (v : Word) (h : keep r c = ch) (hg : ch ≠ 1) :
    bayerSample P r c ch v = v := by
  simp [bayerSample, h, hg]

/-- Off the kept green samples an element is zeroed or copied, so a second pass changes nothing. -/
theorem bayerSample_idem (P : Params) {r c ch : Nat} (v : Word) (h : ¬(ch = 1 ∧ r % 2 = c % 2)) :
    bayerSample P r c ch (bayerSample P r c ch v) = bayerSample P r c ch v := by
  rw [← keep_eq_one_iff] at h
  by_cases hk : ch = keep r c
  · exact bayerSample_copied P _ hk.symm (fun hg => h ⟨hg, hk ▸ hg⟩)
  · rw [bayerSample_discarded P _ hk, bayerSample_discarded P _ hk]

/-! ### The samples `REMOSAIC` writes -/

theorem remosaicBody_sample (P : Params) {s : State} {r c ch : Nat} (hi : InImage s r c ch) :
    (remosaicBody P s).sample P (remosaicBody P s).cur r c ch =
      bayerSample P r c ch (s.sample P s.cur r c ch) := by
  have ⟨_, hc, hch⟩ := hi
  calc (remosaicBody P s).sample P (remosaicBody P s).cur r c ch
      = remosaicElem P s (elemIndex s.imgW.toNat r c ch) := remosaicBody_elem P s (elemIndex_lt hi)
    _ = bayerSample P r c ch (s.sample P s.cur r c ch) := by
      rw [remosaicElem, rowOf_elemIndex _ r c ch hc hch, colOf_elemIndex _ r c ch hc hch,
        chanOf_elemIndex _ r c ch hch, State.sample]

/-- A sample of a channel that R160 does not keep. -/
theorem remosaicBody_discarded (P : Params) {s : State} {r c ch : Nat} (hi : InImage s r c ch)
    (h : ch ≠ keep r c) : (remosaicBody P s).sample P (remosaicBody P s).cur r c ch = fZero := by
  rw [remosaicBody_sample P hi, bayerSample_discarded P _ h]

/-- A kept green sample. -/
theorem remosaicBody_green (P : Params) {s : State} {r c : Nat} (hi : InImage s r c 1) (h : keep r c = 1) :
    (remosaicBody P s).sample P (remosaicBody P s).cur r c 1 = fmul P.nan (s.sample P s.cur r c 1) fHalf := by
  rw [remosaicBody_sample P hi, bayerSample_green P _ h]

/-- A kept red or blue sample. -/
theorem remosaicBody_copied (P : Params) {s : State} {r c ch : Nat} (hi : InImage s r c ch)
    (h : keep r c = ch) (hg : ch ≠ 1) :
    (remosaicBody P s).sample P (remosaicBody P s).cur r c ch = s.sample P s.cur r c ch := by
  rw [remosaicBody_sample P hi, bayerSample_copied P _ h hg]

/-- Settles O19: the two faults by the entry checks; each parity keeps its channel, and the other two are
discarded. -/
theorem remosaicImposesTheBayerPattern : Obligations.RemosaicImposesTheBayerPattern := by
  refine ⟨decode_encode .remosaic, fun s he => ⟨?shape, ?seq, ?runs⟩⟩
  case shape => exact exec_shapeFault (by decide) (by decide) he
  case seq =>
    intro hs hv
    exact exec_seqFault (by decide) (by decide) he hs (by rw [inputMissing_remosaic, hv]; rfl)
  case runs =>
    intro hs hv
    refine ⟨remosaicBody ipa s, exec_remosaic_of_pass he hs hv, remosaicBody_frame ipa s,
      fun r c hr hc => ?_, sameOutside_of_store rfl rfl⟩
    have red : InImage s r c 0 := ⟨hr, hc, by decide⟩
    have green : InImage s r c 1 := ⟨hr, hc, by decide⟩
    have blue : InImage s r c 2 := ⟨hr, hc, by decide⟩
    refine ⟨fun h => ?_, fun ⟨hr0, hc1⟩ => ?_, fun ⟨hr1, hc0⟩ => ?_⟩
    · have hk := keep_of_same_parity h
      exact ⟨remosaicBody_discarded ipa red (by rw [hk]; decide), remosaicBody_green ipa green hk,
        remosaicBody_discarded ipa blue (by rw [hk]; decide)⟩
    · have hk := keep_of_even_odd hr0 hc1
      exact ⟨remosaicBody_copied ipa red hk (by decide), remosaicBody_discarded ipa green (by rw [hk]; decide),
        remosaicBody_discarded ipa blue (by rw [hk]; decide)⟩
    · have hk := keep_of_odd_even hr1 hc0
      exact ⟨remosaicBody_discarded ipa red (by rw [hk]; decide),
        remosaicBody_discarded ipa green (by rw [hk]; decide), remosaicBody_copied ipa blue hk (by decide)⟩

/-! ### The second `REMOSAIC` (44_bayer_remosaicer.md R165) -/

/-- Settles O32: the first command keeps the shape and sets `F_V`, so the second completes; a kept green
sample is halved by each, and on every other sample the second pass changes nothing. -/
theorem secondRemosaicHalvesGreenAgain : Obligations.SecondRemosaicHalvesGreenAgain := by
  intro s he hs hv
  have setup := sameSetup_remosaic ipa s
  refine ⟨remosaicBody ipa s, remosaicBody ipa (remosaicBody ipa s), exec_remosaic_of_pass he hs hv,
    exec_remosaic_of_pass (setup.err.trans he) (setup.shapeOk hs) rfl,
    (setup.trans (sameSetup_remosaic ipa _)).err.trans he, other_other s.cur, fun r c ch hi => ?_⟩
  have hi' : InImage (remosaicBody ipa s) r c ch := by rwa [InImage, setup.imgH, setup.imgW]
  constructor
  · rintro rfl hp
    have hk := keep_of_same_parity hp
    rw [remosaicBody_green ipa hi' hk, remosaicBody_green ipa hi hk]
  · intro hg
    rw [remosaicBody_sample ipa hi', remosaicBody_sample ipa hi, bayerSample_idem ipa _ hg]

end Sys2Proof.Machine
end

section
/-! PROOFS of the family 45_noise_adder_prng.md: the draws, what `NOISE.U` and `NOISE.S` leave in registers
and memory, that their results depend on their named inputs alone, and the deviation of `NOISE.S`. -/

namespace Sys2Proof.Machine

/-! ### The checks of the noise commands -/

/-- 60_exceptions.md R211, for every command with entry checks. -/
theorem exec_noiseFault {i : Instr} {s : State} (hn : i ≠ .nop) (hr : i ≠ .srst) (he : s.err = false)
    (hs : ShapeOk s) (hi : inputMissing i s = false) (hc : calibBad ipa i s = false)
    (hm : singularBad ipa i s = false) (hb : noiseBad ipa i s = true) :
    exec i s = .next (faultState 6 i s) :=
  exec_of_fault hr he (check_fails_noise hn hr hs hi hc hm hb)

theorem inputMissing_noiseU (s : State) : inputMissing .noiseU s = !s.valid.fV := rfl

theorem inputMissing_noiseS (s : State) : inputMissing .noiseS s = !s.valid.fV := rfl

theorem noiseBad_noiseU (P : Params) (s : State) : noiseBad P .noiseU s = varianceBad s := Bool.or_false _

theorem noiseBad_noiseS (P : Params) (s : State) : noiseBad P .noiseS s = pairsBad P s := rfl

/-- 60_exceptions.md R211, the row of `NOISE.U`. -/
theorem noiseBad_noiseU_of_not_varianceOk {s : State} (h : ¬VarianceOk s) :
    noiseBad ipa .noiseU s = true := by
  rwa [noiseBad_noiseU, ← Bool.not_eq_false, varianceBad_eq_false_iff]

/-- 60_exceptions.md R211, the row of `NOISE.S`. -/
theorem noiseBad_noiseS_of_not_pairsOk {s : State} (h : ¬PairsOk s) : noiseBad ipa .noiseS s = true := by
  rwa [noiseBad_noiseS, ← Bool.not_eq_false, pairsBad_eq_false_iff]

theorem exec_noiseU_of_pass {s : State} (he : s.err = false) (hs : ShapeOk s) (hv : s.valid.fV = true)
    (hn : VarianceOk s) : exec .noiseU s = .next (noiseUBody ipa s) :=
  exec_of_pass (by decide) he (check_noiseU hs hv hn)

theorem exec_noiseS_of_pass {s : State} (he : s.err = false) (hs : ShapeOk s) (hv : s.valid.fV = true)
    (hn : PairsOk s) : exec .noiseS s = .next (noiseSBody ipa s) :=
  exec_of_pass (by decide) he (check_noiseS hs hv hn)

/-! ### The draws (45_noise_adder_prng.md R172) -/

/-- The model's recursion on the number of draws iterates the generator. -/
theorem rngAfter_eq_rngState (g : Word) (k : Nat) : rngAfter ipa k g = Claim.rngState g k := by
  induction k with
  | zero => rfl
  | succ k ih => rw [rngAfter, ih, Claim.rngState, Claim.rngState, Function.iterate_succ_apply']

theorem drawFor_eq_deviate (g : Word) (e : Nat) : drawFor ipa g e = Claim.deviate g e := by
  rw [drawFor, rngAfter_eq_rngState, Claim.deviate]

/-- One draw per element, `3*H*W` in all. -/
theorem rngAfter_elements (s : State) :
    rngAfter ipa s.elements s.rngState = Claim.rngState s.rngState (3 * (s.imgH.toNat * s.imgW.toNat)) :=
  rngAfter_eq_rngState s.rngState s.elements

/-! ### The samples the noise commands write -/

/-- Every sample of the new current buffer is the old sample with its own draw added
(45_noise_adder_prng.md R173). -/
theorem noiseUBody_sample (P : Params) {s : State} {r c ch : Nat} (hi : InImage s r c ch) :
    (noiseUBody P s).sample P (noiseUBody P s).cur r c ch =
      fadd P.nan (s.sample P s.cur r c ch)
        (fmul P.nan (fsqrt P.nan s.noiseVar) (drawFor P s.rngState (elemIndex s.imgW.toNat r c ch))) :=
  noiseUBody_elem P s (elemIndex_lt hi)

/-- Every sample of the new current buffer is the level formula of the old sample, with its channel's pair
and its own draw (45_noise_adder_prng.md R174). -/
theorem noiseSBody_sample (P : Params) {s : State} {r c ch : Nat} (hi : InImage s r c ch) :
    (noiseSBody P s).sample P (noiseSBody P s).cur r c ch =
      signalNoise P (s.noiseA ch) (s.noiseB ch) (s.sample P s.cur r c ch)
        (drawFor P s.rngState (elemIndex s.imgW.toNat r c ch)) := by
  have ⟨_, _, hch⟩ := hi
  calc (noiseSBody P s).sample P (noiseSBody P s).cur r c ch
      = noiseSElem P s (elemIndex s.imgW.toNat r c ch) := noiseSBody_elem P s (elemIndex_lt hi)
    _ = _ := by rw [noiseSElem, chanOf_elemIndex _ r c ch hch, State.sample]

theorem noiseSBody_domw_iff (s : State) :
    (noiseSBody ipa s).domw = true ↔ s.domw = true ∨ SomeOutOfRange s := by
  rw [← anyOutOfRange_iff, ← Bool.or_eq_true]
  exact Iff.rfl

/-- Settles O20: the three faults by the entry checks; the body stores each sample with its draw added. -/
theorem noiseUAddsOneDrawPerSample : Obligations.NoiseUAddsOneDrawPerSample := by
  refine ⟨decode_encode .noiseU, fun s he => ⟨?shape, ?seq, ?noise, ?runs⟩⟩
  case shape => exact exec_shapeFault (by decide) (by decide) he
  case seq =>
    intro hs hv
    exact exec_seqFault (by decide) (by decide) he hs (by rw [inputMissing_noiseU, hv]; rfl)
  case noise =>
    intro hs hv hn
    exact exec_noiseFault (by decide) (by decide) he hs (by rw [inputMissing_noiseU, hv]; rfl) rfl rfl
      (noiseBad_noiseU_of_not_varianceOk hn)
  case runs =>
    intro hs hv hn
    refine ⟨noiseUBody ipa s, exec_noiseU_of_pass he hs hv hn, ?_, fun r c ch hi => ?_,
      sameOutside_of_store rfl rfl⟩
    · rw [← rngAfter_elements]
      exact noiseUBody_frame ipa s
    · rw [noiseUBody_sample ipa hi, drawFor_eq_deviate]

/-- Settles O21: the three faults by the entry checks; the body stores the level formula at every sample. -/
theorem noiseSAddsSignalDependentNoise : Obligations.NoiseSAddsSignalDependentNoise := by
  refine ⟨decode_encode .noiseS, fun s he => ⟨?shape, ?seq, ?noise, ?runs⟩⟩
  case shape => exact exec_shapeFault (by decide) (by decide) he
  case seq =>
    intro hs hv
    exact exec_seqFault (by decide) (by decide) he hs (by rw [inputMissing_noiseS, hv]; rfl)
  case noise =>
    intro hs hv hn
    exact exec_noiseFault (by decide) (by decide) he hs (by rw [inputMissing_noiseS, hv]; rfl) rfl rfl
      (noiseBad_noiseS_of_not_pairsOk hn)
  case runs =>
    intro hs hv hn
    refine ⟨noiseSBody ipa s, exec_noiseS_of_pass he hs hv hn, ?_, noiseSBody_domw_iff s,
      fun r c ch hi => ?_, sameOutside_of_store rfl rfl⟩
    · rw [← rngAfter_elements]
      exact noiseSBody_frame ipa s
    · rw [noiseSBody_sample ipa hi, drawFor_eq_deviate]
      rfl

/-! ### Reproducibility (45_noise_adder_prng.md R176) -/

/-- Two states agree on what a noise command reads once its input is declared: the size, the generator, the
noise registers and the samples of the current image. -/
structure SameNoiseInputs (s s' : State) : Prop where
  imgH     : s'.imgH = s.imgH
  imgW     : s'.imgW = s.imgW
  rngState : s'.rngState = s.rngState
  noiseVar : s'.noiseVar = s.noiseVar
  pairs    : ∀ c, c < 3 → s'.noiseA c = s.noiseA c ∧ s'.noiseB c = s.noiseB c
  samples  : ∀ r c ch, InImage s r c ch → s'.sample ipa s'.cur r c ch = s.sample ipa s.cur r c ch

theorem SameNoiseInputs.inImage {s s' : State} (h : SameNoiseInputs s s') {r c ch : Nat}
    (hi : InImage s r c ch) : InImage s' r c ch := by
  rwa [InImage, h.imgH, h.imgW]

theorem SameNoiseInputs.pairsBad_eq {s s' : State} (h : SameNoiseInputs s s') (P : Params) :
    pairsBad P s' = pairsBad P s := by
  refine Bool.eq_iff_iff.mpr ?_
  simp only [pairsBad, List.any_eq_true, List.mem_range]
  refine exists_congr fun c => and_congr_right fun hc => ?_
  obtain ⟨hA, hB⟩ := h.pairs c hc
  rw [hA, hB]

/-- The parameter check sees the noise registers alone (60_exceptions.md R211). -/
theorem SameNoiseInputs.noiseBad_eq {s s' : State} (h : SameNoiseInputs s s') {i : Instr}
    (hi : i = .noiseU ∨ i = .noiseS) (P : Params) : noiseBad P i s' = noiseBad P i s := by
  rcases hi with rfl | rfl
  · rw [noiseBad_noiseU, noiseBad_noiseU, varianceBad, varianceBad, h.noiseVar]
  · rw [noiseBad_noiseS, noiseBad_noiseS, h.pairsBad_eq]

/-- With the shape in bounds and the input declared, the parameter check decides (60_exceptions.md R205). -/
theorem entryCheck_noise {i : Instr} (hi : i = .noiseU ∨ i = .noiseS) {s : State} (hs : ShapeOk s)
    (hv : s.valid.fV = true) :
    entryCheck ipa i s = if noiseBad ipa i s = true then some .noise else none := by
  rcases hi with rfl | rfl <;>
    simp [entryCheck, (shapeBad_eq_false_iff s).mpr hs, inputMissing, isPipe, hv, calibBad, singularBad]

/-- Both commands draw equally often from the same state of the generator. -/
theorem SameNoiseInputs.body_rngState {s s' : State} (h : SameNoiseInputs s s') {i : Instr}
    (hi : i = .noiseU ∨ i = .noiseS) : (bodyOf ipa i s').rngState = (bodyOf ipa i s).rngState := by
  have hrng : rngAfter ipa s'.elements s'.rngState = rngAfter ipa s.elements s.rngState := by
    rw [elements_congr h.imgH h.imgW, h.rngState]
  rcases hi with rfl | rfl <;> exact hrng

/-- Each sample written is a function of the named inputs. -/
theorem SameNoiseInputs.body_sample {s s' : State} (h : SameNoiseInputs s s') {i : Instr}
    (hi : i = .noiseU ∨ i = .noiseS) {r c ch : Nat} (hr : InImage s r c ch) :
    (bodyOf ipa i s').sample ipa (bodyOf ipa i s').cur r c ch =
      (bodyOf ipa i s).sample ipa (bodyOf ipa i s).cur r c ch := by
  have ⟨_, _, hch⟩ := hr
  obtain ⟨hA, hB⟩ := h.pairs ch hch
  rcases hi with rfl | rfl
  · rw [bodyOf, noiseUBody_sample ipa (h.inImage hr), noiseUBody_sample ipa hr, h.samples r c ch hr,
      h.noiseVar, h.rngState, h.imgW]
  · rw [bodyOf, noiseSBody_sample ipa (h.inImage hr), noiseSBody_sample ipa hr, h.samples r c ch hr, hA, hB,
      h.rngState, h.imgW]

/-- Settles O33: the check and the body see only the named inputs, so both commands fault, drawing nothing,
or both run. -/
theorem noiseIsReproducible : Obligations.NoiseIsReproducible := by
  intro i s s' hi he he' hs hs' hv hv' hH hW hrng hvar hpairs hsamples
  have same : SameNoiseInputs s s' := ⟨hH, hW, hrng, hvar, hpairs, hsamples⟩
  have hsrst : i ≠ .srst := by rcases hi with rfl | rfl <;> decide
  have hcheck : entryCheck ipa i s' = entryCheck ipa i s := by
    rw [entryCheck_noise hi hs' hv', entryCheck_noise hi hs hv, same.noiseBad_eq hi]
  cases hf : entryCheck ipa i s with
  | some f =>
    exact ⟨_, _, exec_of_fault hsrst he hf, exec_of_fault hsrst he' (hcheck.trans hf), rfl, hrng,
      fun h => by simp at h⟩
  | none =>
    refine ⟨_, _, exec_of_pass hsrst he hf, exec_of_pass hsrst he' (hcheck.trans hf), ?_,
      same.body_rngState hi, fun _ r c ch hr => same.body_sample hi hr⟩
    rw [(sameSetup_bodyOf ipa hsrst s').err, (sameSetup_bodyOf ipa hsrst s).err, he, he']

/-! ### The deviation of `NOISE.S` (45_noise_adder_prng.md R175 (c)) -/

/-- A finite factor times a level has the factor's sign and is rounded once (00_scope.md R12). -/
theorem fmul_u2f (nan : NanChoice) {a : Word} (ha : isFinite a = true) {k : Nat} (hk : k < 256) :
    fmul nan a (u2f k) = withSign (signOf a) (roundUnits (magnitude a * (k * 2 ^ 149)) (2 ^ 149)) := by
  obtain ⟨hsign, hfin, hmag⟩ := u2f_parts ⟨k, hk⟩
  simp [fmul, isNaN_of_isFinite, isInf_of_isFinite, ha, hfin, hsign, hmag]

/-- An infinity absorbs a finite summand. -/
theorem fadd_infinity_left (nan : NanChoice) (neg : Bool) {b : Word} (hb : isFinite b = true) :
    fadd nan (withSign neg infMagnitude) b = withSign neg infMagnitude := by
  simp [fadd, addNumbers, isNaN_withSign neg le_rfl, (isInf_withSign_iff neg le_rfl).mpr rfl,
    isNaN_of_isFinite hb, isInf_of_isFinite hb]

/-- A negative infinity fails the check of 60_exceptions.md R211. -/
theorem fge_infinity_iff (neg : Bool) : fge (withSign neg infMagnitude) fZero = true ↔ neg = false := by
  cases neg <;> decide

/-- Whether the rounded sum of a finite product and an intercept is at least zero is decided by the exact
sum: rounding keeps its sign. -/
theorem fge_fadd_zero_iff (nan : NanChoice) {p b : Word} (hp : isFinite p = true) (hb : isFinite b = true) :
    fge (fadd nan p b) fZero = true ↔ 0 ≤ signedValue p + signedValue b := by
  refine ⟨fun h => ?_, fge_fadd_zero nan hp hb⟩
  by_contra hlt
  rw [not_fge_fadd_zero nan hp hb (by omega)] at h
  cases h

/-- A sum without a negative summand is at least zero, an infinite first summand included. -/
theorem fge_fadd_of_nonneg (nan : NanChoice) {m : Nat} {b : Word} (hm : m ≤ infMagnitude)
    (hb : isFinite b = true) (hb0 : 0 ≤ signedValue b) :
    fge (fadd nan (withSign false m) b) fZero = true := by
  have hlt : infMagnitude < 2 ^ 31 := by decide
  rcases hm.eq_or_lt with rfl | hfin
  · rw [fadd_infinity_left nan false hb, fge_infinity_iff]
  · refine fge_fadd_zero nan (isFinite_withSign false hfin) hb ?_
    rw [signedValue_withSign false (by omega), if_neg (by decide)]
    omega

/-- A sum that is at least zero stays so when its negative summand comes closer to zero. -/
theorem fge_fadd_of_less_negative (nan : NanChoice) {m n : Nat} {b : Word} (hmn : m ≤ n)
    (hn : n ≤ infMagnitude) (hb : isFinite b = true)
    (h : fge (fadd nan (withSign true n) b) fZero = true) :
    fge (fadd nan (withSign true m) b) fZero = true := by
  have hlt : infMagnitude < 2 ^ 31 := by decide
  have hfin : n < infMagnitude := by
    refine hn.lt_of_ne ?_
    rintro rfl
    rw [fadd_infinity_left nan true hb, fge_infinity_iff] at h
    cases h
  rw [fge_fadd_zero_iff nan (isFinite_withSign true hfin) hb,
    signedValue_withSign true (by omega), if_pos rfl] at h
  rw [fge_fadd_zero_iff nan (isFinite_withSign true (by omega)) hb,
    signedValue_withSign true (by omega), if_pos rfl]
  have := unitsOf_mono hmn
  omega

/-- The variance is affine in the level and rounding is monotone, so that its two ends bound it. -/
theorem fge_variance (nan : NanChoice) {a b : Word} (ha : isFinite a = true) (hb : isFinite b = true)
    (hb0 : fge b fZero = true) (hend : fge (fadd nan (fmul nan a f255) b) fZero = true) {k : Nat}
    (hk : k ≤ 255) : fge (fadd nan (fmul nan a (u2f k)) b) fZero = true := by
  rw [f255_eq_u2f, fmul_u2f nan ha (by decide)] at hend
  rw [fmul_u2f nan ha (by omega)]
  cases hsign : signOf a
  · exact fge_fadd_of_nonneg nan (roundUnits_le _ _) hb ((fge_zero_iff b).mp hb0).2
  · rw [hsign] at hend
    have hle : magnitude a * (k * 2 ^ 149) ≤ magnitude a * (255 * 2 ^ 149) :=
      Nat.mul_le_mul_left _ (Nat.mul_le_mul_right _ hk)
    exact fge_fadd_of_less_negative nan (roundUnits_mono _ hle) (roundUnits_le _ _) hb hend

/-- Settles O34: the variance is at least zero at every level, and the root of such a number is a number. -/
theorem signalDeviationIsNeverNaN : Obligations.SignalDeviationIsNeverNaN := by
  intro s hp ch level hch hlevel var
  obtain ⟨ha, hb, hb0, hend⟩ := hp ch hch
  have hvar : fge var fZero = true := fge_variance ipa.nan ha hb hb0 hend hlevel
  exact ⟨hvar, isNaN_fsqrt_of_fge ipa.nan hvar⟩

end Sys2Proof.Machine
end

section
/-! PROOFS of the family 46_control.md: `NOP`, `SRST` and the step, the entry faults of the `PIPE`
commands, what they leave in registers and memory, their parts, and the zero-variance `PIPE.U`. -/

namespace Sys2Proof.Machine

/-! ### `NOP`, `SRST` and the step -/

/-- In the error state every command but `SRST` is ignored (60_exceptions.md R208 (b)). -/
theorem exec_of_err {i : Instr} {s : State} (hi : i ≠ .srst) (he : s.err = true) :
    exec i s = .next s := by
  rw [exec_eq_runCommand hi, runCommand_of_err ipa i _ he]

/-- `NOP` has no entry check (46_control.md R185). -/
theorem exec_nop_of_noErr {s : State} (he : s.err = false) : exec .nop s = .next (setDone s) :=
  exec_of_pass (by decide) he rfl

/-- Settles O12: outside the error state `NOP` has its body; inside it the error record has `DONE = 0`. -/
theorem nopSetsDoneOnly : Obligations.NopSetsDoneOnly := by
  refine ⟨decode_encode .nop, fun s => ⟨exec_nop_of_noErr, exec_of_err (by decide), fun hinv => ?_⟩⟩
  cases he : s.err with
  | false => exact ⟨setDone s, exec_nop_of_noErr he, by simp [setDone, he]⟩
  | true =>
    have hdone : s.done = false := (hinv.errorOk.2 he).1
    exact ⟨s, exec_of_err (by decide) he, by simp [hdone, he]⟩

/-- `SRST` alone has `OP = 0xF` (30_encoding.md R105). -/
theorem eq_srst_of_op {i : Instr} (h : (encode i).extractLsb' 0 4 = 0xF) : i = .srst := by
  cases i with
  | srst => rfl
  | _ => exact absurd h (by decide)

/-- Settles O13: the body is the reset of the registers, and a command with `OP = 0xF` is `SRST`, whose word
is the one of the table. -/
theorem srstClearsEveryRegister : Obligations.SrstClearsEveryRegister := by
  refine ⟨exec_srst, decode_encode .srst, fun w hop hne => ?_⟩
  cases hw : decode w with
  | illegal why => exact ⟨why, rfl⟩
  | command i =>
    obtain rfl := eq_encode_of_decode hw
    obtain rfl := eq_srst_of_op hop
    exact absurd rfl hne

/-- Settles O38: an idle step changes nothing, and every host operation ends in a next state. -/
theorem everyStepAnswersANextState : Obligations.EveryStepAnswersANextState := by
  intro s
  cases hh : s.host with
  | nil => exact ⟨s, step_of_idle hh⟩
  | cons op rest =>
    rw [step_of_host hh]
    exact hostStep_next op _

/-! ### The checks of the `PIPE` commands -/

theorem ne_nop_of_isPipe {i : Instr} (h : isPipe i = true) : i ≠ .nop := by
  rintro rfl; exact absurd h (by decide)

theorem ne_srst_of_isPipe {i : Instr} (h : isPipe i = true) : i ≠ .srst := by
  rintro rfl; exact absurd h (by decide)

theorem inputMissing_of_isPipe {i : Instr} (h : isPipe i = true) (s : State) :
    inputMissing i s = !s.valid.inV := by
  simp [inputMissing, h]

theorem calibBad_of_isPipe (P : Params) {i : Instr} (h : isPipe i = true) (s : State) :
    calibBad P i s = (toneMissing s || gamutMissing P s || cmatMissing s) := by
  simp [calibBad, h]

theorem singularBad_of_isPipe (P : Params) {i : Instr} (h : isPipe i = true) (s : State) :
    singularBad P i s = cmatNotFinite P s := by
  simp [singularBad, h]

theorem noiseBad_pipeU (P : Params) (s : State) : noiseBad P .pipeU s = varianceBad s := Bool.or_false _

theorem noiseBad_pipeS (P : Params) (s : State) : noiseBad P .pipeS s = pairsBad P s := rfl

theorem calibBad_pipe_eq_false_iff {i : Instr} (h : isPipe i = true) (s : State) :
    calibBad ipa i s = false ↔ PipeTablesOk s := by
  rw [calibBad_of_isPipe ipa h, Bool.or_eq_false_iff, Bool.or_eq_false_iff, gamutMissing_eq_false_iff]
  simp [toneMissing, cmatMissing, PipeTablesOk, and_assoc]

/-- 60_exceptions.md R204, the row of `PIPE*`. -/
theorem exec_pipe_seqFault {i : Instr} {s : State} (hp : isPipe i = true) (he : s.err = false)
    (hs : ShapeOk s) (hv : s.valid.inV = false) : exec i s = .next (faultState 3 i s) :=
  exec_seqFault (ne_nop_of_isPipe hp) (ne_srst_of_isPipe hp) he hs
    (by rw [inputMissing_of_isPipe hp, hv]; rfl)

/-- 60_exceptions.md R203, the row of `PIPE*`. -/
theorem exec_pipe_calibFault {i : Instr} {s : State} (hp : isPipe i = true) (he : s.err = false)
    (hs : ShapeOk s) (hv : s.valid.inV = true) (ht : ¬PipeTablesOk s) :
    exec i s = .next (faultState 4 i s) :=
  exec_calibFault (ne_nop_of_isPipe hp) (ne_srst_of_isPipe hp) he hs
    (by rw [inputMissing_of_isPipe hp, hv]; rfl)
    (by rwa [← Bool.not_eq_false, calibBad_pipe_eq_false_iff hp])

/-- 60_exceptions.md R210, the row of `PIPE*`. -/
theorem exec_pipe_singularFault {i : Instr} {s : State} (hp : isPipe i = true) (he : s.err = false)
    (hs : ShapeOk s) (hv : s.valid.inV = true) (ht : PipeTablesOk s) (hm : ¬MatrixFinite s) :
    exec i s = .next (faultState 5 i s) :=
  exec_singularFault (ne_nop_of_isPipe hp) (ne_srst_of_isPipe hp) he hs
    (by rw [inputMissing_of_isPipe hp, hv]; rfl) (calibBad_pipe hp ht)
    (by rwa [singularBad_of_isPipe ipa hp, ← Bool.not_eq_false, cmatNotFinite_eq_false_iff])

/-- 60_exceptions.md R211, the rows of `PIPE.U` and `PIPE.S`. -/
theorem exec_pipe_noiseFault {i : Instr} {s : State} (hp : isPipe i = true) (he : s.err = false)
    (hr : PipeReady s) (hn : noiseBad ipa i s = true) : exec i s = .next (faultState 6 i s) := by
  obtain ⟨hs, hv, ht, hm⟩ := hr
  exact exec_noiseFault (ne_nop_of_isPipe hp) (ne_srst_of_isPipe hp) he hs
    (by rw [inputMissing_of_isPipe hp, hv]; rfl) (calibBad_pipe hp ht)
    (by rwa [singularBad_of_isPipe ipa hp, cmatNotFinite_eq_false_iff]) hn

theorem exec_pipe_of_ready {s : State} (he : s.err = false) (hr : PipeReady s) :
    exec .pipe s = .next (pipeBody ipa s) :=
  exec_of_pass (by decide) he (check_pipe hr)

theorem exec_pipeU_of_ready {s : State} (he : s.err = false) (hr : PipeReady s) (hn : VarianceOk s) :
    exec .pipeU s = .next (pipeUBody ipa s) :=
  exec_of_pass (by decide) he (check_pipeU hr hn)

theorem exec_pipeS_of_ready {s : State} (he : s.err = false) (hr : PipeReady s) (hn : PairsOk s) :
    exec .pipeS s = .next (pipeSBody ipa s) :=
  exec_of_pass (by decide) he (check_pipeS hr hn)

/-! ### Registers and memory after the `PIPE` commands -/

/-- Settles O22: the four faults by the entry checks; the body by its frame, its flags and its stores. -/
theorem pipeCompletesAndSwapsOnce : Obligations.PipeCompletesAndSwapsOnce := by
  refine ⟨decode_encode .pipe, fun s he => ⟨?shape, ?seq, ?calib, ?singular, ?runs⟩⟩
  case shape => exact exec_shapeFault (by decide) (by decide) he
  case seq => exact exec_pipe_seqFault rfl he
  case calib => exact exec_pipe_calibFault rfl he
  case singular => exact exec_pipe_singularFault rfl he
  case runs =>
    intro hr
    exact ⟨pipeBody ipa s, exec_pipe_of_ready he hr, pipeBody_frame ipa s,
      (keepsFlags_bodyOf ipa (i := .pipe) (by decide) s).domw, onlyBuffersChange_bodyOf .pipe s⟩

/-- Settles O23: the five faults by the entry checks; the body by its frame, which draws once per element,
its flags and its stores. -/
theorem pipeUCompletesAndAdvancesTheGenerator : Obligations.PipeUCompletesAndAdvancesTheGenerator := by
  refine ⟨decode_encode .pipeU, fun s he => ⟨?shape, ?seq, ?calib, ?singular, ?noise, ?runs⟩⟩
  case shape => exact exec_shapeFault (by decide) (by decide) he
  case seq => exact exec_pipe_seqFault rfl he
  case calib => exact exec_pipe_calibFault rfl he
  case singular => exact exec_pipe_singularFault rfl he
  case noise =>
    intro hr hn
    exact exec_pipe_noiseFault rfl he hr
      (by rwa [noiseBad_pipeU, ← Bool.not_eq_false, varianceBad_eq_false_iff])
  case runs =>
    intro hr hn
    rw [← rngAfter_elements]
    exact ⟨pipeUBody ipa s, exec_pipeU_of_ready he hr hn, pipeUBody_frame ipa s,
      (keepsFlags_bodyOf ipa (i := .pipeU) (by decide) s).domw, onlyBuffersChange_bodyOf .pipeU s⟩

/-- Settles O24: the five faults by the entry checks; the body by its frame, which draws once per element,
its flags and its stores. -/
theorem pipeSCompletesAndAdvancesTheGenerator : Obligations.PipeSCompletesAndAdvancesTheGenerator := by
  refine ⟨decode_encode .pipeS, fun s he => ⟨?shape, ?seq, ?calib, ?singular, ?noise, ?runs⟩⟩
  case shape => exact exec_shapeFault (by decide) (by decide) he
  case seq => exact exec_pipe_seqFault rfl he
  case calib => exact exec_pipe_calibFault rfl he
  case singular => exact exec_pipe_singularFault rfl he
  case noise =>
    intro hr hn
    exact exec_pipe_noiseFault rfl he hr
      (by rwa [noiseBad_pipeS, ← Bool.not_eq_false, pairsBad_eq_false_iff])
  case runs =>
    intro hr hn
    rw [← rngAfter_elements]
    exact ⟨pipeSBody ipa s, exec_pipeS_of_ready he hr hn, pipeSBody_frame ipa s,
      (keepsFlags_bodyOf ipa (i := .pipeS) (by decide) s).domw, onlyBuffersChange_bodyOf .pipeS s⟩

/-! ### The parts of the `PIPE` commands (46_control.md R190) -/

/-- A command that passes its checks leads a run on from the state its body leaves. -/
theorem runsTo_cons_of_pass {i : Instr} {is : List Instr} {s t : State} (hi : i ≠ .srst)
    (he : s.err = false) (hc : entryCheck ipa i s = none) (h : Claim.runsTo is (bodyOf ipa i s) t) :
    Claim.runsTo (i :: is) s t :=
  ⟨bodyOf ipa i s, exec_of_pass hi he hc, (sameSetup_bodyOf ipa hi s).err.trans he, bodyOf_done ipa hi s, h⟩

/-- The checks of `PIPE` cover those of the first four stages: each stage sets `F_V` and keeps the shape, the
declared tables and the matrix. -/
theorem runsTo_frontStages {is : List Instr} {s t : State} (he : s.err = false) (hr : PipeReady s)
    (h : Claim.runsTo is (frontStages ipa s) t) :
    Claim.runsTo (.scale :: .tone :: .gamut :: .cmat :: is) s t := by
  obtain ⟨hs, hin, ⟨htone, hgamut, hcmat⟩, hm⟩ := hr
  have scaled := sameSetup_scale ipa s
  have toned := scaled.trans (sameSetup_tone ipa _)
  have mapped := toned.trans (sameSetup_gamut ipa _)
  have tables := ((sameTables_scale ipa s).trans (sameTables_tone ipa _)).trans (sameTables_gamut ipa _)
  refine runsTo_cons_of_pass (by decide) he (check_scale hs hin) ?_
  refine runsTo_cons_of_pass (by decide) (scaled.err.trans he)
    (check_tone (scaled.shapeOk hs) rfl (scaled.toneV.trans htone)) ?_
  refine runsTo_cons_of_pass (by decide) (toned.err.trans he)
    (check_gamut (toned.shapeOk hs) rfl (toned.gamutTablesOk hgamut)) ?_
  exact runsTo_cons_of_pass (by decide) (mapped.err.trans he)
    (check_cmat (mapped.shapeOk hs) rfl (mapped.cmatV.trans hcmat) (matrixFinite_congr tables hm)) h

/-- The last two stages ask for the shape and a declared float image alone. -/
theorem runsTo_backStages {s : State} (he : s.err = false) (hs : ShapeOk s) (hv : s.valid.fV = true) :
    Claim.runsTo [.remosaic, .descale] s (backStages ipa s) := by
  have setup := sameSetup_remosaic ipa s
  refine runsTo_cons_of_pass (by decide) he (check_remosaic hs hv) ?_
  exact runsTo_cons_of_pass (by decide) (setup.err.trans he) (check_descale (setup.shapeOk hs) rfl) rfl

/-- Settles O25: the stages in a row, with the noise stage of `PIPE.U` and `PIPE.S` between the front and the
back. -/
theorem pipeCommandsAreTheirParts : Obligations.PipeCommandsAreTheirParts := by
  intro s he hr
  have front := sameSetup_front ipa s
  have herr := front.err.trans he
  have hshape := front.shapeOk hr.1
  refine ⟨?pipe, fun hn => ?pipeU, fun hn => ?pipeS⟩
  case pipe =>
    exact ⟨pipeBody ipa s, exec_pipe_of_ready he hr,
      runsTo_frontStages he hr (runsTo_backStages herr hshape rfl)⟩
  case pipeU =>
    have noisy := sameSetup_noiseU ipa (frontStages ipa s)
    exact ⟨pipeUBody ipa s, exec_pipeU_of_ready he hr hn, runsTo_frontStages he hr <|
      runsTo_cons_of_pass (by decide) herr (check_noiseU hshape rfl (front.varianceOk hn)) <|
      runsTo_backStages (noisy.err.trans herr) (noisy.shapeOk hshape) rfl⟩
  case pipeS =>
    have noisy := sameSetup_noiseS ipa (frontStages ipa s)
    exact ⟨pipeSBody ipa s, exec_pipeS_of_ready he hr hn, runsTo_frontStages he hr <|
      runsTo_cons_of_pass (by decide) herr (check_noiseS hshape rfl (front.pairsOk hn)) <|
      runsTo_backStages (noisy.err.trans herr) (noisy.shapeOk hshape) rfl⟩

/-! ### A variance of `+0.0` (the example of 46_control.md R187) -/

theorem SameSetup.inImage {s t : State} (h : SameSetup s t) {r c ch : Nat} (hi : InImage s r c ch) :
    InImage t r c ch := by
  rwa [InImage, h.imgH, h.imgW]

theorem fsqrt_zero (nan : NanChoice) : fsqrt nan fZero = fZero := by
  have hmag : magnitude fZero = 0 := by decide
  simp [fsqrt, isNaN_fZero, hmag]

/-- A zero deviation times any draw is a zero, and a zero of either sign added to a number with sign bit 0
leaves it (45_noise_adder_prng.md R171, R173). -/
theorem noiseUBody_sample_of_zeroVariance (P : Params) {s : State} {r c ch : Nat} (hi : InImage s r c ch)
    (hvar : s.noiseVar = fZero) (hnan : isNaN (s.sample P s.cur r c ch) = false)
    (hsign : (s.sample P s.cur r c ch).msb = false) :
    (noiseUBody P s).sample P (noiseUBody P s).cur r c ch = s.sample P s.cur r c ch := by
  have hdraw : isFinite (drawFor P s.rngState (elemIndex s.imgW.toNat r c ch)) = true := isFinite_toFinite _
  rw [noiseUBody_sample P hi, hvar, fsqrt_zero, fmul_zero_left P.nan (by decide) hdraw,
    fadd_zero_right P.nan hnan (by rwa [signOf_eq_msb])]

/-- The colour stage ends the front, so no sample it leaves is negative, `-0` or a NaN
(43_color_matrix_mult.md R152 (b)). -/
theorem frontStages_sample_nonneg (P : Params) {s : State} {r c ch : Nat} (hi : InImage s r c ch) :
    isNaN ((frontStages P s).sample P (frontStages P s).cur r c ch) = false ∧
      ((frontStages P s).sample P (frontStages P s).cur r c ch).msb = false := by
  have setup := ((sameSetup_scale P s).trans (sameSetup_tone P _)).trans (sameSetup_gamut P _)
  rw [frontStages, cmatBody_sample P (setup.inImage hi)]
  exact floorAtZero_nonneg _

/-- What the back writes to `U8OUT` is a function of the sample at its place. -/
theorem backStages_u8outElem (P : Params) {s : State} {r c ch : Nat} (hi : InImage s r c ch) :
    (backStages P s).u8outElem P (elemIndex s.imgW.toNat r c ch) =
      BitVec.ofNat 8 (q255 P.nan (bayerSample P r c ch (s.sample P s.cur r c ch))) := by
  have stored : (backStages P s).u8outElem P (elemIndex s.imgW.toNat r c ch) =
      descaleElem P (remosaicBody P s) (elemIndex s.imgW.toNat r c ch) :=
    descaleBody_elem P (remosaicBody P s) (elemIndex_lt hi)
  rw [stored, ← remosaicBody_sample P hi]
  rfl

/-- Settles O35: the noise stage copies the samples of the colour stage, and the back sees nothing else. -/
theorem zeroVariancePipeUWritesWhatPipeWrites : Obligations.ZeroVariancePipeUWritesWhatPipeWrites := by
  intro s he hr hvar
  have hok : VarianceOk s := by rw [VarianceOk, hvar]; decide
  have front := sameSetup_front ipa s
  refine ⟨pipeBody ipa s, pipeUBody ipa s, exec_pipe_of_ready he hr, exec_pipeU_of_ready he hr hok,
    (sameSetup_bodyOf ipa (i := .pipe) (by decide) s).err.trans he,
    (sameSetup_bodyOf ipa (i := .pipeU) (by decide) s).err.trans he, fun r c ch hi => ?_⟩
  have hfront : InImage (frontStages ipa s) r c ch := front.inImage hi
  have hnoisy : InImage (noiseUBody ipa (frontStages ipa s)) r c ch :=
    (sameSetup_noiseU ipa _).inImage hfront
  obtain ⟨hnan, hsign⟩ := frontStages_sample_nonneg ipa hi
  have copied := noiseUBody_sample_of_zeroVariance ipa hfront (front.var.trans hvar) hnan hsign
  calc (pipeUBody ipa s).u8outElem ipa (elemIndex s.imgW.toNat r c ch)
      = _ := backStages_u8outElem ipa hnoisy
    _ = BitVec.ofNat 8 (q255 ipa.nan (bayerSample ipa r c ch
          ((frontStages ipa s).sample ipa (frontStages ipa s).cur r c ch))) := by rw [copied]
    _ = (pipeBody ipa s).u8outElem ipa (elemIndex s.imgW.toNat r c ch) :=
        (backStages_u8outElem ipa hfront).symm

end Sys2Proof.Machine
end

section
/-! PROOFS of the family 60_exceptions.md: what a write to `CMD` does when it faults, which entry check a
fault code stands for, and the condition of each code in the terms of its rule. -/

namespace Sys2Proof.Machine

/-! ### A write to `CMD` that faults or is ignored -/

theorem step_of_cmdWrite {s : State} {w : Word} {rest : List HostOp}
    (hh : s.host = .write32 0x00000004 w :: rest) :
    step s = runWord w (answer .ok { s with host := rest }) :=
  step_of_host hh

theorem runWord_illegal_of_noErr {w : Word} {why : IllegalReason} {s : State}
    (hw : decode w = .illegal why) (he : s.err = false) :
    runWord w s = .next (takeFault .illCmd w s) := by
  simp [runWord, hw, he]

theorem runWord_illegal_of_err {w : Word} {why : IllegalReason} {s : State}
    (hw : decode w = .illegal why) (he : s.err = true) : runWord w s = .next s := by
  simp [runWord, hw, he]

/-- The fault of a command records the word that the host wrote (60_exceptions.md R206). -/
theorem runWord_of_fault {w : Word} {i : Instr} {s : State} {f : ErrCode} (hw : decode w = .command i)
    (he : s.err = false) (hf : entryCheck ipa i s = some f) : runWord w s = .next (takeFault f w s) := by
  obtain ⟨⟨-, hr⟩, -⟩ := entryCheck_eq_some hf
  rw [runWord, hw, eq_encode_of_decode hw]
  exact exec_of_fault hr he hf

/-- Settles O4: the word is run on the state with the write answered, and is no command. -/
theorem illegalWordFaultsOutsideTheErrorState : Obligations.IllegalWordFaultsOutsideTheErrorState := by
  intro s w rest why hh hw
  rw [step_of_cmdWrite hh]
  exact ⟨fun he => runWord_illegal_of_noErr hw he, fun he => runWord_illegal_of_err hw he⟩

/-- Settles O5, which is the first case of the frame that every command but `SRST` runs in. -/
theorem errorStateIgnoresEveryOtherCommand : Obligations.ErrorStateIgnoresEveryOtherCommand :=
  fun _ _ => exec_of_err

/-- Settles O6: both causes take the fault with the word written; the state it leaves has `ERR = 1`. -/
theorem faultWritesFourFieldsOnly : Obligations.FaultWritesFourFieldsOnly := by
  intro s w rest f hh he hcause
  have hstep : step s = .next (takeFault f w (answer .ok { s with host := rest })) := by
    rw [step_of_cmdWrite hh]
    rcases hcause with ⟨rfl, why, hw⟩ | ⟨i, hw, hf⟩
    · exact runWord_illegal_of_noErr hw he
    · exact runWord_of_fault hw he hf
  exact ⟨_, hstep, rfl, fun i hi => exec_of_err hi rfl⟩

/-! ### Which entry check a fault code stands for (60_exceptions.md R205) -/

/-- The codes of 60_exceptions.md R201 are distinct. -/
theorem code_injective : Function.Injective ErrCode.code := by
  intro f g
  cases f <;> cases g <;> decide

/-- Outside the error state a command answers the state of a fault exactly when its entry check names that
fault: another fault has another code, and a body leaves `ERR = 0`. -/
theorem exec_eq_faultState_iff {i : Instr} {s : State} (hr : i ≠ .srst) (he : s.err = false)
    (f : ErrCode) : exec i s = .next (faultState f.code i s) ↔ entryCheck ipa i s = some f := by
  refine ⟨fun h => ?_, exec_of_fault hr he⟩
  rcases exec_cases hr h with ⟨he', -⟩ | ⟨-, g, hg, ht⟩ | ⟨-, -, ht⟩
  · simp [he] at he'
  · have hcode : f.code = g.code := congrArg State.errInfo ht
    rw [hg, code_injective hcode]
  · have hbody : (bodyOf ipa i s).err = true := (congrArg State.err ht).symm
    simp [(sameSetup_bodyOf ipa hr s).err, he] at hbody

section
variable {i : Instr} {s : State} (hn : i ≠ .nop) (hr : i ≠ .srst)
include hn hr

theorem entryCheck_eq_shape_iff : entryCheck ipa i s = some .shape ↔ shapeBad ipa s = true :=
  ⟨fun h => by simpa using (entryCheck_eq_some h).2, fun h => by simp [entryCheck, hn, hr, h]⟩

theorem entryCheck_eq_seq_iff :
    entryCheck ipa i s = some .seq ↔ ShapeOk s ∧ inputMissing i s = true := by
  refine ⟨fun h => ⟨?shapeOk, by simpa using (entryCheck_eq_some h).2⟩,
    fun ⟨hs, hi⟩ => check_fails_seq hn hr hs hi⟩
  by_contra hs
  simp [check_fails_shape hn hr hs] at h

theorem entryCheck_eq_calib_iff (hs : ShapeOk s) (hi : inputMissing i s = false) :
    entryCheck ipa i s = some .calib ↔ calibBad ipa i s = true :=
  ⟨fun h => by simpa using (entryCheck_eq_some h).2, check_fails_calib hn hr hs hi⟩

theorem entryCheck_eq_singular_iff (hs : ShapeOk s) (hi : inputMissing i s = false)
    (hc : calibBad ipa i s = false) :
    entryCheck ipa i s = some .singular ↔ singularBad ipa i s = true :=
  ⟨fun h => by simpa using (entryCheck_eq_some h).2, check_fails_singular hn hr hs hi hc⟩

theorem entryCheck_eq_noise_iff (hs : ShapeOk s) (hi : inputMissing i s = false)
    (hc : calibBad ipa i s = false) (hm : singularBad ipa i s = false) :
    entryCheck ipa i s = some .noise ↔ noiseBad ipa i s = true :=
  ⟨fun h => by simpa using (entryCheck_eq_some h).2, check_fails_noise hn hr hs hi hc hm⟩

end

/-! ### The condition of each code in the terms of its rule -/

theorem isPipe_iff_mem (i : Instr) : isPipe i = true ↔ i ∈ [Instr.pipe, .pipeU, .pipeS] := by
  cases i <;> decide

/-- A stage `j` and the `PIPE` commands that hold it, as the rules list them. -/
theorem stage_or_isPipe_iff_mem (i j : Instr) :
    (i == j || isPipe i) = true ↔ i ∈ [j, .pipe, .pipeU, .pipeS] := by
  rw [Bool.or_eq_true, beq_iff_eq, isPipe_iff_mem, List.mem_cons (b := j)]

/-- 60_exceptions.md R204. -/
theorem inputMissing_eq_true_iff (i : Instr) (s : State) : inputMissing i s = true ↔
    if i ∈ [Instr.scale, .pipe, .pipeU, .pipeS] then s.valid.inV = false else s.valid.fV = false := by
  simp only [inputMissing, stage_or_isPipe_iff_mem]
  split_ifs <;> rw [Bool.not_eq_true']

theorem inputMissing_eq_false_iff (i : Instr) (s : State) : inputMissing i s = false ↔
    if i ∈ [Instr.scale, .pipe, .pipeU, .pipeS] then s.valid.inV = true else s.valid.fV = true := by
  simp only [inputMissing, stage_or_isPipe_iff_mem]
  split_ifs <;> rw [Bool.not_eq_false']

theorem gamutMissing_eq_true_iff (s : State) : gamutMissing ipa s = true ↔
    s.valid.cpV = false ∨ s.valid.wtV = false ∨ s.nCp ≠ s.nW ∨ Config.nMax < s.nCp.toNat := by
  simp only [gamutMissing, Bool.or_eq_true, Bool.not_eq_true', bne_iff_ne, decide_eq_true_eq, or_assoc]
  exact Iff.rfl

/-- 60_exceptions.md R203. -/
theorem calibBad_eq_true_iff (i : Instr) (s : State) : calibBad ipa i s = true ↔
    (i ∈ [Instr.tone, .pipe, .pipeU, .pipeS] ∧ s.valid.toneV = false) ∨
    (i ∈ [Instr.gamut, .pipe, .pipeU, .pipeS] ∧
      (s.valid.cpV = false ∨ s.valid.wtV = false ∨ s.nCp ≠ s.nW ∨ Config.nMax < s.nCp.toNat)) ∨
    (i ∈ [Instr.cmat, .pipe, .pipeU, .pipeS] ∧ s.valid.cmatV = false) := by
  rw [calibBad, Bool.or_eq_true, Bool.or_eq_true, Bool.and_eq_true, Bool.and_eq_true, Bool.and_eq_true,
    stage_or_isPipe_iff_mem, stage_or_isPipe_iff_mem, stage_or_isPipe_iff_mem, gamutMissing_eq_true_iff,
    toneMissing, cmatMissing, Bool.not_eq_true', Bool.not_eq_true', or_assoc]

/-- 60_exceptions.md R210 as the rule rephrases it: not finite is exponent field 0xFF. -/
theorem isFinite_eq_false_iff (w : Word) : isFinite w = false ↔ w.extractLsb' 23 8 = 0xFF := by
  rw [isFinite, bne_eq_false_iff_eq, exponentOf, ← BitVec.toNat_inj, BitVec.extractLsb'_toNat,
    Nat.shiftRight_eq_div_pow]
  exact Iff.rfl

theorem cmatNotFinite_eq_true_iff (s : State) : cmatNotFinite ipa s = true ↔
    ∃ j k, j < 3 ∧ k < 3 ∧ (s.tableElem ipa .cmat j k).extractLsb' 23 8 = 0xFF := by
  rw [← Bool.not_eq_false, cmatNotFinite_eq_false_iff]
  simp only [MatrixFinite, not_forall, exists_prop, Bool.not_eq_true, isFinite_eq_false_iff]

theorem varianceBad_eq_true_iff (s : State) : varianceBad s = true ↔
    isFinite s.noiseVar = false ∨ fge s.noiseVar fZero = false := by
  rw [varianceBad, Bool.or_eq_true, Bool.not_eq_true', Bool.not_eq_true']

theorem pairsBad_eq_true_iff (s : State) : pairsBad ipa s = true ↔
    ∃ c, c < 3 ∧ (isFinite (s.noiseA c) = false ∨ isFinite (s.noiseB c) = false ∨
      fge (s.noiseB c) fZero = false ∨
      fge (fadd ipa.nan (fmul ipa.nan (s.noiseA c) f255) (s.noiseB c)) fZero = false) := by
  simp only [pairsBad, pairBad, List.any_eq_true, List.mem_range, Bool.or_eq_true, Bool.not_eq_true', or_assoc]

/-- 60_exceptions.md R211. -/
theorem noiseBad_eq_true_iff (i : Instr) (s : State) : noiseBad ipa i s = true ↔
    (i ∈ [Instr.noiseU, .pipeU] ∧ (isFinite s.noiseVar = false ∨ fge s.noiseVar fZero = false)) ∨
    (i ∈ [Instr.noiseS, .pipeS] ∧ ∃ c, c < 3 ∧
      (isFinite (s.noiseA c) = false ∨ isFinite (s.noiseB c) = false ∨ fge (s.noiseB c) fZero = false ∨
        fge (fadd ipa.nan (fmul ipa.nan (s.noiseA c) f255) (s.noiseB c)) fZero = false)) := by
  simp only [noiseBad, Bool.or_eq_true, Bool.and_eq_true, beq_iff_eq, varianceBad_eq_true_iff,
    pairsBad_eq_true_iff, List.mem_cons, List.not_mem_nil, or_false]

/-! ### The fault of each check -/

/-- Settles O7: the code is the first check's, and the check is the rule's condition. -/
theorem shapeFaultExactly : Obligations.ShapeFaultExactly := by
  intro i s hn hr he
  rw [← shapeBad_eq_true_iff, ← entryCheck_eq_shape_iff hn hr]
  exact exec_eq_faultState_iff hr he .shape

/-- Settles O8: the code is the second check's, the first having passed. -/
theorem sequenceFaultExactly : Obligations.SequenceFaultExactly := by
  intro i s hn hr he
  rw [← inputMissing_eq_true_iff, ← entryCheck_eq_seq_iff hn hr]
  exact exec_eq_faultState_iff hr he .seq

/-- Settles O9: the code is the third check's, which has one clause for each table. -/
theorem calibrationFaultExactly : Obligations.CalibrationFaultExactly := by
  intro i s hn hr he hs hv
  have hi : inputMissing i s = false := (inputMissing_eq_false_iff i s).mpr hv
  rw [← calibBad_eq_true_iff, ← entryCheck_eq_calib_iff hn hr hs hi]
  exact exec_eq_faultState_iff hr he .calib

/-- Past the first three checks `CMAT` and the `PIPE` commands test the matrix. -/
theorem exec_eq_singularFault_iff {i : Instr} {s : State} (hn : i ≠ .nop) (hr : i ≠ .srst)
    (he : s.err = false) (hs : ShapeOk s) (hi : inputMissing i s = false)
    (hc : calibBad ipa i s = false) (hm : singularBad ipa i s = cmatNotFinite ipa s) :
    exec i s = .next (faultState 5 i s) ↔
      ∃ j k, j < 3 ∧ k < 3 ∧ (s.tableElem ipa .cmat j k).extractLsb' 23 8 = 0xFF := by
  rw [← cmatNotFinite_eq_true_iff, ← hm, ← entryCheck_eq_singular_iff hn hr hs hi hc]
  exact exec_eq_faultState_iff hr he .singular

/-- Settles O10: `CMAT` needs its own table before its matrix is tested, a `PIPE` command all of them. -/
theorem singularFaultExactly : Obligations.SingularFaultExactly := by
  intro i s he hs hready
  rcases hready with ⟨rfl, hv, ht⟩ | ⟨hp, hv, ht⟩
  · exact exec_eq_singularFault_iff (by decide) (by decide) he hs (by simp [inputMissing_cmat, hv])
      (by simp [calibBad_cmat, ht]) (singularBad_cmat ipa s)
  · rw [← isPipe_iff_mem] at hp
    exact exec_eq_singularFault_iff (ne_nop_of_isPipe hp) (ne_srst_of_isPipe hp) he hs
      (by simp [inputMissing_of_isPipe hp, hv]) (calibBad_pipe hp ht) (singularBad_of_isPipe ipa hp s)

/-- The checks that come before the noise parameters' pass for `NOISE.U` and `NOISE.S`, which need no
table, and for a `PIPE` command that is ready. -/
theorem checks_pass_before_noise {i : Instr} {s : State}
    (h : (i ∈ [Instr.noiseU, .noiseS] ∧ s.valid.fV = true) ∨ (i ∈ [Instr.pipeU, .pipeS] ∧ PipeReady s)) :
    i ≠ .nop ∧ i ≠ .srst ∧ inputMissing i s = false ∧ calibBad ipa i s = false ∧
      singularBad ipa i s = false := by
  rcases h with ⟨hi, hv⟩ | ⟨hi, -, hv, ht, hm⟩
  · have hi' : i = .noiseU ∨ i = .noiseS := by simpa using hi
    rcases hi' with rfl | rfl <;>
      exact ⟨by decide, by decide, by simp [inputMissing_noiseU, inputMissing_noiseS, hv], rfl, rfl⟩
  · have hp : isPipe i = true := (isPipe_iff_mem i).mpr (List.mem_cons_of_mem _ hi)
    exact ⟨ne_nop_of_isPipe hp, ne_srst_of_isPipe hp, by simp [inputMissing_of_isPipe hp, hv],
      calibBad_pipe hp ht, by rwa [singularBad_of_isPipe ipa hp, cmatNotFinite_eq_false_iff]⟩

/-- Settles O11: the code is the last check's, which looks at the parameters of the command's own noise. -/
theorem noiseFaultExactly : Obligations.NoiseFaultExactly := by
  intro i s he hs hready
  obtain ⟨hn, hr, hi, hc, hm⟩ := checks_pass_before_noise hready
  rw [← noiseBad_eq_true_iff, ← entryCheck_eq_noise_iff hn hr hs hi hc hm]
  exact exec_eq_faultState_iff hr he .noise

end Sys2Proof.Machine
end

section
/-! PROOFS of the family 70_reset_and_hazards.md: the state after reset meets the invariant, and what every
register reads after `Reset()` and after `SRST`. -/

namespace Sys2Proof.Machine

/-! ### The registers after a reset (70_reset_and_hazards.md R231) -/

/-- No control register is held in memory or in the model's own fields. -/
theorem readReg_withMemoryAndOwnFields (r : Reg) (s : State) (m : Memory) (e : Nat) (ops : List HostOp)
    (a : Option Resp) :
    ({ s with mem := m, epoch := e, host := ops, resp := a }).readReg r = s.readReg r := by
  cases r <;> rfl

/-- The column of reset values of 10_state.md R22. -/
theorem readReg_reset (r : Reg) : State.reset.readReg r = if r = .id then 0x43415641 else 0 := by
  cases r <;> rfl

theorem readReg_softReset (r : Reg) (s : State) : (softReset s).readReg r = State.reset.readReg r :=
  readReg_withMemoryAndOwnFields r State.reset s.mem s.epoch s.host s.resp

theorem readReg_answer_hardReset (r : Reg) (a : Resp) (s : State) :
    (answer a (hardReset s)).readReg r = State.reset.readReg r :=
  readReg_withMemoryAndOwnFields r State.reset [] (s.epoch + 1) s.host (some a)

/-- `SoftReset()` changes no byte of memory (46_control.md R189). -/
theorem byteAt_softReset (P : Params) (s : State) (a : Nat) : (softReset s).byteAt P a = s.byteAt P a :=
  byteAt_same P (softReset_mem s) (softReset_epoch s) a

/-! ### The obligations -/

/-- Settles O36: no byte is listed at reset, and the error record is cleared. -/
theorem invariantHoldsAtReset : Obligations.InvariantHoldsAtReset :=
  (inv_iff _).mpr ⟨⟨rfl, allMapped_nil⟩, errorRecordOk_of_cleared rfl rfl rfl⟩

/-- Settles O44: both resets leave the registers of the reset state, and `SRST` leaves the bytes. -/
theorem resetStateInFull : Obligations.ResetStateInFull := by
  refine ⟨readReg_reset, fun s rest hh => ?_, fun s => ?_⟩
  · exact ⟨answer .ok (hardReset { s with host := rest }), step_of_host hh,
      fun r => (readReg_answer_hardReset r .ok _).trans (readReg_reset r), rfl, rfl⟩
  · exact ⟨softReset s, exec_srst s, fun r => (readReg_softReset r s).trans (readReg_reset r),
      byteAt_softReset ipa s⟩

end Sys2Proof.Machine
end
